-- ==== Sys2Proof/Config.lean ====
section
/-! DEFINITION. The parameters of CORE (spec/00_scope.md R8, R9). The spec takes them as arguments of the model, so they
are data that a state carries and no operation changes (log 1). WDT_TIMEOUT and BAUD are not modelled (R9, D18). -/

namespace Sys2Proof

/-- The model's mode (R8, D15): which operations are admitted. -/
inductive Mode where
  /-- The six scheduler phase steps and RESET. -/
  | core
  /-- The six component operations and RESET. -/
  | unit
  deriving DecidableEq, Repr

/-- The parameters of R9. -/
structure Params where
  /-- `K`, log2 of the ring capacity. -/
  k : Nat
  /-- `MAX_PKT`, the USB max-packet-size of the low-water mark. -/
  maxPkt : Nat
  /-- `FLOWCTL_EN`, whether the optional flow control is built. -/
  flowctlEn : Bool
  /-- `MODE`. -/
  mode : Mode
  deriving DecidableEq, Repr

/-- `N = 2^K`, the ring capacity in bytes (R9). -/
def Params.n (p : Params) : Nat := 2 ^ p.k

/-- The constraints R9 sets on the parameters. -/
abbrev Params.Ok (p : Params) : Prop := 2 ≤ p.k ∧ 1 ≤ p.maxPkt ∧ p.maxPkt < p.n

/-- The reference configuration of R9. -/
def Params.reference : Params := { k := 5, maxPkt := 8, flowctlEn := true, mode := .core }

end Sys2Proof
end

