-- ==== Sys2Proof/Word.lean ====
section
/-! DEFINITION. The values CORE carries (spec/00_scope.md R10, spec/30_encoding.md R70): a byte, a frame of four bytes,
the events of a USB poll, the causes of a reset, and the verdicts of a refusal. -/

namespace Sys2Proof

/-- `u8`, an unsigned 8-bit value (R10); CORE never looks at its bits (R70). -/
abbrev Byte := BitVec 8

/-- A `Frame`: exactly four bytes, identified by position only (R10, 20_memory R53). -/
structure Frame where
  f0 : Byte
  f1 : Byte
  f2 : Byte
  f3 : Byte
  deriving DecidableEq, Repr

/-- The bytes of a frame, `f0` first: the order in which `UsbTx` sends them (R53). -/
def Frame.bytes (f : Frame) : List Byte := [f.f0, f.f1, f.f2, f.f3]

/-- One event the USB stack delivers during a poll (10_state R32). -/
inductive UsbEvent where
  /-- A host-to-device transfer, of any finite length (R76, D10). -/
  | packet (data : List Byte)
  /-- The stack's flow-control policy disabled request acceptance. -/
  | flowDisable
  deriving DecidableEq, Repr

/-- `rst_cause` (10_state R32). -/
inductive RstCause where
  | external
  | watchdog
  deriving DecidableEq, Repr

/-- The verdicts of a refusal, exactly those of 30_encoding R77. -/
inductive Verdict where
  /-- Decoder: the opcode is 0x0, 0x7 or 0xF. -/
  | reservedOpcode
  /-- Decoder: a reserved bit of the header or of a flag byte is set, or FLGB carries data without its flag. -/
  | reservedBits
  /-- Decoder: the stream ends inside a command. -/
  | truncated
  /-- Decoder: an event tag other than 0x01 or 0x02. -/
  | badEventTag
  /-- Harness: an operation of the mode the model does not run in. -/
  | wrongMode
  /-- Harness: a scheduler operation whose phase is not the current one. -/
  | wrongPhase
  /-- Harness: a poll that would deliver a packet while request acceptance is disabled. -/
  | packetWhileDisabled
  /-- Harness: a flow disable where flow control is not built. -/
  | noFlowControl
  deriving DecidableEq, Repr

end Sys2Proof
end

