-- ==== Sys2Proof/Machine/State.lean ====
section
/-! DEFINITION. The state of CORE (spec/10_state.md): its registers (R21 to R27), its one memory (R22, 20_memory R50), the
model-only records (R31, R35), the parameters (00_scope R9) and the command stream still to be decoded (30_encoding R72). -/

namespace Sys2Proof.Machine

/-- The reasons the model stops in a faulted state (`raise Fault`, 00_scope R12). Neither is reachable (70_reset R203). -/
inductive Fault where
  /-- Raised by RB_PUSH when full, RB_POP, FA_FEED on the fourth byte, SFB_STAGE over a pending frame and SFB_TAKE, and by the
  operations that perform them, when they read a byte that holds no value (10_state R29). Safe: the spec names this fault. -/
  | unwrittenRead
  /-- Raised by a scheduler operation in CORE mode that finds SCH.phase 6 or 7 (30_encoding R71). Safe: the spec names it. -/
  | badPhase
  deriving DecidableEq, Repr

/-- The reasons a step gives no next state and no fault. -/
inductive Refusal where
  /-- An operation without a meaning yet; raised by no arm of exec. Safe. -/
  | notModelled (mnemonic : String)
  /-- Raised by the fetch when no command is pending: no operation was issued, so there is no transition (log 2). Safe. -/
  | endOfStream
  deriving DecidableEq, Repr

/-- The output events (10_state R31). -/
inductive Event where
  | wdtKick
  | usbPoll
  | uartTx (b : Byte)
  | usbRxEnable
  | usbTx (f : Frame)
  | popResult (r : Option Byte)
  | feedResult (c : Bool)
  | takeResult (r : Option Frame)
  deriving DecidableEq, Repr

/-- The incidents of the model-only log (60_exceptions R181), codes 1 to 5 in this order. -/
inductive Incident where
  | rbOverwrite (dropped : Byte)
  | sfbOverwrite (dropped : Frame)
  | pktTrunc (discarded : Nat)
  | wdtReset
  | extReset
  deriving DecidableEq, Repr

/-- Four byte slots, each with its written mark: none is "unwritten" (10_state R29). -/
structure Slots where
  s0 : Option Byte
  s1 : Option Byte
  s2 : Option Byte
  s3 : Option Byte
  deriving DecidableEq, Repr

/-- The ring storage: (index, byte), indices strictly rising; an index not listed is unwritten (log 8). -/
abbrev Memory := List Host.Cell

structure State where
  /-- The parameters K, MAX_PKT, FLOWCTL_EN, MODE (00_scope R8, R9). -/
  cfg : Params
  /-- `RB.wr`, range 0 to 2N-1 (R21). -/
  rbWr : Nat
  /-- `RB.rd`, range 0 to 2N-1 (R21). -/
  rbRd : Nat
  /-- `RB.mem[0..N-1]` (R22). -/
  rbMem : Memory
  /-- `FA.count` (R23). -/
  faCount : BitVec 2
  /-- `FA.stage[0..3]` (R23). -/
  faStage : Slots
  /-- `SFB.frame[0..3]` (R24). -/
  sfbFrame : Slots
  /-- `SFB.ready` (R25). -/
  sfbReady : Bool
  /-- `FC.dis` (R26). -/
  fcDis : Bool
  /-- `SCH.phase` (R27). -/
  phase : BitVec 3
  /-- The command stream not yet decoded (30_encoding R72; log 2). -/
  stream : List Byte
  /-- The output trace, oldest first (R31). -/
  trace : List Event
  /-- The incident log, oldest first (60_exceptions R181). -/
  incidents : List Incident
  /-- The refusal mark: set when not empty, one verdict for each refusal, oldest first (R35; log 6). -/
  refusals : List Verdict
  /-- The fault mark (R35). -/
  faultMark : Option Fault
  deriving DecidableEq, Repr

/-- Four slots that hold no value. -/
def Slots.unwritten : Slots := ⟨none, none, none, none⟩

/-- The machine right after power-on with the given parameters: every element as R29 gives it, the records empty, no
command pending. -/
def State.resetWith (p : Params) : State where
  cfg := p
  rbWr := 0
  rbRd := 0
  rbMem := []
  faCount := 0
  faStage := Slots.unwritten
  sfbFrame := Slots.unwritten
  sfbReady := false
  fcDis := false
  phase := 0
  stream := []
  trace := []
  incidents := []
  refusals := []
  faultMark := none

/-- The machine right after reset, in the reference configuration (00_scope R9). -/
def State.reset : State := State.resetWith Params.reference

end Sys2Proof.Machine
end

