-- ==== Sys2Proof/Machine/Ops.lean ====
section
/-! DEFINITION. The named operations over the state: the ring storage and its cursors, the slots, the model-only records,
raising a fault, refusing an operation, and the reset of every element. An operation that may read an unwritten byte
answers an `Except Fault`. -/

namespace Sys2Proof.Machine

/-! ## The ring storage (20_memory R50, R51) -/

/-- The byte at an index, none where nothing has written it (10_state R29). -/
def Memory.read : Memory → Nat → Option Byte
  | [], _ => none
  | (a, b) :: m, i => if a = i then some b else Memory.read m i

/-- The storage with one byte written, its indices still strictly rising. -/
def Memory.write : Memory → Nat → Byte → Memory
  | [], i, v => [(i, v)]
  | (a, b) :: m, i, v =>
    if i < a then (i, v) :: (a, b) :: m
    else if i = a then (i, v) :: m
    else (a, b) :: Memory.write m i v

/-- Every index listed is at least `lo`, the indices rise strictly, and each is below `hi`. -/
def Memory.wfFrom : Nat → Nat → Memory → Bool
  | _, _, [] => true
  | lo, hi, (a, _) :: m => decide (lo ≤ a) && decide (a < hi) && Memory.wfFrom (a + 1) hi m

/-- The canonical form of a storage of `n` bytes: strictly rising indices, all of them 0 to n-1. -/
def Memory.wf (n : Nat) (m : Memory) : Bool := Memory.wfFrom 0 n m

/-- `N`, the ring capacity. -/
def State.cap (s : State) : Nat := s.cfg.n

/-- `idx(c) = c mod N` (20_memory R51). -/
def State.idx (s : State) (c : Nat) : Nat := c % s.cap

/-- A cursor after it advances by one, modulo 2N (10_state R21). -/
def State.advance (s : State) (c : Nat) : Nat := (c + 1) % (2 * s.cap)

/-- `occ = (RB.wr + 2N − RB.rd) mod 2N`, the bytes held in the ring buffer (00_scope R14). -/
def State.occ (s : State) : Nat := (s.rbWr + 2 * s.cap - s.rbRd) % (2 * s.cap)

/-- `MemRead(i, 1)` (00_scope R11). -/
def State.memRead (s : State) (i : Nat) : Option Byte := s.rbMem.read i

/-- `MemWrite(i, 1, v)` (00_scope R11). -/
def State.memWrite (s : State) (i : Nat) (v : Byte) : State := { s with rbMem := s.rbMem.write i v }

/-! ## Slots -/

/-- The slots with slot `i` written. -/
def Slots.set (x : Slots) (i : BitVec 2) (v : Byte) : Slots :=
  match i.toNat with
  | 0 => { x with s0 := some v }
  | 1 => { x with s1 := some v }
  | 2 => { x with s2 := some v }
  | _ => { x with s3 := some v }

/-- Slot `i`, none where it is unwritten. -/
def Slots.get (x : Slots) (i : BitVec 2) : Option Byte :=
  match i.toNat with
  | 0 => x.s0
  | 1 => x.s1
  | 2 => x.s2
  | _ => x.s3

/-- All four slots read at once: a read of an unwritten byte raises the fault (10_state R29, 20_memory R56). -/
def Slots.readAll (x : Slots) : Except Fault Frame :=
  match x.s0, x.s1, x.s2, x.s3 with
  | some a, some b, some c, some d => .ok ⟨a, b, c, d⟩
  | _, _, _, _ => .error .unwrittenRead

/-- All four slots written at once (R56). -/
def Slots.ofFrame (f : Frame) : Slots := ⟨some f.f0, some f.f1, some f.f2, some f.f3⟩

/-! ## The model-only records (00_scope R12, 10_state R35) -/

/-- `emit E`. -/
def State.emit (s : State) (e : Event) : State := { s with trace := s.trace ++ [e] }

/-- `log I`. -/
def State.note (s : State) (i : Incident) : State := { s with incidents := s.incidents ++ [i] }

/-- `refuse(reason)`: the refusal mark is set and no part of the operation is performed (30_encoding R77; log 3, 6). -/
def State.refuse (s : State) (v : Verdict) : State := { s with refusals := s.refusals ++ [v] }

/-- `raise Fault(reason)`: the state as it was before the operation, with the fault mark set (log 7). This is the only
event of CORE's model that resembles taking an exception; nothing is saved and no control is transferred (60_exceptions
R180, R188). -/
def State.raise (s : State) (r : Fault) : State := { s with faultMark := some r }

/-- `phase <- p`. -/
def State.setPhase (s : State) (p : BitVec 3) : State := { s with phase := p }

/-! ## Component operations, shared by the UNIT operations and the scheduler phases -/

/-- The first branch of RB_PUSH (40_ring_buffer R100): when full, drop the oldest unread byte. A read of a byte nothing has written
raises the fault (10_state R29). -/
def State.dropOldest (s : State) : Except Fault State :=
  if s.occ = s.cap then
    match s.memRead (s.idx s.rbRd) with
    | some d => .ok { s.note (.rbOverwrite d) with rbRd := s.advance s.rbRd }
    | none => .error .unwrittenRead
  else .ok s

/-- The rest of RB_PUSH: write the byte at `idx(RB.wr)`, then advance `RB.wr`. -/
def State.append (s : State) (b : Byte) : State :=
  { s.memWrite (s.idx s.rbWr) b with rbWr := s.advance s.rbWr }

/-- RB_PUSH b (40_ring_buffer R100). -/
def State.push (s : State) (b : Byte) : Except Fault State :=
  match s.dropOldest with
  | .ok t => .ok (t.append b)
  | .error r => .error r

/-- RB_PUSH of each byte in order. -/
def State.pushAll (s : State) : List Byte → Except Fault State
  | [] => .ok s
  | b :: bs =>
    match s.push b with
    | .ok t => t.pushAll bs
    | .error r => .error r

/-- RB_POP (40_ring_buffer R101): its result and the state after it. A read of a byte nothing has written raises the fault
(10_state R29). -/
def State.pop (s : State) : Except Fault (Option Byte × State) :=
  if s.rbWr = s.rbRd then .ok (none, s)
  else
    match s.memRead (s.idx s.rbRd) with
    | some b => .ok (some b, { s with rbRd := s.advance s.rbRd })
    | none => .error .unwrittenRead

/-- SFB_STAGE f (43_frame_buffer R130). -/
def State.stage (s : State) (f : Frame) : Except Fault State :=
  if s.sfbReady then
    match s.sfbFrame.readAll with
    | .ok old => .ok { s.note (.sfbOverwrite old) with sfbFrame := Slots.ofFrame f, sfbReady := true }
    | .error r => .error r
  else .ok { s with sfbFrame := Slots.ofFrame f, sfbReady := true }

/-- SFB_TAKE (43_frame_buffer R131): its result and the state after it. -/
def State.take (s : State) : Except Fault (Option Frame × State) :=
  if s.sfbReady then
    match s.sfbFrame.readAll with
    | .ok f => .ok (some f, { s with sfbReady := false })
    | .error r => .error r
  else .ok (none, s)

/-- FA_FEED b (42_frame_assembler R120): the frame-completed result and the state after it. -/
def State.feed (s : State) (b : Byte) : Except Fault (Bool × State) :=
  let stored := { s with faStage := s.faStage.set s.faCount b }
  if s.faCount = 3 then
    match stored.faStage.readAll with
    | .ok f =>
      match stored.stage f with
      | .ok t => .ok (true, { t with faCount := 0 })
      | .error r => .error r
    | .error r => .error r
  else .ok (false, { stored with faCount := s.faCount + 1 })

/-! ## Reset (44_scheduler R148, 70_reset R200) -/

/-- Every element of 10_state R29 at its reset value; the records, the parameters and the stream are kept (R35). -/
def State.resetElements (s : State) : State :=
  { s with
    rbWr := 0, rbRd := 0, rbMem := [], faCount := 0, faStage := Slots.unwritten, sfbFrame := Slots.unwritten,
    sfbReady := false, fcDis := false, phase := 0 }

/-! ## Admission and completion of an operation -/

/-- The end of an admitted operation: its next state, or the state that the raised fault leaves (log 7). -/
def State.settle (s : State) : Except Fault State → Host.Outcome State Fault Refusal
  | .ok t => .next t
  | .error r => .next (s.raise r)

/-- A component operation: admitted in UNIT mode only (00_scope R8, 30_encoding R77). -/
def State.asUnit (s : State) (body : Except Fault State) : Host.Outcome State Fault Refusal :=
  if s.cfg.mode = .unit then s.settle body else .next (s.refuse .wrongMode)

/-- A scheduler operation: admitted in CORE mode and in its own phase only (R77, 44_scheduler R141); a phase above 5 raises
BadPhase (R71). The mode is judged before the phase (log 5). -/
def State.asPhase (s : State) (p : BitVec 3) (body : Except Fault State) : Host.Outcome State Fault Refusal :=
  if s.cfg.mode = .core then
    if 5 < s.phase.toNat then .next (s.raise .badPhase)
    else if s.phase = p then s.settle body
    else .next (s.refuse .wrongPhase)
  else .next (s.refuse .wrongMode)

end Sys2Proof.Machine
end

