-- ==== Sys2Proof/Machine/Assembler.lean ====
section
/-! DEFINITION. The serial frame assembler's operation (spec/42_frame_assembler.md). -/

namespace Sys2Proof.Machine

/-- FA_FEED b (R120), a top-level command: its result is emitted. -/
def execFaFeed (b : Byte) (s : State) : Host.Outcome State Fault Refusal :=
  s.asUnit <|
    match s.feed b with
    | .ok (c, t) => .ok (t.emit (.feedResult c))
    | .error f => .error f

end Sys2Proof.Machine
end

