-- ==== Sys2Proof/Machine/Operands.lean ====
section
/-! DEFINITION. How the operations read their operands: a packet's complete groups and its trailing fragment (spec/41_demux.md
R110), and the admission of a poll's events (spec/44_scheduler.md R143). -/

namespace Sys2Proof.Machine

/-- The bytes of the complete 4-byte groups of a transfer, in order: `data[0] … data[4·(len div 4) − 1]` (R110, R111). -/
def groupBytes (data : List Byte) : List Byte := data.take (4 * (data.length / 4))

/-- `t = |data| mod 4`, the length of the discarded fragment (R110). -/
def fragment (data : List Byte) : Nat := data.length % 4

/-- The admission loop of S_POLL: the verdict of the first event that is refused, `d` being the running value of
`FC.dis` (R143, 30_encoding R77). -/
def pollVerdict (flowctlEn : Bool) : Bool → List UsbEvent → Option Verdict
  | _, [] => none
  | _, .flowDisable :: evs => if flowctlEn then pollVerdict flowctlEn true evs else some .noFlowControl
  | d, .packet _ :: evs => if d then some .packetWhileDisabled else pollVerdict flowctlEn d evs

end Sys2Proof.Machine
end

