-- ==== Sys2Proof/Machine/Demux.lean ====
section
/-! DEFINITION. The USB packet demultiplexer (spec/41_demux.md). -/

namespace Sys2Proof.Machine

/-- DMX_PACKET data (R110): push the complete groups in order, then record a discarded fragment. -/
def State.demux (s : State) (data : List Byte) : Except Fault State :=
  match s.pushAll (groupBytes data) with
  | .ok t => .ok (if fragment data = 0 then t else t.note (.pktTrunc (fragment data)))
  | .error r => .error r

/-- DMX_PACKET as a command (R110). -/
def execDmxPacket (data : List Byte) (s : State) : Host.Outcome State Fault Refusal :=
  s.asUnit (s.demux data)

end Sys2Proof.Machine
end

