-- ==== Sys2Proof/Machine/FrameBuffer.lean ====
section
/-! DEFINITION. The single-frame buffer's operations (spec/43_frame_buffer.md). -/

namespace Sys2Proof.Machine

/-- SFB_STAGE f (R130). -/
def execSfbStage (f : Frame) (s : State) : Host.Outcome State Fault Refusal :=
  s.asUnit (s.stage f)

/-- SFB_TAKE (R131), a top-level command: its result is emitted. -/
def execSfbTake (s : State) : Host.Outcome State Fault Refusal :=
  s.asUnit <|
    match s.take with
    | .ok (r, t) => .ok (t.emit (.takeResult r))
    | .error f => .error f

end Sys2Proof.Machine
end

