-- ==== Sys2Proof/Machine/Ring.lean ====
section
/-! DEFINITION. The ring buffer's operations (spec/40_ring_buffer.md). -/

namespace Sys2Proof.Machine

/-- RB_PUSH b (R100). -/
def execRbPush (b : Byte) (s : State) : Host.Outcome State Fault Refusal :=
  s.asUnit (s.push b)

/-- RB_POP (R101), a top-level command: its result is emitted. -/
def execRbPop (s : State) : Host.Outcome State Fault Refusal :=
  s.asUnit <|
    match s.pop with
    | .ok (r, t) => .ok (t.emit (.popResult r))
    | .error f => .error f

end Sys2Proof.Machine
end

