-- ==== Sys2Proof/Machine/Flags.lean ====
section
/-! DEFINITION. The flag computations: `SFB.ready` and `FC.dis` are CORE's only flags (spec/10_state.md R28). -/

namespace Sys2Proof.Machine

/-- "OR into the utxrdy signal": the value S_URX writes to `SFB.ready` (44_scheduler R146). -/
def readyOr (ready completed : Bool) : Bool := ready || completed

/-- `N − MAX_PKT`, the low-water mark (44_scheduler R145). -/
def State.lowWater (s : State) : Nat := s.cap - s.cfg.maxPkt

/-- Whether S_FLOW re-enables request acceptance: strictly below the low-water mark (R145, D11). -/
def State.reenables (s : State) : Bool := s.cfg.flowctlEn && s.fcDis && decide (s.occ < s.lowWater)

end Sys2Proof.Machine
end

