-- ==== Sys2Proof/Machine/Scheduler.lean ====
section
/-! DEFINITION. The scheduler's six phase operations and RESET (spec/44_scheduler.md). -/

namespace Sys2Proof.Machine

/-- S_WDT (R142). -/
def execSWdt (s : State) : Host.Outcome State Fault Refusal :=
  s.asPhase 0 (.ok ((s.emit .wdtKick).setPhase 1))

/-- One event of a poll (R143): the write callback, or the disabling of request acceptance. -/
def State.deliver (s : State) : UsbEvent → Except Fault State
  | .packet data => s.demux data
  | .flowDisable => .ok { s with fcDis := true }

/-- The events of a poll, in delivery order (R143). -/
def State.deliverAll (s : State) : List UsbEvent → Except Fault State
  | [] => .ok s
  | ev :: evs =>
    match s.deliver ev with
    | .ok t => t.deliverAll evs
    | .error r => .error r

/-- The effect of S_POLL once it is admitted (R143). -/
def State.poll (s : State) (events : List UsbEvent) : Except Fault State :=
  match (s.emit .usbPoll).deliverAll events with
  | .ok t => .ok (t.setPhase 2)
  | .error r => .error r

/-- S_POLL poll_events (R143): the whole sequence is admitted before any effect. A poll refused leaves the state as it was,
the phase included (30_encoding R77). -/
def execSPoll (events : List UsbEvent) (s : State) : Host.Outcome State Fault Refusal :=
  s.asPhase 1 <|
    match pollVerdict s.cfg.flowctlEn s.fcDis events with
    | some v => .ok (s.refuse v)
    | none => s.poll events

/-- S_UTX uart_tx_ready (R144). -/
def execSUtx (txReady : Bool) (s : State) : Host.Outcome State Fault Refusal :=
  s.asPhase 2 <|
    if txReady && decide (s.rbWr ≠ s.rbRd) then
      match s.pop with
      | .ok (some b, t) => .ok ((t.emit (.uartTx b)).setPhase 3)
      | .ok (none, t) => .ok (t.setPhase 3)
      | .error r => .error r
    else .ok (s.setPhase 3)

/-- S_FLOW (R145). -/
def execSFlow (s : State) : Host.Outcome State Fault Refusal :=
  s.asPhase 3 <|
    if s.reenables then .ok (({ s with fcDis := false }.emit .usbRxEnable).setPhase 4)
    else .ok (s.setPhase 4)

/-- S_URX (R146): `rx` is the received byte when uart_rx_avail is 1. -/
def execSUrx (rx : Option Byte) (s : State) : Host.Outcome State Fault Refusal :=
  s.asPhase 4 <|
    match rx with
    | none => .ok (s.setPhase 5)
    | some b =>
      match s.feed b with
      | .ok (c, t) => .ok ({ t with sfbReady := readyOr t.sfbReady c }.setPhase 5)
      | .error r => .error r

/-- S_USBTX usb_in_ready (R147). -/
def execSUsbtx (inReady : Bool) (s : State) : Host.Outcome State Fault Refusal :=
  s.asPhase 5 <|
    if inReady && s.sfbReady then
      match s.take with
      | .ok (some f, t) => .ok ((t.emit (.usbTx f)).setPhase 0)
      | .ok (none, t) => .ok (t.setPhase 0)
      | .error r => .error r
    else .ok (s.setPhase 0)

/-- The incident that records a reset (R148, 60_exceptions R181). -/
def resetIncident : RstCause → Incident
  | .watchdog => .wdtReset
  | .external => .extReset

/-- RESET rst_cause (R148), admitted in both modes and in every phase. -/
def execReset (cause : RstCause) (s : State) : Host.Outcome State Fault Refusal :=
  .next (s.note (resetIncident cause)).resetElements

end Sys2Proof.Machine
end

