-- ==== Sys2Proof/Syntax.lean ====
section
/-! DEFINITION. The operations of CORE: one constructor for each row of spec/opcode_table.json (30_encoding R73). An
operand is a unit-test input or the record of an environment draw (R74). -/

namespace Sys2Proof

inductive Instr where
  /-- RB_PUSH b (40_ring_buffer R100). -/
  | rbPush (b : Byte)
  /-- RB_POP (40_ring_buffer R101). -/
  | rbPop
  /-- DMX_PACKET data (41_demux R110). -/
  | dmxPacket (data : List Byte)
  /-- FA_FEED b (42_frame_assembler R120). -/
  | faFeed (b : Byte)
  /-- SFB_STAGE f (43_frame_buffer R130). -/
  | sfbStage (f : Frame)
  /-- SFB_TAKE (43_frame_buffer R131). -/
  | sfbTake
  /-- S_WDT (44_scheduler R142). -/
  | sWdt
  /-- S_POLL with the draw poll_events (44_scheduler R143). -/
  | sPoll (events : List UsbEvent)
  /-- S_UTX with the draw uart_tx_ready (44_scheduler R144). -/
  | sUtx (txReady : Bool)
  /-- S_FLOW (44_scheduler R145). -/
  | sFlow
  /-- S_URX: none when uart_rx_avail is 0, else the draw uart_rx_data (44_scheduler R146). -/
  | sUrx (rx : Option Byte)
  /-- S_USBTX with the draw usb_in_ready (44_scheduler R147). -/
  | sUsbtx (inReady : Bool)
  /-- RESET with the draw rst_cause (44_scheduler R148). -/
  | reset (cause : RstCause)
  deriving DecidableEq, Repr

end Sys2Proof
end

