-- ==== Sys2Proof/Machine/Dispatch.lean ====
section
/-! DEFINITION. Each operation and its meaning, one arm for each row of spec/opcode_table.json. -/

namespace Sys2Proof.Machine

def exec (i : Instr) (s : State) : Host.Outcome State Fault Refusal :=
  match i with
  | .rbPush b => Sys2Proof.Machine.execRbPush b s
  | .rbPop => Sys2Proof.Machine.execRbPop s
  | .dmxPacket data => Sys2Proof.Machine.execDmxPacket data s
  | .faFeed b => Sys2Proof.Machine.execFaFeed b s
  | .sfbStage f => Sys2Proof.Machine.execSfbStage f s
  | .sfbTake => Sys2Proof.Machine.execSfbTake s
  | .sWdt => Sys2Proof.Machine.execSWdt s
  | .sPoll events => Sys2Proof.Machine.execSPoll events s
  | .sUtx txReady => Sys2Proof.Machine.execSUtx txReady s
  | .sFlow => Sys2Proof.Machine.execSFlow s
  | .sUrx rx => Sys2Proof.Machine.execSUrx rx s
  | .sUsbtx inReady => Sys2Proof.Machine.execSUsbtx inReady s
  | .reset cause => Sys2Proof.Machine.execReset cause s

end Sys2Proof.Machine
end

