-- ==== Sys2Proof/WellFormed.lean ====
section
/-! DEFINITION. Which operations the command encoding can write (spec/30_encoding.md R74 to R76): a packet of at most
65535 bytes and a poll of at most 255 events. The bounds belong to the encoding only: the meanings take any length. -/

namespace Sys2Proof

/-- `L ≤ 65535`: the two length bytes can hold the length of the data (R74, R76). -/
def lengthEncodable (data : List Byte) : Bool := decide (data.length < 65536)

/-- A poll event that R75 can write. -/
def UsbEvent.wellFormed : UsbEvent → Bool
  | .packet data => lengthEncodable data
  | .flowDisable => true

/-- `E ≤ 255`, and every event of the poll can be written (R75, R76). -/
def pollEncodable (events : List UsbEvent) : Bool :=
  decide (events.length < 256) && events.all UsbEvent.wellFormed

/-- An operation that the command encoding can write. -/
def Instr.wellFormed : Instr → Bool
  | .rbPush _ => true
  | .rbPop => true
  | .dmxPacket data => lengthEncodable data
  | .faFeed _ => true
  | .sfbStage _ => true
  | .sfbTake => true
  | .sWdt => true
  | .sPoll events => pollEncodable events
  | .sUtx _ => true
  | .sFlow => true
  | .sUrx _ => true
  | .sUsbtx _ => true
  | .reset _ => true

end Sys2Proof
end

