-- ==== Sys2Proof/Decode.lean ====
section
/-! DEFINITION. The command encoding (spec/30_encoding.md R72 to R78): the decoder, total on any bytes and refusing by
verdict, and the encoder. -/

namespace Sys2Proof

/-! ## The opcode map (R73) -/

/-- Column OP of R73. -/
def Instr.opcode : Instr → BitVec 4
  | .rbPush _ => 0x1
  | .rbPop => 0x2
  | .dmxPacket _ => 0x3
  | .faFeed _ => 0x4
  | .sfbStage _ => 0x5
  | .sfbTake => 0x6
  | .sWdt => 0x8
  | .sPoll _ => 0x9
  | .sUtx _ => 0xA
  | .sFlow => 0xB
  | .sUrx _ => 0xC
  | .sUsbtx _ => 0xD
  | .reset _ => 0xE

/-- Column "mode" of R73; none stands for "both". -/
def Instr.requiredMode : Instr → Option Mode
  | .rbPush _ => some .unit
  | .rbPop => some .unit
  | .dmxPacket _ => some .unit
  | .faFeed _ => some .unit
  | .sfbStage _ => some .unit
  | .sfbTake => some .unit
  | .sWdt => some .core
  | .sPoll _ => some .core
  | .sUtx _ => some .core
  | .sFlow => some .core
  | .sUrx _ => some .core
  | .sUsbtx _ => some .core
  | .reset _ => none

/-- Column "required phase" of R73; none stands for no required phase. -/
def Instr.requiredPhase : Instr → Option (BitVec 3)
  | .rbPush _ => none
  | .rbPop => none
  | .dmxPacket _ => none
  | .faFeed _ => none
  | .sfbStage _ => none
  | .sfbTake => none
  | .sWdt => some 0
  | .sPoll _ => some 1
  | .sUtx _ => some 2
  | .sFlow => some 3
  | .sUrx _ => some 4
  | .sUsbtx _ => some 5
  | .reset _ => none

/-- The bytes one poll event takes (R75). -/
def eventLength : UsbEvent → Nat
  | .packet data => 3 + data.length
  | .flowDisable => 1

/-- Column "command length in bytes" of R73. -/
def Instr.commandLength : Instr → Nat
  | .rbPush _ => 2
  | .rbPop => 1
  | .dmxPacket data => 3 + data.length
  | .faFeed _ => 2
  | .sfbStage _ => 5
  | .sfbTake => 1
  | .sWdt => 1
  | .sPoll events => 2 + (events.map eventLength).sum
  | .sUtx _ => 2
  | .sFlow => 1
  | .sUrx _ => 3
  | .sUsbtx _ => 2
  | .reset _ => 2

/-! ## Decoding -/

/-- The first `n` bytes of the stream and what follows them; none where the stream ends before. -/
def takeBytes : Nat → List Byte → Option (List Byte × List Byte)
  | 0, bs => some ([], bs)
  | _ + 1, [] => none
  | n + 1, b :: bs =>
    match takeBytes n bs with
    | some (data, rest) => some (b :: data, rest)
    | none => none

/-- `l0 l1 d0 … d(L-1)` with `L = l0 + 256·l1` (R74, format P). -/
def decodePacket : List Byte → Except Verdict (List Byte × List Byte)
  | l0 :: l1 :: bs =>
    match takeBytes (l0.toNat + 256 * l1.toNat) bs with
    | some p => .ok p
    | none => .error .truncated
  | _ => .error .truncated

/-- One poll event: a tag byte and its operands (R75). -/
def decodeEvent : List Byte → Except Verdict (UsbEvent × List Byte)
  | [] => .error .truncated
  | tag :: bs =>
    if tag = 0x01 then
      match decodePacket bs with
      | .ok (data, rest) => .ok (.packet data, rest)
      | .error v => .error v
    else if tag = 0x02 then .ok (.flowDisable, bs)
    else .error .badEventTag

/-- The `E` events of format EV, in order (R74, R75). -/
def decodeEvents : Nat → List Byte → Except Verdict (List UsbEvent × List Byte)
  | 0, bs => .ok ([], bs)
  | n + 1, bs =>
    match decodeEvent bs with
    | .error v => .error v
    | .ok (ev, rest) =>
      match decodeEvents n rest with
      | .error v => .error v
      | .ok (evs, rest') => .ok (ev :: evs, rest')

/-- The flag operand `g[0]`; `g[7:1]` is reserved and must be 0 (R74). -/
def flagOf (g : Byte) : Except Verdict Bool :=
  if g.extractLsb' 1 7 = 0 then .ok (g.getLsbD 0) else .error .reservedBits

/-- Format FLG: read the flag byte, then check it. -/
def decodeFlag (make : Bool → Instr) : List Byte → Except Verdict (Instr × List Byte)
  | g :: bs =>
    match flagOf g with
    | .ok t => .ok (make t, bs)
    | .error v => .error v
  | [] => .error .truncated

/-- Format B. -/
def decodeByte (make : Byte → Instr) : List Byte → Except Verdict (Instr × List Byte)
  | b :: bs => .ok (make b, bs)
  | [] => .error .truncated

/-- Format FLGB: `d` must be 0x00 when `g[0] = 0` (R74, R77). -/
def decodeFlagByte : List Byte → Except Verdict (Option Byte × List Byte)
  | g :: d :: bs =>
    match flagOf g with
    | .error v => .error v
    | .ok true => .ok (some d, bs)
    | .ok false => if d = 0 then .ok (none, bs) else .error .reservedBits
  | _ => .error .truncated

/-- Format F. -/
def decodeFrame : List Byte → Except Verdict (Frame × List Byte)
  | a :: b :: c :: d :: bs => .ok (⟨a, b, c, d⟩, bs)
  | _ => .error .truncated

/-- `rst_cause`: 0 is External, 1 is Watchdog (R74). -/
def causeOf (g : Bool) : RstCause := if g then .watchdog else .external

/-- The operands that the opcode takes (R73, R74), read from the bytes after the header. -/
def decodeOperands (op : BitVec 4) (bs : List Byte) : Except Verdict (Instr × List Byte) :=
  match op.toNat with
  | 0x1 => decodeByte .rbPush bs
  | 0x2 => .ok (.rbPop, bs)
  | 0x3 =>
    match decodePacket bs with
    | .ok (data, rest) => .ok (.dmxPacket data, rest)
    | .error v => .error v
  | 0x4 => decodeByte .faFeed bs
  | 0x5 =>
    match decodeFrame bs with
    | .ok (f, rest) => .ok (.sfbStage f, rest)
    | .error v => .error v
  | 0x6 => .ok (.sfbTake, bs)
  | 0x8 => .ok (.sWdt, bs)
  | 0x9 =>
    match bs with
    | [] => .error .truncated
    | e :: bs' =>
      match decodeEvents e.toNat bs' with
      | .ok (evs, rest) => .ok (.sPoll evs, rest)
      | .error v => .error v
  | 0xA => decodeFlag .sUtx bs
  | 0xB => .ok (.sFlow, bs)
  | 0xC =>
    match decodeFlagByte bs with
    | .ok (rx, rest) => .ok (.sUrx rx, rest)
    | .error v => .error v
  | 0xD => decodeFlag .sUsbtx bs
  | 0xE => decodeFlag (fun g => .reset (causeOf g)) bs
  | _ => .error .reservedOpcode

/-- The opcodes that R73 reserves. -/
def reservedOpcode (op : BitVec 4) : Bool := op == 0x0 || op == 0x7 || op == 0xF

/-- One command from the front of the stream, and the stream after it (R72). Where two verdicts apply, the header's
opcode is judged first, then its reserved bits, then the operands (log 5). The answer for the empty stream, truncated, is the model's
choice too (log 2): R77 speaks of a stream that ends inside a command, and no step decodes an empty one. -/
def decode : List Byte → Except Verdict (Instr × List Byte)
  | [] => .error .truncated
  | h :: bs =>
    if reservedOpcode (h.extractLsb' 4 4) then .error .reservedOpcode
    else if h.extractLsb' 0 4 = 0 then decodeOperands (h.extractLsb' 4 4) bs
    else .error .reservedBits

/-! ## Where a command ends (R72, R76) -/

/-- The stream after the operand bytes that the opcode's format needs, whether or not their bits are legal; none where the opcode is
reserved, the stream ends before, or an event's tag is unknown, so that the length cannot be told (R76). -/
def operandsEnd (op : BitVec 4) (bs : List Byte) : Option (List Byte) :=
  match op.toNat with
  | 0x1 => (takeBytes 1 bs).map Prod.snd
  | 0x2 => some bs
  | 0x3 => (decodePacket bs).toOption.map Prod.snd
  | 0x4 => (takeBytes 1 bs).map Prod.snd
  | 0x5 => (takeBytes 4 bs).map Prod.snd
  | 0x6 => some bs
  | 0x8 => some bs
  | 0x9 =>
    match bs with
    | [] => none
    | e :: bs' => (decodeEvents e.toNat bs').toOption.map Prod.snd
  | 0xA => (takeBytes 1 bs).map Prod.snd
  | 0xB => some bs
  | 0xC => (takeBytes 2 bs).map Prod.snd
  | 0xD => (takeBytes 1 bs).map Prod.snd
  | 0xE => (takeBytes 1 bs).map Prod.snd
  | _ => none

/-- The stream after the first command, accepted or refused, where its length can be told (R72, R76). -/
def commandEnd : List Byte → Option (List Byte)
  | [] => none
  | h :: bs => operandsEnd (h.extractLsb' 4 4) bs

/-! ## Encoding -/

/-- Column H of R73, the header byte: `H[7:4]` the opcode, `H[3:0] = 0000` (R72). -/
def Instr.header : Instr → Byte
  | .rbPush _ => 0x10
  | .rbPop => 0x20
  | .dmxPacket _ => 0x30
  | .faFeed _ => 0x40
  | .sfbStage _ => 0x50
  | .sfbTake => 0x60
  | .sWdt => 0x80
  | .sPoll _ => 0x90
  | .sUtx _ => 0xA0
  | .sFlow => 0xB0
  | .sUrx _ => 0xC0
  | .sUsbtx _ => 0xD0
  | .reset _ => 0xE0

/-- `l0 l1 d0 … d(L-1)` (R74, format P). -/
def encodePacket (data : List Byte) : List Byte :=
  BitVec.ofNat 8 data.length :: BitVec.ofNat 8 (data.length / 256) :: data

/-- One poll event (R75). -/
def encodeEvent : UsbEvent → List Byte
  | .packet data => 0x01 :: encodePacket data
  | .flowDisable => [0x02]

/-- A flag byte with its reserved bits 0 (R74). -/
def flagByte (g : Bool) : Byte := if g then 0x01 else 0x00

/-- The operand bytes of a command (R74). -/
def encodeOperands : Instr → List Byte
  | .rbPush b => [b]
  | .rbPop => []
  | .dmxPacket data => encodePacket data
  | .faFeed b => [b]
  | .sfbStage f => f.bytes
  | .sfbTake => []
  | .sWdt => []
  | .sPoll events => BitVec.ofNat 8 events.length :: events.flatMap encodeEvent
  | .sUtx g => [flagByte g]
  | .sFlow => []
  | .sUrx none => [0x00, 0x00]
  | .sUrx (some d) => [0x01, d]
  | .sUsbtx g => [flagByte g]
  | .reset .external => [flagByte false]
  | .reset .watchdog => [flagByte true]

/-- The command that writes an operation (R72). -/
def encode (i : Instr) : List Byte := i.header :: encodeOperands i

/-! ## A frame as a 32-bit value (20_memory R54, notation only) -/

/-- `W = f0 | f1<<8 | f2<<16 | f3<<24`. -/
def frameWord (f : Frame) : BitVec 32 := f.f3 ++ f.f2 ++ f.f1 ++ f.f0

/-- The frame whose byte `i` is bits `[8i+7:8i]` of the word. -/
def wordFrame (w : BitVec 32) : Frame :=
  ⟨w.extractLsb' 0 8, w.extractLsb' 8 8, w.extractLsb' 16 8, w.extractLsb' 24 8⟩

/-! ## A row of the opcode table as bytes -/

/-- The bytes of an instruction whose bits are `w`, the first byte in the low bits. -/
def tableBytes (nbits w : Nat) : List Byte :=
  (List.range ((nbits + 7) / 8)).map fun k => BitVec.ofNat 8 (w / 256 ^ k)

/-- The bytes of the row with zero bytes after them: a few, or, where the command's own length field asks for more than
those, as many as the longest zero-filled command can take. -/
def paddedTableBytes (nbits w : Nat) : List Byte :=
  match decode (tableBytes nbits w ++ List.replicate 8 0) with
  | .error .truncated => tableBytes nbits w ++ List.replicate 65544 0
  | _ => tableBytes nbits w ++ List.replicate 8 0

/-- The operation the decoder reads from a row of the opcode table, operand bits above `nbits` being 0. -/
def decodeTableWord (nbits w : Nat) : Option Instr :=
  match decode (paddedTableBytes nbits w) with
  | .ok (i, _) => some i
  | .error _ => none

end Sys2Proof
end

