-- ==== Sys2Proof/Machine/Fetch.lean ====
section
/-! DEFINITION. How the next operation is found: the marks that stop the model, the command stream and its decoder
(spec/30_encoding.md R72, R77; spec/10_state.md R35), and the placing of one command for the next step. -/

namespace Sys2Proof.Machine

/-- Bytes the decoder refuses: the refusal mark is set, no operation is performed (R77), and the next command starts after the
refused one's operand bytes (R72). Where the refused command's length cannot be told, the rest of the stream is not decoded, which is
the model's choice (log 4). -/
def State.refuseStream (s : State) (v : Verdict) : State := { s.refuse v with stream := (commandEnd s.stream).getD [] }

/-- Either how the step ends without an operation, or the next operation and the state in which it runs: the stream now
starts at the byte after the command (R72). A faulted model is stopped (00_scope R12; log 7), and with no command pending there
is no operation to run (log 2). A decoder verdict is given before the harness judges the mode or the phase, which is the model's choice
where both apply (log 5). -/
def State.fetch (s : State) : Host.Outcome State Fault Refusal ⊕ (Instr × State) :=
  match s.faultMark with
  | some r => .inl (.fault r)
  | none =>
    match s.stream with
    | [] => .inl (.refused .endOfStream)
    | h :: bs =>
      match decode (h :: bs) with
      | .error v => .inl (.next (s.refuseStream v))
      | .ok (i, rest) => .inr (i, { s with stream := rest })

/-- The state in which the scheduler or the harness issues `i` next: the mode that admits it and, for a scheduler
operation, the phase that selects it (30_encoding R73; log 2). -/
def State.selecting (s : State) (i : Instr) : State :=
  { s with
    cfg := { s.cfg with mode := i.requiredMode.getD s.cfg.mode }
    phase := i.requiredPhase.getD s.phase }

/-- The row's command in front of the stream, and selected (log 2). Bytes that decode to nothing are placed as they are. -/
def State.placeCommand (s : State) (nbits w : Nat) : State :=
  match decodeTableWord nbits w with
  | some i => { s.selecting i with stream := encode i ++ s.stream }
  | none => { s with stream := paddedTableBytes nbits w ++ s.stream }

end Sys2Proof.Machine
end

