-- ==== Sys2Proof/Machine/Step.lean ====
section
/-! DEFINITION. One step of the model: fetch the next command of the stream and perform its operation, one atomic transition
(spec/00_scope.md R7). -/

namespace Sys2Proof.Machine

def step (s : State) : Host.Outcome State Fault Refusal :=
  match s.fetch with
  | .inl o => o
  | .inr (i, t) => exec i t

/-- `s` with the row's instruction as the next command (log 2). -/
def State.withFetchWord (s : State) (nbits w : Nat) : State := s.placeCommand nbits w

end Sys2Proof.Machine
end

