-- ==== Sys2Proof/Machine/Asm.lean ====
section
/-! DEFINITION. The assembler syntax of the commands (spec/30_encoding.md R79) and the pseudo-instructions (R80). Where the
table of R79 leaves a detail open, log 12 says what is accepted. -/

namespace Sys2Proof

/-! ## Words and signs -/

/-- The words and signs of a line. -/
inductive Token where
  /-- A mnemonic, a field name, an event name or a number. -/
  | word (cs : List Char)
  | comma
  | equals
  | openBracket
  | closeBracket
  | openBrace
  | closeBrace
  deriving DecidableEq, Repr

/-- Space, tab and carriage return separate words. -/
def isBlank (c : Char) : Bool := c == ' ' || c == '\t' || c == '\r'

/-- The characters of a word: letters, digits and the underscore. -/
def isWordChar (c : Char) : Bool :=
  let n := c.toNat
  decide (48 ≤ n ∧ n ≤ 57) || decide (65 ≤ n ∧ n ≤ 90) || decide (97 ≤ n ∧ n ≤ 122) || decide (n = 95)

/-- The sign a character is, if any; 123 and 125 are the codes of the two braces. -/
def signOf (c : Char) : Option Token :=
  if c == ',' then some .comma
  else if c == '=' then some .equals
  else if c == '[' then some .openBracket
  else if c == ']' then some .closeBracket
  else if c.toNat = 123 then some .openBrace
  else if c.toNat = 125 then some .closeBrace
  else none

/-- The word read so far, if any. -/
def wordSoFar (acc : List Char) : List Token := if acc.isEmpty then [] else [.word acc]

/-- The words and signs of a line without its comment, `acc` being the word read so far. -/
def tokensFrom : List Char → List Char → Option (List Token)
  | acc, [] => some (wordSoFar acc)
  | acc, c :: cs =>
    if isWordChar c then tokensFrom (acc ++ [c]) cs
    else if isBlank c then (tokensFrom [] cs).map fun ts => wordSoFar acc ++ ts
    else
      match signOf c with
      | some t => (tokensFrom [] cs).map fun ts => wordSoFar acc ++ t :: ts
      | none => none

/-- `;` to the end of the line is a comment (R79). -/
def withoutComment (line : List Char) : List Char := line.takeWhile fun c => c != ';'

/-- The lines of a text, `acc` being the line read so far. -/
def linesFrom : List Char → List Char → List (List Char)
  | acc, [] => [acc]
  | acc, c :: cs => if c == '\n' then acc :: linesFrom [] cs else linesFrom (acc ++ [c]) cs

/-! ## Numbers (R79) -/

/-- The value of a decimal digit. -/
def decimalDigit (c : Char) : Option Nat :=
  let n := c.toNat
  if 48 ≤ n ∧ n ≤ 57 then some (n - 48) else none

/-- The value of a hexadecimal digit, in either case. -/
def hexDigit (c : Char) : Option Nat :=
  let n := c.toNat
  if 48 ≤ n ∧ n ≤ 57 then some (n - 48)
  else if 65 ≤ n ∧ n ≤ 70 then some (n - 55)
  else if 97 ≤ n ∧ n ≤ 102 then some (n - 87)
  else none

/-- The value of a sequence of digits, `acc` being the value of those already read. -/
def digitsFrom (base : Nat) (digit : Char → Option Nat) : Nat → List Char → Option Nat
  | acc, [] => some acc
  | acc, c :: cs =>
    match digit c with
    | some d => digitsFrom base digit (base * acc + d) cs
    | none => none

/-- A number in decimal, or after 0x in hexadecimal. -/
def numberOf : List Char → Option Nat
  | '0' :: 'x' :: h :: hs => digitsFrom 16 hexDigit 0 (h :: hs)
  | d :: ds => digitsFrom 10 decimalDigit 0 (d :: ds)
  | [] => none

/-- A byte operand: a number from 0 to 255. -/
def byteOf (w : List Char) : Option Byte :=
  match numberOf w with
  | some n => if n < 256 then some (BitVec.ofNat 8 n) else none
  | none => none

/-- A flag operand: 0 or 1. -/
def flagWord (w : List Char) : Option Bool :=
  match numberOf w with
  | some 0 => some false
  | some 1 => some true
  | _ => none

/-- The operand of `s_urx`: the word none, or a byte. -/
def rxWord (w : List Char) : Option (Option Byte) :=
  if w = "none".toList then some none else (byteOf w).map some

/-- The operand of `reset`. -/
def causeWord (w : List Char) : Option RstCause :=
  if w = "external".toList then some .external
  else if w = "watchdog".toList then some .watchdog
  else none

/-! ## Lists and poll events -/

/-- Bytes each after a comma, as many as stand there, and what follows them. -/
def moreBytes : List Token → Option (List Byte × List Token)
  | .comma :: .word w :: ts =>
    match byteOf w, moreBytes ts with
    | some b, some (bs, rest) => some (b :: bs, rest)
    | _, _ => none
  | ts => some ([], ts)

/-- `d0, …` inside brackets, or nothing between them. -/
def byteList : List Token → Option (List Byte × List Token)
  | .openBracket :: .closeBracket :: rest => some ([], rest)
  | .openBracket :: ts =>
    match moreBytes (.comma :: ts) with
    | some (b :: bs, .closeBracket :: rest) => some (b :: bs, rest)
    | _ => none
  | _ => none

/-- `packet [d0, …]` or `flow_disable`. -/
def eventOf : List Token → Option (UsbEvent × List Token)
  | .word w :: ts =>
    if w = "packet".toList then (byteList ts).map fun p => (.packet p.1, p.2)
    else if w = "flow_disable".toList then some (.flowDisable, ts)
    else none
  | _ => none

/-- Events each after a comma, at most `fuel` of them, and what follows them. -/
def moreEvents : Nat → List Token → Option (List UsbEvent × List Token)
  | fuel + 1, .comma :: ts =>
    match eventOf ts with
    | some (ev, ts') =>
      match moreEvents fuel ts' with
      | some (evs, rest) => some (ev :: evs, rest)
      | none => none
    | none => none
  | _, ts => some ([], ts)

/-- `ev, …` inside braces, or nothing between them. -/
def eventList : List Token → Option (List UsbEvent × List Token)
  | .openBrace :: .closeBrace :: rest => some ([], rest)
  | .openBrace :: ts =>
    match moreEvents (ts.length + 1) (.comma :: ts) with
    | some (ev :: evs, .closeBrace :: rest) => some (ev :: evs, rest)
    | _ => none
  | _ => none

/-! ## Commands (R79) and pseudo-instructions (R80) -/

/-- One operand that is a word, and nothing after it. -/
def oneWord {α : Type} (read : List Char → Option α) : List Token → Option α
  | [.word w] => read w
  | _ => none

/-- One word, and what follows it. -/
def wordThen {α : Type} (read : List Char → Option α) : List Token → Option (α × List Token)
  | .word w :: rest => (read w).map fun x => (x, rest)
  | _ => none

/-- A field of `iter`, after a comma; where it is omitted, the value it has in `idle`. -/
def fieldOr {α : Type} (name : String) (idle : α) (read : List Token → Option (α × List Token)) (ts : List Token) :
    Option (α × List Token) :=
  match ts with
  | .comma :: .word w :: .equals :: rest => if w = name.toList then read rest else some (idle, ts)
  | _ => some (idle, ts)

/-- The expansion of `iter` (R80). -/
def iterOps (events : List UsbEvent) (tx : Bool) (rx : Option Byte) (inReady : Bool) : List Instr :=
  [.sWdt, .sPoll events, .sUtx tx, .sFlow, .sUrx rx, .sUsbtx inReady]

/-- The fields of `iter`, in the order of R80, each after a comma. -/
def iterFields (ts : List Token) : Option (List Instr) :=
  match fieldOr "poll" [] eventList ts with
  | none => none
  | some (events, ts1) =>
    match fieldOr "tx" false (wordThen flagWord) ts1 with
    | none => none
    | some (tx, ts2) =>
      match fieldOr "rx" none (wordThen rxWord) ts2 with
      | none => none
      | some (rx, ts3) =>
        match fieldOr "in" false (wordThen flagWord) ts3 with
        | some (inReady, []) => some (iterOps events tx rx inReady)
        | _ => none

/-- The operands of `iter`. -/
def iterOf : List Token → Option (List Instr)
  | [] => some (iterOps [] false none false)
  | ts => iterFields (.comma :: ts)

/-- `sfb_stage [f0, f1, f2, f3]`. -/
def stageOf (ts : List Token) : Option (List Instr) :=
  match byteList ts with
  | some ([a, b, c, d], []) => some [.sfbStage ⟨a, b, c, d⟩]
  | _ => none

/-- `dmx_packet [d0, …]`. -/
def packetOf (ts : List Token) : Option (List Instr) :=
  match byteList ts with
  | some (data, []) => some [.dmxPacket data]
  | _ => none

/-- `s_poll` and its events. -/
def pollOf (ts : List Token) : Option (List Instr) :=
  match eventList ts with
  | some (events, []) => some [.sPoll events]
  | _ => none

/-- `fa_feed4 b0, b1, b2, b3` (R80). -/
def feed4Of (ts : List Token) : Option (List Instr) :=
  match moreBytes (.comma :: ts) with
  | some ([a, b, c, d], []) => some [.faFeed a, .faFeed b, .faFeed c, .faFeed d]
  | _ => none

/-- A command without operands. -/
def noOperand (i : Instr) (ts : List Token) : Option (List Instr) := if ts.isEmpty then some [i] else none

/-- The operations a line's mnemonic and operands stand for. -/
def operationsOf (m : List Char) (ts : List Token) : Option (List Instr) :=
  if m = "rb_push".toList then (oneWord byteOf ts).map fun b => [.rbPush b]
  else if m = "rb_pop".toList then noOperand .rbPop ts
  else if m = "dmx_packet".toList then packetOf ts
  else if m = "fa_feed".toList then (oneWord byteOf ts).map fun b => [.faFeed b]
  else if m = "sfb_stage".toList then stageOf ts
  else if m = "sfb_take".toList then noOperand .sfbTake ts
  else if m = "s_wdt".toList then noOperand .sWdt ts
  else if m = "s_poll".toList then pollOf ts
  else if m = "s_utx".toList then (oneWord flagWord ts).map fun g => [.sUtx g]
  else if m = "s_flow".toList then noOperand .sFlow ts
  else if m = "s_urx".toList then (oneWord rxWord ts).map fun rx => [.sUrx rx]
  else if m = "s_usbtx".toList then (oneWord flagWord ts).map fun g => [.sUsbtx g]
  else if m = "reset".toList then (oneWord causeWord ts).map fun c => [.reset c]
  else if m = "iter".toList then iterOf ts
  else if m = "idle".toList then (if ts.isEmpty then iterOf [] else none)
  else if m = "fa_feed4".toList then feed4Of ts
  else none

/-- The operations of one line; a line without words has none. -/
def assembleLine (line : List Char) : Option (List Instr) :=
  match tokensFrom [] (withoutComment line) with
  | some [] => some []
  | some (.word m :: ts) => operationsOf m ts
  | _ => none

/-- The operations of the lines, in order; none where a line is no command. -/
def assembleLines : List (List Char) → Option (List Instr)
  | [] => some []
  | line :: lines =>
    match assembleLine line, assembleLines lines with
    | some is, some rest => some (is ++ rest)
    | _, _ => none

/-- The operations of a program text. -/
def assembleOps (text : String) : Option (List Instr) := assembleLines (linesFrom [] text.toList)

/-- The command stream of a program text (R79, last column); none where an operand list is too long to encode. -/
def assemble (text : String) : Option (List Byte) :=
  match assembleOps text with
  | some is => if is.all Instr.wellFormed then some (is.flatMap encode) else none
  | none => none

end Sys2Proof
end

