-- ==== Sys2Proof/Safety.lean ====
section
/-! DEFINITION. The terms in which claims about the model are stated: the bytes held in the ring, the pending and the partial
frame, what a trace and a log record, the invariant of 10_state R30, and running a sequence of operations. -/

namespace Sys2Proof.Machine

/-! ## Abstract views of the state -/

/-- The bytes held in the ring buffer, oldest first: the slots from `RB.rd` up to but not including `RB.wr` (10_state R30 (c)). -/
def State.held (s : State) : List Byte :=
  (List.range s.occ).filterMap fun k => s.memRead (s.idx (s.rbRd + k))

/-- The frame pending transmission, if `SFB.ready` is set (10_state R25). -/
def State.pending (s : State) : Option Frame :=
  if s.sfbReady then s.sfbFrame.readAll.toOption else none

/-- The bytes of the current frame received so far, in order (10_state R23). -/
def State.partialFrame (s : State) : List Byte :=
  ([s.faStage.s0, s.faStage.s1, s.faStage.s2, s.faStage.s3].take s.faCount.toNat).filterMap id

/-- What a buffer of `n` bytes keeps of a sequence: its last `n` (40_ring_buffer R103). -/
def keepLast (n : Nat) (l : List Byte) : List Byte := l.drop (l.length - n)

/-- What a buffer of `n` bytes loses of a sequence: all but its last `n` (40_ring_buffer R103). -/
def lose (n : Nat) (l : List Byte) : List Byte := l.take (l.length - n)

/-- Consecutive groups of four bytes, unchanged and in order; a trailing fragment forms no group (42_frame_assembler R121). -/
def groups4 : List Byte → List Frame
  | a :: b :: c :: d :: rest => ⟨a, b, c, d⟩ :: groups4 rest
  | _ => []

/-- The bytes the demultiplexer pushes for one poll event (44_scheduler R143). -/
def eventBytes : UsbEvent → List Byte
  | .packet data => groupBytes data
  | .flowDisable => []

/-- The incidents one poll event leaves where the ring of `n` bytes holds `h`: each overwritten byte in push order, then the
truncation of that packet, if any (41_demux R110, 60_exceptions R187). -/
def eventIncidents (n : Nat) (h : List Byte) : UsbEvent → List Incident
  | .packet data =>
    (lose n (h ++ groupBytes data)).map .rbOverwrite ++ if fragment data = 0 then [] else [.pktTrunc (fragment data)]
  | .flowDisable => []

/-- The incidents of a whole poll, in delivery order (44_scheduler R143). -/
def pollIncidents (n : Nat) : List Byte → List UsbEvent → List Incident
  | _, [] => []
  | h, ev :: evs => eventIncidents n h ev ++ pollIncidents n (keepLast n (h ++ eventBytes ev)) evs

/-! ## What the records say -/

/-- The bytes that RB_POP returned. -/
def poppedBytes (es : List Event) : List Byte :=
  es.filterMap fun
    | .popResult (some b) => some b
    | _ => none

/-- The bytes sent to the UART. -/
def uartBytes (es : List Event) : List Byte :=
  es.filterMap fun
    | .uartTx b => some b
    | _ => none

/-- The frames sent over USB. -/
def usbFrames (es : List Event) : List Frame :=
  es.filterMap fun
    | .usbTx f => some f
    | _ => none

/-- The bytes that overflowing pushes dropped (60_exceptions R182). -/
def droppedBytes (ls : List Incident) : List Byte :=
  ls.filterMap fun
    | .rbOverwrite b => some b
    | _ => none

/-- The frames that were overwritten before they were sent (60_exceptions R183). -/
def droppedFrames (ls : List Incident) : List Frame :=
  ls.filterMap fun
    | .sfbOverwrite f => some f
    | _ => none

/-- The code of an incident (60_exceptions R181). -/
def Incident.code : Incident → Nat
  | .rbOverwrite _ => 1
  | .sfbOverwrite _ => 2
  | .pktTrunc _ => 3
  | .wdtReset => 4
  | .extReset => 5

/-- The premise of a claim that data passes without loss: "no incident of code 1, 2 or 3" (60_exceptions R181). -/
def lossless (ls : List Incident) : Bool := ls.all fun i => decide (3 < i.code)

/-- The members of a marked sequence that carry the mark `m`, in order. -/
def marked {α : Type} (m : Bool) (l : List (Bool × α)) : List α :=
  (l.filter fun x => x.1 == m).map Prod.snd

/-! ## The invariant (10_state R30) -/

/-- The ring part of R30: (a), (c), the ranges of the cursors (R21), and the canonical form of the storage. -/
structure RingOk (s : State) : Prop where
  wrRange : s.rbWr < 2 * s.cap
  rdRange : s.rbRd < 2 * s.cap
  memForm : Memory.wf s.cap s.rbMem = true
  occLe : s.occ ≤ s.cap
  heldWritten : ∀ k, k < s.occ → (s.memRead (s.idx (s.rbRd + k))).isSome = true

/-- The serial-to-USB part of R30: (d) and (e). -/
structure FrameOk (s : State) : Prop where
  stageWritten : ∀ i : BitVec 2, i.toNat < s.faCount.toNat → (s.faStage.get i).isSome = true
  frameWritten : s.sfbReady = true → (s.sfbFrame.readAll.toOption).isSome = true

/-- The invariant of every reachable state: R30 (a) to (g), the constraints of R9 on the parameters, `SCH.phase` at its reset
value in UNIT mode (R27), and no fault raised (70_reset R203). -/
structure Inv (s : State) : Prop where
  cfgOk : s.cfg.Ok
  ring : RingOk s
  frame : FrameOk s
  phaseLegal : s.phase.toNat ≤ 5
  flowBuilt : s.cfg.flowctlEn = false → s.fcDis = false
  wrAligned : s.cfg.mode = .core → s.rbWr % 4 = 0
  unitPhase : s.cfg.mode = .unit → s.phase = 0
  notFaulted : s.faultMark = none

/-! ## Sequences of operations -/

/-- The operations performed in order, stopping at the first that gives no next state. -/
def runOps : List Instr → State → Host.Outcome State Fault Refusal
  | [], s => .next s
  | i :: is, s =>
    match exec i s with
    | .next t => runOps is t
    | o => o

/-- The draws of one iteration of the scheduler (10_state R32). -/
structure Draws where
  events : List UsbEvent
  txReady : Bool
  rx : Option Byte
  inReady : Bool
  deriving DecidableEq, Repr

/-- The six operations of an iteration with these draws (30_encoding R80). -/
def Draws.ops (d : Draws) : List Instr := iterOps d.events d.txReady d.rx d.inReady

/-- The serial bytes received in a sequence of iterations. -/
def receivedIn (ds : List Draws) : List Byte := ds.flatMap fun d => d.rx.toList

/-- A push of the byte, or a pop where there is none: the ring buffer's two operations (40_ring_buffer R102). -/
def ringOp : Option Byte → Instr
  | some b => .rbPush b
  | none => .rbPop

/-- The bytes that an operation gives the demultiplexer to push (44_scheduler R143). -/
def pushedBy : Instr → List Byte
  | .sPoll events => events.flatMap eventBytes
  | _ => []

/-- Every byte of the packets that an operation is handed (44_scheduler R143), a trailing fragment included. -/
def deliveredBy : Instr → List Byte
  | .sPoll events => events.flatMap fun
    | .packet data => data
    | .flowDisable => []
  | _ => []

/-- The serial byte that an operation feeds to the assembler (44_scheduler R146). -/
def receivedBy : Instr → List Byte
  | .sUrx (some b) => [b]
  | _ => []

/-- Whether an operation is RESET. -/
def isReset : Instr → Bool
  | .reset _ => true
  | _ => false

/-! ## Renaming the data bytes (30_encoding R70) -/

/-- A frame with each byte renamed. -/
def mapFrame (g : Byte → Byte) (f : Frame) : Frame := ⟨g f.f0, g f.f1, g f.f2, g f.f3⟩

/-- Slots with each written byte renamed. -/
def Slots.mapData (g : Byte → Byte) (x : Slots) : Slots := ⟨x.s0.map g, x.s1.map g, x.s2.map g, x.s3.map g⟩

/-- A poll event with each data byte renamed. -/
def mapEvent (g : Byte → Byte) : UsbEvent → UsbEvent
  | .packet data => .packet (data.map g)
  | .flowDisable => .flowDisable

/-- An operation with each data byte renamed; flags, lengths and causes are kept. -/
def mapInstr (g : Byte → Byte) : Instr → Instr
  | .rbPush b => .rbPush (g b)
  | .rbPop => .rbPop
  | .dmxPacket data => .dmxPacket (data.map g)
  | .faFeed b => .faFeed (g b)
  | .sfbStage f => .sfbStage (mapFrame g f)
  | .sfbTake => .sfbTake
  | .sWdt => .sWdt
  | .sPoll events => .sPoll (events.map (mapEvent g))
  | .sUtx txReady => .sUtx txReady
  | .sFlow => .sFlow
  | .sUrx rx => .sUrx (rx.map g)
  | .sUsbtx inReady => .sUsbtx inReady
  | .reset cause => .reset cause

/-- An output event with each data byte renamed. -/
def Event.mapData (g : Byte → Byte) : Event → Event
  | .wdtKick => .wdtKick
  | .usbPoll => .usbPoll
  | .uartTx b => .uartTx (g b)
  | .usbRxEnable => .usbRxEnable
  | .usbTx f => .usbTx (mapFrame g f)
  | .popResult r => .popResult (r.map g)
  | .feedResult c => .feedResult c
  | .takeResult r => .takeResult (r.map (mapFrame g))

/-- An incident with each data byte renamed. -/
def Incident.mapData (g : Byte → Byte) : Incident → Incident
  | .rbOverwrite b => .rbOverwrite (g b)
  | .sfbOverwrite f => .sfbOverwrite (mapFrame g f)
  | .pktTrunc n => .pktTrunc n
  | .wdtReset => .wdtReset
  | .extReset => .extReset

/-- A state with each data byte it stores, sent or recorded renamed. -/
def State.mapData (g : Byte → Byte) (s : State) : State :=
  { s with
    rbMem := s.rbMem.map fun c => (c.1, g c.2)
    faStage := s.faStage.mapData g
    sfbFrame := s.sfbFrame.mapData g
    trace := s.trace.map (Event.mapData g)
    incidents := s.incidents.map (Incident.mapData g) }

/-- An outcome whose next state has each data byte renamed. -/
def mapOutcome (g : Byte → Byte) : Host.Outcome State Fault Refusal → Host.Outcome State Fault Refusal
  | .next t => .next (t.mapData g)
  | .fault r => .fault r
  | .refused r => .refused r

/-! ## What an observer can tell apart -/

/-- Two states that differ at most in what no output of CORE depends on: where the cursors stand, the storage outside the
bytes held, the staging slots not yet written in the current frame, and the frame buffer while no frame is pending
(70_reset R202, 10_state R36, 43_frame_buffer R131). -/
structure ObsEq (s t : State) : Prop where
  cfg : s.cfg = t.cfg
  held : s.held = t.held
  faCount : s.faCount = t.faCount
  partialFrame : s.partialFrame = t.partialFrame
  pending : s.pending = t.pending
  fcDis : s.fcDis = t.fcDis
  phase : s.phase = t.phase
  stream : s.stream = t.stream
  trace : s.trace = t.trace
  incidents : s.incidents = t.incidents
  refusals : s.refusals = t.refusals
  faultMark : s.faultMark = t.faultMark

end Sys2Proof.Machine
end

