-- ==== Sys2Proof/Certificates/Slice0/Obligations.lean ====
section
/-! DEFINITION. The statements for the provers: what the spec's rules say the operations and the machine do. Where a statement
rests on a decision (D<n>) or a derivation that the spec marks as its own, or on an entry of the assumption log, its docstring says
so. -/

open Sys2Proof Sys2Proof.Machine

/-! ## The command encoding -/

/-- Words written out from the encoding tables of 30_encoding R73 to R75 (the encoding is the spec's decision D14), one for each
operation, decode to the operation they stand for. -/
def Obligations.SpecWordsDecode : Prop :=
  decode [0x10, 0x41] = .ok (.rbPush 0x41, []) ∧
  decode [0x20] = .ok (.rbPop, []) ∧
  decode [0x30, 0x05, 0x00, 0x11, 0x22, 0x33, 0x44, 0x55] = .ok (.dmxPacket [0x11, 0x22, 0x33, 0x44, 0x55], []) ∧
  decode [0x40, 0x90] = .ok (.faFeed 0x90, []) ∧
  decode [0x50, 0x09, 0x90, 0x3C, 0x64] = .ok (.sfbStage ⟨0x09, 0x90, 0x3C, 0x64⟩, []) ∧
  decode [0x60] = .ok (.sfbTake, []) ∧
  decode [0x80] = .ok (.sWdt, []) ∧
  decode [0x90, 0x02, 0x01, 0x04, 0x00, 0x01, 0x02, 0x03, 0x04, 0x02] =
    .ok (.sPoll [.packet [0x01, 0x02, 0x03, 0x04], .flowDisable], []) ∧
  decode [0xA0, 0x01] = .ok (.sUtx true, []) ∧
  decode [0xB0] = .ok (.sFlow, []) ∧
  decode [0xC0, 0x01, 0x80] = .ok (.sUrx (some 0x80), []) ∧
  decode [0xC0, 0x00, 0x00] = .ok (.sUrx none, []) ∧
  decode [0xD0, 0x01] = .ok (.sUsbtx true, []) ∧
  decode [0xE0, 0x00] = .ok (.reset .external, []) ∧
  decode [0xE0, 0x01] = .ok (.reset .watchdog, [])

/-- Decoding the command that writes an operation gives the operation back, and the stream after the command: every operation that
can be written, every operand, whatever follows (30_encoding R72 to R76, decision D14). -/
def Obligations.DecodeOfEncode : Prop :=
  ∀ (i : Instr) (rest : List Byte), i.wellFormed = true → decode (encode i ++ rest) = .ok (i, rest)

/-- What the decoder reads is the command that writes it: each operation has one encoding, and no bit of the bytes read is ignored
(30_encoding R72 to R76, decision D14). -/
def Obligations.EncodeOfDecode : Prop :=
  ∀ (bs rest : List Byte) (i : Instr), decode bs = .ok (i, rest) → i.wellFormed = true ∧ bs = encode i ++ rest

/-- The reserved encodings are refused: the reserved opcodes, a set bit of `H[3:0]`, a set bit of `g[7:1]`, and data without its flag
(30_encoding R77, R78, decision D14). That a reserved opcode is judged before the header's reserved bits is the model's choice, log 5. -/
def Obligations.ReservedEncodingsRefused : Prop :=
  (∀ (h : Byte) (bs : List Byte), (h.extractLsb' 4 4 = 0x0 ∨ h.extractLsb' 4 4 = 0x7 ∨ h.extractLsb' 4 4 = 0xF) →
    decode (h :: bs) = .error .reservedOpcode) ∧
  (∀ (h : Byte) (bs : List Byte), ¬ (h.extractLsb' 4 4 = 0x0 ∨ h.extractLsb' 4 4 = 0x7 ∨ h.extractLsb' 4 4 = 0xF) →
    h.extractLsb' 0 4 ≠ 0 → decode (h :: bs) = .error .reservedBits) ∧
  (∀ (h g : Byte) (bs : List Byte), (h = 0xA0 ∨ h = 0xD0 ∨ h = 0xE0) → g.extractLsb' 1 7 ≠ 0 →
    decode (h :: g :: bs) = .error .reservedBits) ∧
  (∀ (g d : Byte) (bs : List Byte), g.extractLsb' 1 7 ≠ 0 → decode (0xC0 :: g :: d :: bs) = .error .reservedBits) ∧
  (∀ (d : Byte) (bs : List Byte), d ≠ 0 → decode (0xC0 :: 0x00 :: d :: bs) = .error .reservedBits)

/-- A stream that ends inside a command is refused as truncated: every operation that can be written, cut at every place
(30_encoding R77, decision D14). That the cut before the first byte, which leaves an empty stream, is truncated as well is the model's
choice, log 2. -/
def Obligations.TruncatedCommandsRefused : Prop :=
  ∀ (i : Instr) (front back : List Byte), i.wellFormed = true → encode i = front ++ back → back ≠ [] →
    decode front = .error .truncated

/-- A poll event whose tag is neither 0x01 nor 0x02 is refused, wherever in the poll it stands (30_encoding R75, R77, decision D14). Where the stream also ends before the poll's last event, R77's Truncated applies as well: that the
tag is judged first is the model's choice, log 5. -/
def Obligations.UnknownEventTagsRefused : Prop :=
  ∀ (e tag : Byte) (events : List UsbEvent) (rest : List Byte), pollEncodable events = true → events.length < e.toNat →
    tag ≠ 0x01 → tag ≠ 0x02 →
    decode (0x90 :: e :: events.flatMap encodeEvent ++ tag :: rest) = .error .badEventTag

/-- Texts of the assembler syntax stand for the commands that 30_encoding R79 and R80 give (the syntax is the spec's decision D23; what
else is accepted is the model's choice, log 12): the first program of 95_test_vectors, every other command with each form of its
operands, and the pseudo-instructions, iter with its poll and with fields omitted. \x7B and \x7D are the two braces. -/
def Obligations.SpecTextsAssemble : Prop :=
  assemble "fa_feed 0x90 ; a comment\nfa_feed 0x40\nfa_feed 0x7F\nfa_feed 0x10\nsfb_take\nsfb_take\nfa_feed 0x80" =
    some [0x40, 0x90, 0x40, 0x40, 0x40, 0x7F, 0x40, 0x10, 0x60, 0x60, 0x40, 0x80] ∧
  assemble "rb_push 65\nrb_pop\ndmx_packet [0x11, 0x22, 3]\nsfb_stage [9, 0x90, 0x3C, 0x64]" =
    some [0x10, 0x41, 0x20, 0x30, 0x03, 0x00, 0x11, 0x22, 0x03, 0x50, 0x09, 0x90, 0x3C, 0x64] ∧
  assemble "s_wdt\ns_utx 1\ns_flow\ns_urx none\ns_urx 0x80\ns_usbtx 0\nreset external\nreset watchdog" =
    some [0x80, 0xA0, 0x01, 0xB0, 0xC0, 0x00, 0x00, 0xC0, 0x01, 0x80, 0xD0, 0x00, 0xE0, 0x00, 0xE0, 0x01] ∧
  assemble "s_poll \x7B\x7D\ns_poll \x7Bpacket [0x01, 2, 3, 4], flow_disable\x7D" =
    some [0x90, 0x00, 0x90, 0x02, 0x01, 0x04, 0x00, 0x01, 0x02, 0x03, 0x04, 0x02] ∧
  assemble "iter poll=\x7Bpacket [0x09, 0x90, 0x3C, 0x64]\x7D, tx=1, rx=0x80, in=1" =
    some [0x80, 0x90, 0x01, 0x01, 0x04, 0x00, 0x09, 0x90, 0x3C, 0x64, 0xA0, 0x01, 0xB0, 0xC0, 0x01, 0x80, 0xD0, 0x01] ∧
  assembleOps "iter tx=1, rx=0x3C, in=1\nidle\nfa_feed4 1, 2, 3, 4" =
    some (iterOps [] true (some 0x3C) true ++ iterOps [] false none false ++
      [.faFeed 1, .faFeed 2, .faFeed 3, .faFeed 4])

/-! ## One step -/

/-- When the stream's next bytes decode to an operation, the step performs that operation, the stream having moved past the
command (30_encoding R72; that the stream is a field of the state is the model's choice, log 2). -/
def Obligations.StepRunsDecodedInstruction : Prop :=
  ∀ (s : State) (i : Instr) (rest : List Byte), s.faultMark = none → decode s.stream = .ok (i, rest) →
    step s = exec i { s with stream := rest }

/-- Bytes that the decoder refuses set the refusal mark and perform no operation (30_encoding R77; that this is a next state is log 3).
That the mark is a list of verdicts is the model's choice, log 6; so is that the decoder's verdict is given in every mode and phase, where
a harness verdict may apply as well, log 5. That the stream goes on after the refused command's operand bytes where its length can be told
is the model's inference, log 4, and that the rest is not decoded where it cannot is its choice, log 4. -/
def Obligations.StepRefusesUndecodableBytes : Prop :=
  ∀ (s : State) (v : Verdict), s.faultMark = none → s.stream ≠ [] → decode s.stream = .error v →
    step s = .next { s with refusals := s.refusals ++ [v], stream := (commandEnd s.stream).getD [] }

/-- A faulted model is stopped (00_scope R12; log 7), and with no command pending there is no transition (the model's choice,
log 2). -/
def Obligations.StepStopsWhenFaultedOrIdle : Prop :=
  (∀ (s : State) (r : Fault), s.faultMark = some r → step s = .fault r) ∧
  (∀ s : State, s.faultMark = none → s.stream = [] → step s = .refused .endOfStream)

/-! ## Admission -/

/-- An operation of the other mode is refused and nothing else happens, in every state (00_scope R8, 30_encoding R73, R77, decision
D15). That a refusal is a next state is log 3, its record a list log 6; that WrongMode is given where WrongPhase applies as well is the
model's choice, log 5. -/
def Obligations.WrongModeRefused : Prop :=
  ∀ (i : Instr) (s : State) (m : Mode), i.requiredMode = some m → s.cfg.mode ≠ m →
    exec i s = .next { s with refusals := s.refusals ++ [.wrongMode] }

/-- A scheduler operation out of its phase is refused and nothing else happens (30_encoding R73, R77, 44_scheduler R141). That a refusal
is a next state is log 3, its record a list log 6; that WrongPhase is given where a poll's event would be refused as well is log 5. -/
def Obligations.WrongPhaseRefused : Prop :=
  ∀ (i : Instr) (s : State) (p : BitVec 3), s.cfg.mode = .core → s.phase.toNat ≤ 5 → i.requiredPhase = some p → s.phase ≠ p →
    exec i s = .next { s with refusals := s.refusals ++ [.wrongPhase] }

/-- A scheduler operation that finds SCH.phase 6 or 7 raises BadPhase (30_encoding R71, decision D13), and the model is then stopped;
the state the raised fault leaves is the model's choice, log 7, and so is that BadPhase is raised where WrongPhase applies as well, log 5. -/
def Obligations.BadPhaseFaults : Prop :=
  ∀ (i : Instr) (s : State), s.cfg.mode = .core → 5 < s.phase.toNat → i.requiredPhase ≠ none →
    exec i s = .next { s with faultMark := some .badPhase } ∧
    step { s with faultMark := some .badPhase } = .fault .badPhase

/-- A refused operation is not performed in part: where the refusal mark changes, one verdict of the harness is added and the rest of
the state is as it was (30_encoding R77; that a refusal is a next state is log 3, its record a list log 6). -/
def Obligations.RefusalPerformsNothing : Prop :=
  ∀ (i : Instr) (s t : State), exec i s = .next t → t.refusals ≠ s.refusals →
    ∃ v, (v = .wrongMode ∨ v = .wrongPhase ∨ v = .packetWhileDisabled ∨ v = .noFlowControl) ∧
      t = { s with refusals := s.refusals ++ [v] }

/-! ## The ring buffer -/

/-- RB_PUSH (40_ring_buffer R100, decision D3): with room it writes the byte at `idx(RB.wr)` and advances `RB.wr`; when full it first
drops the oldest byte, records it, and advances `RB.rd`. Nothing else changes. -/
def Obligations.RbPushEffect : Prop :=
  ∀ (s : State) (b : Byte), Inv s → s.cfg.mode = .unit →
    (s.occ < s.cap → exec (.rbPush b) s = .next { s with
      rbMem := s.rbMem.write (s.rbWr % s.cap) b, rbWr := (s.rbWr + 1) % (2 * s.cap) }) ∧
    (s.occ = s.cap → ∃ d rest, s.held = d :: rest ∧ s.memRead (s.rbRd % s.cap) = some d ∧
      exec (.rbPush b) s = .next { s with
        incidents := s.incidents ++ [.rbOverwrite d], rbRd := (s.rbRd + 1) % (2 * s.cap),
        rbMem := s.rbMem.write (s.rbWr % s.cap) b, rbWr := (s.rbWr + 1) % (2 * s.cap) })

/-- RB_POP (40_ring_buffer R101): its encoding, its mode, and its effect: an empty buffer returns `none` and nothing changes, otherwise
the oldest byte, the one at `idx(RB.rd)`, is returned and `RB.rd` advances; the slot is not cleared. In CORE mode a pop happens in
S_UTX only: no other operation but the overwriting pushes of S_POLL, and RESET, moves `RB.rd`. -/
def Obligations.RbPopEffect : Prop :=
  (∀ rest, decode (0x20 :: rest) = .ok (.rbPop, rest)) ∧
  (∀ s t : State, s.cfg.mode = .core → exec .rbPop s = .next t → t = { s with refusals := t.refusals }) ∧
  (∀ s : State, Inv s → s.cfg.mode = .unit →
    (s.rbWr = s.rbRd → exec .rbPop s = .next { s with trace := s.trace ++ [.popResult none] }) ∧
    (s.rbWr ≠ s.rbRd → ∃ b rest, s.held = b :: rest ∧ s.memRead (s.rbRd % s.cap) = some b ∧
      exec .rbPop s = .next { s with
        rbRd := (s.rbRd + 1) % (2 * s.cap), trace := s.trace ++ [.popResult (some b)] })) ∧
  (∀ (i : Instr) (s t : State), s.cfg.mode = .core → exec i s = .next t → t.rbRd ≠ s.rbRd →
    i = .sUtx true ∨ (∃ events, i = .sPoll events) ∨ ∃ c, i = .reset c)

/-- FIFO order (40_ring_buffer R102, which the spec derives from R100 and R101): for any sequence of pushes and pops, the bytes that
leave the buffer are the bytes held and pushed, in order; each leaves as a popped byte or as a recorded overwrite. Without an
overwrite, every byte comes out exactly once, in push order. -/
def Obligations.RingFifoOrder : Prop :=
  ∀ (s : State) (ops : List (Option Byte)), Inv s → s.cfg.mode = .unit →
    ∃ t es ls removed, runOps (ops.map ringOp) s = .next t ∧ t.trace = s.trace ++ es ∧ t.incidents = s.incidents ++ ls ∧
      s.held ++ ops.filterMap id = removed.map Prod.snd ++ t.held ∧
      poppedBytes es = marked true removed ∧ ls = (marked false removed).map .rbOverwrite ∧
      (t.incidents = s.incidents → s.held ++ ops.filterMap id = poppedBytes es ++ t.held)

/-- The overwrite policy (40_ring_buffer R103, which the spec derives from R100 and R101): pushes into an empty buffer leave it
holding exactly the last N bytes pushed, in order, the first ones being recorded as overwritten; after N + m pushes (m ≥ 1) the next
N pops return the bytes held and one more returns `none`. -/
def Obligations.RingOverwritePolicy : Prop :=
  ∀ (s : State) (bs : List Byte), Inv s → s.cfg.mode = .unit → s.occ = 0 →
    ∃ t, runOps (bs.map Instr.rbPush) s = .next t ∧ t.occ = min bs.length s.cap ∧ t.held = bs.drop (bs.length - s.cap) ∧
      t.incidents = s.incidents ++ (bs.take (bs.length - s.cap)).map .rbOverwrite ∧
      (s.cap < bs.length → ∃ u, runOps (List.replicate (s.cap + 1) Instr.rbPop) t = .next u ∧
        u.trace = t.trace ++ (bs.drop (bs.length - s.cap)).map (fun b => .popResult (some b)) ++ [.popResult none])

/-- The occupancy law (40_ring_buffer R104, which the spec derives from R100 and R101): a push sets `occ` to `min(occ + 1, N)`, a pop to
`occ − 1` or leaves 0, and `occ` stays at most N; the other operations, but for the packets of DMX_PACKET and S_POLL, the pop of S_UTX and
RESET, change no cursor. -/
def Obligations.OccupancyLaw : Prop :=
  (∀ (s t : State) (b : Byte), Inv s → s.cfg.mode = .unit → exec (.rbPush b) s = .next t →
    t.occ = min (s.occ + 1) s.cap ∧ t.occ ≤ t.cap) ∧
  (∀ s t : State, Inv s → s.cfg.mode = .unit → exec .rbPop s = .next t → t.occ = s.occ - 1 ∧ t.occ ≤ t.cap) ∧
  (∀ (i : Instr) (s t : State), exec i s = .next t → t.rbWr ≠ s.rbWr ∨ t.rbRd ≠ s.rbRd →
    (∃ b, i = .rbPush b) ∨ i = .rbPop ∨ (∃ d, i = .dmxPacket d) ∨ (∃ evs, i = .sPoll evs) ∨ i = .sUtx true ∨ ∃ c, i = .reset c)

/-- What the ring operations leave unchanged (10_state R21, R22, 20_memory R50), in every state: RB_PUSH, RB_POP and DMX_PACKET write only
the cursors, the storage and the records; a push stores to `idx(RB.wr)` only, a pop to nothing, and a packet only to the slots its
`4·(len div 4)` pushes reach. -/
def Obligations.RingOperationFrames : Prop :=
  (∀ (s t : State) (b : Byte), exec (.rbPush b) s = .next t →
    t = { s with rbWr := t.rbWr, rbRd := t.rbRd, rbMem := t.rbMem, incidents := t.incidents, refusals := t.refusals,
                 faultMark := t.faultMark } ∧
    ∀ a, a ≠ s.rbWr % s.cap → t.memRead a = s.memRead a) ∧
  (∀ s t : State, exec .rbPop s = .next t →
    t = { s with rbRd := t.rbRd, trace := t.trace, refusals := t.refusals, faultMark := t.faultMark } ∧
    ∀ a, t.memRead a = s.memRead a) ∧
  (∀ (s t : State) (data : List Byte), exec (.dmxPacket data) s = .next t →
    t = { s with rbWr := t.rbWr, rbRd := t.rbRd, rbMem := t.rbMem, incidents := t.incidents, refusals := t.refusals,
                 faultMark := t.faultMark } ∧
    ∀ a, (∀ k, k < 4 * (data.length / 4) → a ≠ (s.rbWr + k) % s.cap) → t.memRead a = s.memRead a)

/-! ## The demultiplexer -/

/-- DMX_PACKET (41_demux R110): its encoding, its mode, and its effect, for a transfer of any length: the bytes of the complete groups
are pushed in order (the buffer ends holding the last N of what it held and of them), each byte lost is recorded in push order, and a
trailing fragment of 1 to 3 bytes is discarded and recorded. Nothing else changes. In CORE mode only S_POLL moves `RB.wr` (but for
RESET), and it does the same for each packet it delivers. -/
def Obligations.DmxPacketEffect : Prop :=
  (∀ (l0 l1 : Byte) (data rest : List Byte), data.length = l0.toNat + 256 * l1.toNat →
    decode (0x30 :: l0 :: l1 :: data ++ rest) = .ok (.dmxPacket data, rest)) ∧
  (∀ (s t : State) (data : List Byte), s.cfg.mode = .core → exec (.dmxPacket data) s = .next t →
    t = { s with refusals := t.refusals }) ∧
  (∀ (s : State) (data : List Byte), Inv s → s.cfg.mode = .unit →
    ∃ t, exec (.dmxPacket data) s = .next t ∧
      t = { s with rbWr := (s.rbWr + 4 * (data.length / 4)) % (2 * s.cap), rbRd := t.rbRd, rbMem := t.rbMem,
                   incidents := t.incidents } ∧
      t.held = keepLast s.cap (s.held ++ data.take (4 * (data.length / 4))) ∧
      t.incidents = s.incidents ++ (lose s.cap (s.held ++ data.take (4 * (data.length / 4)))).map .rbOverwrite ++
        (if data.length % 4 = 0 then [] else [.pktTrunc (data.length % 4)])) ∧
  (∀ (i : Instr) (s t : State), s.cfg.mode = .core → exec i s = .next t → t.rbWr ≠ s.rbWr →
    (∃ events, i = .sPoll events) ∨ ∃ c, i = .reset c) ∧
  (∀ (s : State) (data : List Byte), Inv s → s.cfg.mode = .core → s.phase = 1 → s.fcDis = false →
    ∃ t, exec (.sPoll [.packet data]) s = .next t ∧ t.rbWr = (s.rbWr + 4 * (data.length / 4)) % (2 * s.cap) ∧
      t.held = keepLast s.cap (s.held ++ data.take (4 * (data.length / 4))) ∧
      t.incidents = s.incidents ++ (lose s.cap (s.held ++ data.take (4 * (data.length / 4)))).map .rbOverwrite ++
        (if data.length % 4 = 0 then [] else [.pktTrunc (data.length % 4)]))

/-- Grouping (41_demux R111, which the spec derives from R110): DMX_PACKET does exactly what RB_PUSH of `data[0]` to
`data[4·(len div 4) − 1]`, in order, does, and then records a discarded fragment. -/
def Obligations.DmxPacketIsItsPushes : Prop :=
  ∀ (s : State) (data : List Byte), Inv s → s.cfg.mode = .unit →
    ∃ u, runOps ((data.take (4 * (data.length / 4))).map Instr.rbPush) s = .next u ∧
      exec (.dmxPacket data) s = .next { u with
        incidents := u.incidents ++ if data.length % 4 = 0 then [] else [.pktTrunc (data.length % 4)] }

/-! ## The frame assembler -/

/-- FA_FEED (42_frame_assembler R120): its encoding, its mode, and its effect. The byte is stored in slot `FA.count`; below three the count
advances and the result is 0; at three the four bytes, in arrival order, are staged, a pending frame being recorded as overwritten, the
count returns to 0 and the result is 1. No operation touches a partial frame but FA_FEED in UNIT mode, S_URX in CORE mode, and RESET. -/
def Obligations.FaFeedEffect : Prop :=
  (∀ (b : Byte) (rest : List Byte), decode (0x40 :: b :: rest) = .ok (.faFeed b, rest)) ∧
  (∀ (s t : State) (b : Byte), s.cfg.mode = .core → exec (.faFeed b) s = .next t → t = { s with refusals := t.refusals }) ∧
  (∀ (s : State) (b : Byte), Inv s → s.cfg.mode = .unit →
    (s.faCount ≠ 3 → exec (.faFeed b) s = .next { s with
      faStage := s.faStage.set s.faCount b, faCount := s.faCount + 1, trace := s.trace ++ [.feedResult false] }) ∧
    (s.faCount = 3 → ∃ f0 f1 f2, s.partialFrame = [f0, f1, f2] ∧ exec (.faFeed b) s = .next { s with
      faStage := ⟨some f0, some f1, some f2, some b⟩, faCount := 0, sfbFrame := ⟨some f0, some f1, some f2, some b⟩,
      sfbReady := true, incidents := s.incidents ++ s.pending.toList.map .sfbOverwrite,
      trace := s.trace ++ [.feedResult true] })) ∧
  (∀ (i : Instr) (s t : State), exec i s = .next t → (t.faCount ≠ s.faCount ∨ t.faStage ≠ s.faStage) →
    (s.cfg.mode = .unit ∧ ∃ b, i = .faFeed b) ∨ (s.cfg.mode = .core ∧ ∃ b, i = .sUrx (some b)) ∨ ∃ c, i = .reset c)

/-- Frame integrity (42_frame_assembler R121, which the spec derives from R120 and the reset values): a sequence of feeds completes a
frame at every fourth byte and at no other, each frame being the four bytes fed since the last one, in order and unchanged (R123); the
last frame is pending and each earlier one is recorded as overwritten; after m feeds the count is m modulo 4. Counted from any count, of
which a start from reset (count 0) is one. -/
def Obligations.FrameIntegrity : Prop :=
  ∀ (s : State) (bs : List Byte), Inv s → s.cfg.mode = .unit →
    ∃ t, runOps (bs.map Instr.faFeed) s = .next t ∧
      t.faCount.toNat = (s.faCount.toNat + bs.length) % 4 ∧
      t.trace = s.trace ++ (List.range bs.length).map (fun k => .feedResult ((s.faCount.toNat + k + 1) % 4 == 0)) ∧
      t.partialFrame = (s.partialFrame ++ bs).drop (4 * ((s.faCount.toNat + bs.length) / 4)) ∧
      t.pending = (s.pending.toList ++ groups4 (s.partialFrame ++ bs)).getLast? ∧
      t.incidents = s.incidents ++ (s.pending.toList ++ groups4 (s.partialFrame ++ bs)).dropLast.map .sfbOverwrite

/-- No resynchronisation (42_frame_assembler R122): where the frame boundaries fall depends on how many bytes were fed, never on their
values, nor on anything but the count: two feeds of equally many bytes, from equal counts, complete frames at the same feeds and leave
equal counts. In CORE mode a received byte, whatever its value, moves the count by one, and completes a frame exactly when three bytes of
it had been received. -/
def Obligations.FrameBoundaryIgnoresContent : Prop :=
  (∀ (s s' t t' : State) (bs bs' : List Byte), Inv s → Inv s' → s.cfg.mode = .unit → s'.cfg.mode = .unit →
    s.faCount = s'.faCount → bs.length = bs'.length →
    runOps (bs.map Instr.faFeed) s = .next t → runOps (bs'.map Instr.faFeed) s' = .next t' →
    t.faCount = t'.faCount ∧ ∃ es, t.trace = s.trace ++ es ∧ t'.trace = s'.trace ++ es) ∧
  (∀ (s : State) (b : Byte), Inv s → s.cfg.mode = .core → s.phase = 4 →
    ∃ t, exec (.sUrx (some b)) s = .next t ∧ t.faCount = s.faCount + 1 ∧ (s.faCount ≠ 3 → t.pending = s.pending) ∧
      (s.faCount = 3 → ∃ f0 f1 f2, s.partialFrame = [f0, f1, f2] ∧ t.pending = some ⟨f0, f1, f2, b⟩))

/-! ## The single-frame buffer -/

/-- SFB_STAGE (43_frame_buffer R130): its encoding, its mode, and its effect: the frame replaces what is there, all four bytes at once,
and becomes pending; a frame that was pending is recorded as overwritten, an equal one too. In CORE mode only S_URX sets the frame or the
ready flag (but for RESET). -/
def Obligations.SfbStageEffect : Prop :=
  (∀ (a b c d : Byte) (rest : List Byte), decode (0x50 :: a :: b :: c :: d :: rest) = .ok (.sfbStage ⟨a, b, c, d⟩, rest)) ∧
  (∀ (s t : State) (f : Frame), s.cfg.mode = .core → exec (.sfbStage f) s = .next t → t = { s with refusals := t.refusals }) ∧
  (∀ (s : State) (f : Frame), Inv s → s.cfg.mode = .unit →
    (s.sfbReady = false → exec (.sfbStage f) s = .next { s with
      sfbFrame := ⟨some f.f0, some f.f1, some f.f2, some f.f3⟩, sfbReady := true }) ∧
    (s.sfbReady = true → ∃ old : Frame, s.sfbFrame = ⟨some old.f0, some old.f1, some old.f2, some old.f3⟩ ∧
      exec (.sfbStage f) s = .next { s with
        sfbFrame := ⟨some f.f0, some f.f1, some f.f2, some f.f3⟩, sfbReady := true,
        incidents := s.incidents ++ [.sfbOverwrite old] })) ∧
  (∀ (i : Instr) (s t : State), s.cfg.mode = .core → exec i s = .next t →
    (t.sfbFrame ≠ s.sfbFrame ∨ (s.sfbReady = false ∧ t.sfbReady = true)) →
    (∃ b, i = .sUrx (some b)) ∨ ∃ c, i = .reset c)

/-- SFB_TAKE (43_frame_buffer R131): its encoding, its mode, and its effect: nothing pending returns `none` and nothing changes,
otherwise the pending frame is returned and the ready flag cleared, the frame bytes being kept. In CORE mode only S_USBTX clears the ready
flag (but for RESET). -/
def Obligations.SfbTakeEffect : Prop :=
  (∀ rest, decode (0x60 :: rest) = .ok (.sfbTake, rest)) ∧
  (∀ s t : State, s.cfg.mode = .core → exec .sfbTake s = .next t → t = { s with refusals := t.refusals }) ∧
  (∀ s : State, Inv s → s.cfg.mode = .unit →
    (s.sfbReady = false → exec .sfbTake s = .next { s with trace := s.trace ++ [.takeResult none] }) ∧
    (s.sfbReady = true → ∃ f : Frame, s.sfbFrame = ⟨some f.f0, some f.f1, some f.f2, some f.f3⟩ ∧
      exec .sfbTake s = .next { s with sfbReady := false, trace := s.trace ++ [.takeResult (some f)] })) ∧
  (∀ (i : Instr) (s t : State), s.cfg.mode = .core → exec i s = .next t → s.sfbReady = true → t.sfbReady = false →
    i = .sUsbtx true ∨ ∃ c, i = .reset c)

/-- The staging law (43_frame_buffer R132, which the spec derives from R130 and R131): of the frames staged between two takes only the
last is returned, each earlier one (and one that was pending before) is recorded as overwritten, and a further take returns `none`. -/
def Obligations.StagingLaw : Prop :=
  ∀ (s : State) (fs : List Frame) (last : Frame), Inv s → s.cfg.mode = .unit →
    ∃ t, runOps ((fs ++ [last]).map Instr.sfbStage ++ [.sfbTake, .sfbTake]) s = .next t ∧
      t.trace = s.trace ++ [.takeResult (some last), .takeResult none] ∧
      t.incidents = s.incidents ++ (s.pending.toList ++ fs).map .sfbOverwrite ∧ t.pending = none

/-- What the serial-to-USB component operations leave unchanged (10_state R23 to R25), in every state: FA_FEED, SFB_STAGE and SFB_TAKE touch
neither the ring buffer, no byte of its storage, nor flow control, nor the phase; SFB_STAGE and SFB_TAKE not the assembler; SFB_TAKE not the
frame bytes. -/
def Obligations.FrameOperationFrames : Prop :=
  (∀ (s t : State) (b : Byte), exec (.faFeed b) s = .next t →
    t = { s with faCount := t.faCount, faStage := t.faStage, sfbFrame := t.sfbFrame, sfbReady := t.sfbReady, trace := t.trace,
                 incidents := t.incidents, refusals := t.refusals, faultMark := t.faultMark } ∧
    ∀ a, t.memRead a = s.memRead a) ∧
  (∀ (s t : State) (f : Frame), exec (.sfbStage f) s = .next t →
    t = { s with sfbFrame := t.sfbFrame, sfbReady := t.sfbReady, incidents := t.incidents, refusals := t.refusals,
                 faultMark := t.faultMark } ∧
    ∀ a, t.memRead a = s.memRead a) ∧
  (∀ s t : State, exec .sfbTake s = .next t →
    t = { s with sfbReady := t.sfbReady, trace := t.trace, refusals := t.refusals, faultMark := t.faultMark } ∧
    ∀ a, t.memRead a = s.memRead a)

/-! ## The scheduler -/

/-- S_WDT (44_scheduler R142): its encoding, and its effect: in phase 0 it kicks the watchdog, whatever the state of the buffers, and
moves to phase 1. Nothing else changes. -/
def Obligations.SWdtEffect : Prop :=
  (∀ rest, decode (0x80 :: rest) = .ok (.sWdt, rest)) ∧
  (∀ s : State, s.cfg.mode = .core → s.phase = 0 → exec .sWdt s = .next { s with trace := s.trace ++ [.wdtKick], phase := 1 })

/-- S_POLL, admitted (44_scheduler R143, decisions D8 to D10, D21): one UsbPoll, every packet's groups pushed in delivery order (the buffer
ends holding the last N of what it held and of them), the losses and truncations recorded in that order, FC.dis set when a FlowDisable was
delivered, phase 2. Nothing else changes. -/
def Obligations.SPollDelivers : Prop :=
  ∀ (s : State) (events : List UsbEvent), Inv s → s.cfg.mode = .core → s.phase = 1 →
    pollVerdict s.cfg.flowctlEn s.fcDis events = none →
    ∃ t, exec (.sPoll events) s = .next t ∧
      t = { s with rbWr := (s.rbWr + (events.flatMap eventBytes).length) % (2 * s.cap), rbRd := t.rbRd, rbMem := t.rbMem,
                   fcDis := t.fcDis, incidents := t.incidents, trace := s.trace ++ [.usbPoll], phase := 2 } ∧
      (t.fcDis = true ↔ s.fcDis = true ∨ .flowDisable ∈ events) ∧
      t.held = keepLast s.cap (s.held ++ events.flatMap eventBytes) ∧
      t.incidents = s.incidents ++ pollIncidents s.cap s.held events

/-- Which polls are admitted, and what the refused ones do (44_scheduler R143, 30_encoding R77, decision D9). Packets first and flow
disables after them are admitted, packets only while acceptance is enabled, flow disables only where flow control is built; a packet after
a disable refuses the whole poll, and so does a disable where flow control is not built; the state is left as it was (that a refusal is
a next state is log 3, its record a list log 6). -/
def Obligations.PollAdmission : Prop :=
  (∀ (packets : List (List Byte)) (n : Nat) (en dis : Bool), (dis = true → packets = []) → (en = false → n = 0) →
    pollVerdict en dis (packets.map UsbEvent.packet ++ List.replicate n .flowDisable) = none) ∧
  (∀ (events : List UsbEvent) (en dis : Bool), pollVerdict en dis events = none →
    ∃ packets n, events = packets.map UsbEvent.packet ++ List.replicate n .flowDisable ∧ (dis = true → packets = []) ∧
      (en = false → n = 0)) ∧
  (∀ (s : State) (before after : List UsbEvent) (data : List Byte), s.cfg.mode = .core → s.phase = 1 →
    pollVerdict s.cfg.flowctlEn s.fcDis before = none → (s.fcDis = true ∨ .flowDisable ∈ before) →
    exec (.sPoll (before ++ .packet data :: after)) s = .next { s with refusals := s.refusals ++ [.packetWhileDisabled] }) ∧
  (∀ (s : State) (before after : List UsbEvent), s.cfg.mode = .core → s.phase = 1 → s.cfg.flowctlEn = false →
    pollVerdict s.cfg.flowctlEn s.fcDis before = none →
    exec (.sPoll (before ++ .flowDisable :: after)) s = .next { s with refusals := s.refusals ++ [.noFlowControl] })

/-- S_UTX (44_scheduler R144): its encoding, and its effect: in phase 2, when the UART is ready and the buffer is not empty, exactly one
byte, the oldest, leaves the buffer and goes to the UART; otherwise nothing is popped and nothing is sent; phase 3 in either case.
Nothing else changes. -/
def Obligations.SUtxEffect : Prop :=
  (∀ rest, decode (0xA0 :: 0x00 :: rest) = .ok (.sUtx false, rest) ∧ decode (0xA0 :: 0x01 :: rest) = .ok (.sUtx true, rest)) ∧
  (∀ s : State, Inv s → s.cfg.mode = .core → s.phase = 2 →
    exec (.sUtx false) s = .next { s with phase := 3 } ∧
    (s.rbWr = s.rbRd → exec (.sUtx true) s = .next { s with phase := 3 }) ∧
    (s.rbWr ≠ s.rbRd → ∃ b rest, s.held = b :: rest ∧ s.memRead (s.rbRd % s.cap) = some b ∧
      exec (.sUtx true) s = .next { s with
        rbRd := (s.rbRd + 1) % (2 * s.cap), trace := s.trace ++ [.uartTx b], phase := 3 }))

/-- S_FLOW (44_scheduler R145, decisions D6, D7, D11): in phase 3, acceptance is re-enabled, and the event emitted, exactly when flow
control is built, acceptance is disabled and `occ` is strictly below `N − MAX_PKT`; phase 4 in either case. Nothing else changes. -/
def Obligations.SFlowEffect : Prop :=
  (∀ rest, decode (0xB0 :: rest) = .ok (.sFlow, rest)) ∧
  (∀ s : State, s.cfg.mode = .core → s.phase = 3 →
    (s.cfg.flowctlEn = true ∧ s.fcDis = true ∧ s.occ < s.cap - s.cfg.maxPkt →
      exec .sFlow s = .next { s with fcDis := false, trace := s.trace ++ [.usbRxEnable], phase := 4 }) ∧
    (¬ (s.cfg.flowctlEn = true ∧ s.fcDis = true ∧ s.occ < s.cap - s.cfg.maxPkt) →
      exec .sFlow s = .next { s with phase := 4 }))

/-- S_URX (44_scheduler R146, whose OR the spec derives to change nothing): in phase 4, no byte available reads nothing; an available
byte is fed to the assembler, and the fourth byte of a frame stages it, a pending frame being recorded as overwritten; phase 5 in either
case. Nothing else changes. -/
def Obligations.SUrxEffect : Prop :=
  (∀ rest, decode (0xC0 :: 0x00 :: 0x00 :: rest) = .ok (.sUrx none, rest)) ∧
  (∀ (b : Byte) (rest : List Byte), decode (0xC0 :: 0x01 :: b :: rest) = .ok (.sUrx (some b), rest)) ∧
  (∀ (s : State) (b : Byte), Inv s → s.cfg.mode = .core → s.phase = 4 →
    exec (.sUrx none) s = .next { s with phase := 5 } ∧
    (s.faCount ≠ 3 → exec (.sUrx (some b)) s = .next { s with
      faStage := s.faStage.set s.faCount b, faCount := s.faCount + 1, phase := 5 }) ∧
    (s.faCount = 3 → ∃ f0 f1 f2, s.partialFrame = [f0, f1, f2] ∧ exec (.sUrx (some b)) s = .next { s with
      faStage := ⟨some f0, some f1, some f2, some b⟩, faCount := 0, sfbFrame := ⟨some f0, some f1, some f2, some b⟩,
      sfbReady := true, incidents := s.incidents ++ s.pending.toList.map .sfbOverwrite, phase := 5 }))

/-- S_USBTX (44_scheduler R147): its encoding, and its effect: in phase 5, when the endpoint is ready and a frame is pending, the frame
is sent, all four bytes, and the ready flag cleared; otherwise nothing is sent and a pending frame stays pending; phase 0 in either case.
Nothing else changes. -/
def Obligations.SUsbtxEffect : Prop :=
  (∀ rest, decode (0xD0 :: 0x00 :: rest) = .ok (.sUsbtx false, rest) ∧ decode (0xD0 :: 0x01 :: rest) = .ok (.sUsbtx true, rest)) ∧
  (∀ s : State, Inv s → s.cfg.mode = .core → s.phase = 5 →
    exec (.sUsbtx false) s = .next { s with phase := 0 } ∧
    (s.sfbReady = false → exec (.sUsbtx true) s = .next { s with phase := 0 }) ∧
    (s.sfbReady = true → ∃ f : Frame, s.sfbFrame = ⟨some f.f0, some f.f1, some f.f2, some f.f3⟩ ∧
      exec (.sUsbtx true) s = .next { s with sfbReady := false, trace := s.trace ++ [.usbTx f], phase := 0 }))

/-- RESET (44_scheduler R148, 70_reset R200, decision D18): from every state, in both modes, every element takes the reset value of
10_state R29, whichever the cause; the incident of the cause is recorded, and the records are kept (10_state R31, R35). That the
parameters and the stream not yet decoded are kept too is the model's inference, log 10. -/
def Obligations.ResetEffect : Prop :=
  ∀ s : State,
    exec (.reset .external) s = .next { State.resetWith s.cfg with
      stream := s.stream, trace := s.trace, incidents := s.incidents ++ [.extReset], refusals := s.refusals,
      faultMark := s.faultMark } ∧
    exec (.reset .watchdog) s = .next { State.resetWith s.cfg with
      stream := s.stream, trace := s.trace, incidents := s.incidents ++ [.wdtReset], refusals := s.refusals,
      faultMark := s.faultMark }

/-- The state after reset (10_state R29, 00_scope R9; the values are the spec's decisions D4, D5, D8, D12, D13): both cursors 0, nothing
written in the storage, the staging array and the frame, count 0, no frame pending, acceptance enabled, phase 0, in the reference
configuration. That the records are empty is the model's inference, log 10; that the command stream is empty is its choice, log 2. -/
def Obligations.ResetValues : Prop :=
  State.reset.rbWr = 0 ∧ State.reset.rbRd = 0 ∧ (∀ a, State.reset.memRead a = none) ∧ State.reset.faCount = 0 ∧
  (∀ i, State.reset.faStage.get i = none) ∧ (∀ i, State.reset.sfbFrame.get i = none) ∧ State.reset.sfbReady = false ∧
  State.reset.fcDis = false ∧ State.reset.phase = 0 ∧
  State.reset.cfg = { k := 5, maxPkt := 8, flowctlEn := true, mode := .core } ∧ State.reset.cap = 32 ∧
  State.reset.trace = [] ∧ State.reset.incidents = [] ∧ State.reset.refusals = [] ∧ State.reset.faultMark = none ∧
  State.reset.stream = []

/-- The phase cycle and enabledness (44_scheduler R140, R141, R150, decisions D13, D28): in CORE mode the operation of the current phase,
whatever its draws (an admitted poll), completes without refusal or fault and moves to the next phase, 5 to 0. -/
def Obligations.PhaseOperationCompletes : Prop :=
  ∀ (s : State) (i : Instr), Inv s → s.cfg.mode = .core → i.requiredPhase = some s.phase →
    (∀ events, i = .sPoll events → pollVerdict s.cfg.flowctlEn s.fcDis events = none) →
    ∃ t, exec i s = .next t ∧ t.phase.toNat = (s.phase.toNat + 1) % 6 ∧ t.refusals = s.refusals ∧ t.faultMark = none

/-- What the scheduler operations that store nothing leave unchanged (10_state R21 to R27), in every state: S_WDT, S_UTX, S_FLOW, S_URX and
S_USBTX write only what is named, and no byte of the storage. -/
def Obligations.SchedulerFrames : Prop :=
  (∀ s t : State, exec .sWdt s = .next t →
    t = { s with trace := t.trace, phase := t.phase, refusals := t.refusals, faultMark := t.faultMark } ∧
    ∀ a, t.memRead a = s.memRead a) ∧
  (∀ (s t : State) (ready : Bool), exec (.sUtx ready) s = .next t →
    t = { s with rbRd := t.rbRd, trace := t.trace, phase := t.phase, refusals := t.refusals, faultMark := t.faultMark } ∧
    ∀ a, t.memRead a = s.memRead a) ∧
  (∀ s t : State, exec .sFlow s = .next t →
    t = { s with fcDis := t.fcDis, trace := t.trace, phase := t.phase, refusals := t.refusals, faultMark := t.faultMark } ∧
    ∀ a, t.memRead a = s.memRead a) ∧
  (∀ (s t : State) (rx : Option Byte), exec (.sUrx rx) s = .next t →
    t = { s with faCount := t.faCount, faStage := t.faStage, sfbFrame := t.sfbFrame, sfbReady := t.sfbReady, phase := t.phase,
                 incidents := t.incidents, refusals := t.refusals, faultMark := t.faultMark } ∧
    ∀ a, t.memRead a = s.memRead a) ∧
  (∀ (s t : State) (ready : Bool), exec (.sUsbtx ready) s = .next t →
    t = { s with sfbReady := t.sfbReady, trace := t.trace, phase := t.phase, refusals := t.refusals, faultMark := t.faultMark } ∧
    ∀ a, t.memRead a = s.memRead a)

/-- What S_POLL leaves unchanged (44_scheduler R143), in every state: it touches neither the assembler nor the frame buffer, and stores
only to the slots that the pushes of its packets reach. -/
def Obligations.PollFrame : Prop :=
  ∀ (s t : State) (events : List UsbEvent), exec (.sPoll events) s = .next t →
    t = { s with rbWr := t.rbWr, rbRd := t.rbRd, rbMem := t.rbMem, fcDis := t.fcDis, phase := t.phase, trace := t.trace,
                 incidents := t.incidents, refusals := t.refusals, faultMark := t.faultMark } ∧
    ∀ a, (∀ k, k < (events.flatMap eventBytes).length → a ≠ (s.rbWr + k) % s.cap) → t.memRead a = s.memRead a

/-! ## Properties of the loop -/

/-- The bounds of one iteration (44_scheduler R149, which the spec derives from R140, R142 to R147): one WdtKick, one UsbPoll, at most one
UartTx, at most one UsbRxEnable, at most one UsbTx, in that order, and back to phase 0, whatever the draws. -/
def Obligations.IterationBounds : Prop :=
  ∀ (s : State) (events : List UsbEvent) (tx inReady : Bool) (rx : Option Byte), Inv s → s.cfg.mode = .core → s.phase = 0 →
    pollVerdict s.cfg.flowctlEn s.fcDis events = none →
    ∃ t sent enabled frame, runOps (iterOps events tx rx inReady) s = .next t ∧ t.phase = 0 ∧ t.refusals = s.refusals ∧
      t.trace = s.trace ++ [.wdtKick, .usbPoll] ++ (Option.toList sent).map .uartTx ++
        (if enabled = true then [.usbRxEnable] else []) ++ (Option.toList frame).map .usbTx

/-- Same-iteration forwarding (44_scheduler R151, which the spec derives from R140, R143 to R147): a byte pushed in phase 1 can be sent in
phase 2, a frame completed in phase 4 in phase 5, a pop in phase 2 counts for the low-water test in phase 3; a frame completed while the
endpoint is busy waits. -/
def Obligations.SameIterationForwarding : Prop :=
  (∀ (s : State) (data : List Byte) (b : Byte), Inv s → s.cfg.mode = .core → s.phase = 1 → s.fcDis = false → s.occ = 0 →
    3 ≤ data.length → data.length < s.cap →
    ∃ t, runOps [.sPoll [.packet (b :: data)], .sUtx true] s = .next t ∧ t.trace = s.trace ++ [.usbPoll, .uartTx b]) ∧
  (∀ (s : State) (b : Byte), Inv s → s.cfg.mode = .core → s.phase = 4 → s.faCount = 3 →
    ∃ t f0 f1 f2, s.partialFrame = [f0, f1, f2] ∧ runOps [.sUrx (some b), .sUsbtx true] s = .next t ∧
      t.trace = s.trace ++ [.usbTx ⟨f0, f1, f2, b⟩] ∧ t.pending = none) ∧
  (∀ s : State, Inv s → s.cfg.mode = .core → s.phase = 2 → s.cfg.flowctlEn = true → s.fcDis = true →
    s.occ = s.cap - s.cfg.maxPkt →
    ∃ t b, runOps [.sUtx true, .sFlow] s = .next t ∧ t.fcDis = false ∧ t.trace = s.trace ++ [.uartTx b, .usbRxEnable]) ∧
  (∀ (s : State) (b : Byte), Inv s → s.cfg.mode = .core → s.phase = 4 → s.faCount = 3 →
    ∃ t f0 f1 f2, s.partialFrame = [f0, f1, f2] ∧ runOps [.sUrx (some b), .sUsbtx false] s = .next t ∧
      t.trace = s.trace ∧ t.pending = some ⟨f0, f1, f2, b⟩ ∧ t.phase = 0)

/-- Flow-control persistence (44_scheduler R152, which the spec derives from R143 to R145): while acceptance is disabled nothing is pushed,
`occ` falls by at most one and only in an S_UTX with the UART ready, and acceptance stays disabled until an S_FLOW finds
`occ < N − MAX_PKT` (or a RESET). -/
def Obligations.FlowControlPersistence : Prop :=
  ∀ (i : Instr) (s t : State), Inv s → s.cfg.mode = .core → s.fcDis = true → isReset i = false → exec i s = .next t →
    (t.fcDis = true ∨ (i = .sFlow ∧ s.occ < s.cap - s.cfg.maxPkt)) ∧ t.rbWr = s.rbWr ∧
    (t.occ = s.occ ∨ (i = .sUtx true ∧ t.occ + 1 = s.occ))

/-- Order from USB to serial (20_memory R64 (a), which the spec derives): in CORE mode, over any admitted sequence of scheduler operations
without a reset, the bytes sent to the UART are, in order, those of the bytes held and pushed that were not dropped by an overflow, and
what is neither sent nor dropped is still held. -/
def Obligations.UartOrder : Prop :=
  ∀ (is : List Instr) (s t : State), Inv s → s.cfg.mode = .core → is.all (fun i => !isReset i) = true →
    runOps is s = .next t → t.refusals = s.refusals →
    ∃ es ls removed, t.trace = s.trace ++ es ∧ t.incidents = s.incidents ++ ls ∧
      s.held ++ is.flatMap pushedBy = removed.map Prod.snd ++ t.held ∧
      uartBytes es = marked true removed ∧ droppedBytes ls = marked false removed

/-- Order from serial to USB (20_memory R64 (b), which the spec derives): in CORE mode, over any admitted sequence of scheduler operations
without a reset, the frames sent over USB are, in order, those of the frames completed that were not overwritten, each whole, and what is
neither sent nor overwritten is pending; the bytes not yet in a frame are the partial frame. -/
def Obligations.UsbOrder : Prop :=
  ∀ (is : List Instr) (s t : State), Inv s → s.cfg.mode = .core → is.all (fun i => !isReset i) = true →
    runOps is s = .next t → t.refusals = s.refusals →
    ∃ es ls removed, t.trace = s.trace ++ es ∧ t.incidents = s.incidents ++ ls ∧
      s.pending.toList ++ groups4 (s.partialFrame ++ is.flatMap receivedBy) = removed.map Prod.snd ++ t.pending.toList ∧
      usbFrames es = marked true removed ∧ droppedFrames ls = marked false removed ∧
      t.partialFrame = (s.partialFrame ++ is.flatMap receivedBy).drop
        (4 * ((s.partialFrame ++ is.flatMap receivedBy).length / 4))

/-- No incident, no loss (60_exceptions R181, and the ordering guarantee of 20_memory R64, which the spec derives): in CORE mode, over any
admitted sequence of scheduler operations without a reset that leaves no incident of code 1, 2 or 3, every byte of every packet is sent to
the UART or still held, in order, and every frame completed is sent over USB or pending, in order. -/
def Obligations.NoIncidentNoLoss : Prop :=
  ∀ (is : List Instr) (s t : State), Inv s → s.cfg.mode = .core → is.all (fun i => !isReset i) = true →
    runOps is s = .next t → t.refusals = s.refusals →
    ∃ es ls, t.trace = s.trace ++ es ∧ t.incidents = s.incidents ++ ls ∧
      (lossless ls = true →
        s.held ++ is.flatMap deliveredBy = uartBytes es ++ t.held ∧
        s.pending.toList ++ groups4 (s.partialFrame ++ is.flatMap receivedBy) = usbFrames es ++ t.pending.toList)

/-- The single-frame overwrite hazard (70_reset R207, which the spec derives from R120, R146 and R147): where no frame is pending at the
start of an iteration and the endpoint is ready in every iteration, no completed frame is ever overwritten, whatever the other draws. -/
def Obligations.FramesKeptWhileEndpointReady : Prop :=
  ∀ (draws : List (List UsbEvent × Bool × Option Byte)) (s t : State), Inv s → s.cfg.mode = .core → s.phase = 0 →
    s.sfbReady = false → runOps (draws.flatMap fun d => iterOps d.1 d.2.1 d.2.2 true) s = .next t → t.refusals = s.refusals →
    ∃ ls, t.incidents = s.incidents ++ ls ∧ droppedFrames ls = [] ∧ t.sfbReady = false

/-! ## Whole-machine rules -/

/-- The invariant of 10_state R30, which the spec derives from its rules, is kept by every step from every state that meets it: at
most N bytes held, a legal phase, every byte that can be read written, flow control off where it is not built, `RB.wr` a multiple of 4 in
CORE mode, the storage in canonical form, no fault. -/
def Obligations.StepKeepsInvariant : Prop :=
  ∀ s t : State, Inv s → step s = .next t → Inv t

/-- The invariant holds after reset in every configuration that 00_scope R9 allows, the reference one among them. -/
def Obligations.InvariantAtReset : Prop :=
  Inv State.reset ∧ ∀ p : Params, p.Ok → Inv (State.resetWith p)

/-- No operation faults (60_exceptions R180, 70_reset R203): every operation gives a next state in every state (of a refused one that is
log 3, of one that raises a fault, in a state no run reaches, it is the model's choice, log 7), and from a state that meets the invariant
neither UnwrittenRead nor BadPhase is raised. -/
def Obligations.NoOperationFaults : Prop :=
  (∀ (i : Instr) (s : State), ∃ t, exec i s = .next t) ∧
  (∀ (i : Instr) (s t : State), Inv s → exec i s = .next t → t.faultMark = none) ∧
  (∀ (s : State) (r : Fault), Inv s → step s ≠ .fault r)

/-- The records only grow and the marks are never cleared, RESET included (10_state R31, R35, decisions D19, D20). That no operation
changes the parameters is the model's inference, log 1; that none changes the stream not yet decoded rests on where the model holds it,
log 2. -/
def Obligations.RecordsOnlyGrow : Prop :=
  ∀ (i : Instr) (s t : State), exec i s = .next t →
    s.trace <+: t.trace ∧ s.incidents <+: t.incidents ∧ s.refusals <+: t.refusals ∧
    (s.faultMark ≠ none → t.faultMark ≠ none) ∧ t.cfg = s.cfg ∧ t.stream = s.stream

/-- Unobservable state is irrelevant (70_reset R202, 10_state R36, which the spec derives): two states that differ only in where the cursors
stand, in stale storage, stale staging bytes or a frame no longer pending take the same steps, with the same trace, incidents and
refusals, forever. -/
def Obligations.UnobservableStateIrrelevant : Prop :=
  ∀ s s' : State, Inv s → Inv s' → ObsEq s s' →
    (∀ t, step s = .next t → ∃ t', step s' = .next t' ∧ ObsEq t t') ∧
    (∀ r, step s = .refused r → step s' = .refused r)

/-- Data bytes are carried unchanged and never examined (30_encoding R70): renaming every data byte of the operand and of the state renames
the data bytes of the result, of the trace and of the incidents, and changes nothing else. -/
def Obligations.DataNeverExamined : Prop :=
  ∀ (g : Byte → Byte) (i : Instr) (s : State), exec (mapInstr g i) (s.mapData g) = mapOutcome g (exec i s)

/-- Single writer, single reader (20_memory R60, 10_state R26, R31): in CORE mode, RESET aside, the storage is written by S_POLL only and the
frame by S_URX only, FC.dis is set by S_POLL only and cleared by S_FLOW only, and each output event comes from one operation: bytes to the
UART from S_UTX, frames over USB from S_USBTX, WdtKick from S_WDT, UsbPoll from S_POLL, UsbRxEnable from S_FLOW. -/
def Obligations.SingleWriterSingleReader : Prop :=
  ∀ (i : Instr) (s t : State), s.cfg.mode = .core → isReset i = false → exec i s = .next t →
    (t.rbMem ≠ s.rbMem → ∃ events, i = .sPoll events) ∧
    (∀ es, t.trace = s.trace ++ es → uartBytes es ≠ [] → i = .sUtx true) ∧
    (t.sfbFrame ≠ s.sfbFrame → ∃ b, i = .sUrx (some b)) ∧
    (∀ es, t.trace = s.trace ++ es → usbFrames es ≠ [] → i = .sUsbtx true) ∧
    (∀ es, t.trace = s.trace ++ es → .wdtKick ∈ es → i = .sWdt) ∧
    (∀ es, t.trace = s.trace ++ es → .usbPoll ∈ es → ∃ events, i = .sPoll events) ∧
    (∀ es, t.trace = s.trace ++ es → .usbRxEnable ∈ es → i = .sFlow) ∧
    (s.fcDis = false → t.fcDis = true → ∃ events, i = .sPoll events) ∧
    (s.fcDis = true → t.fcDis = false → i = .sFlow)

/-! ## Where a refused command ends, and when a frame is lost -/

/-- Where a command ends (30_encoding R72, R76, decision D14): the length of an accepted command is told by its bytes as the decoder reads
them. That of the commands the decoder refuses only those with reserved bits set can have a known end, so that a reserved opcode, an
unknown tag and a truncated command have none, is the model's inference, log 4, which R72 and R76 do not say; that the empty stream counts as truncated is its choice, log 2. -/
def Obligations.CommandEndIsWhereDecodingEnds : Prop :=
  (∀ (bs rest : List Byte) (i : Instr), decode bs = .ok (i, rest) → commandEnd bs = some rest) ∧
  (∀ (bs : List Byte) (v : Verdict), decode bs = .error v → v ≠ .reservedBits → commandEnd bs = none)

/-- After a command refused for its reserved bits (30_encoding R77), the next command starts at the byte after its operand bytes: a header
with set low bits before the operands of any operation that can be written, a flag byte with set reserved bits, and data without its flag.
That the length R72 and R76 give a command is that of a refused one too is the model's inference, log 4; that ReservedBits is given in
every mode and phase, where a harness verdict may apply as well, is its choice, log 5; that the refusal is a next state is log 3, its record
a list log 6. -/
def Obligations.DecodingGoesOnAfterReservedBits : Prop :=
  (∀ (s : State) (i : Instr) (low : BitVec 4) (rest : List Byte), s.faultMark = none → i.wellFormed = true → low ≠ 0 →
    s.stream = (i.opcode ++ low) :: (encodeOperands i ++ rest) →
    step s = .next { s with refusals := s.refusals ++ [.reservedBits], stream := rest }) ∧
  (∀ (s : State) (h g : Byte) (rest : List Byte), s.faultMark = none → (h = 0xA0 ∨ h = 0xD0 ∨ h = 0xE0) →
    g.extractLsb' 1 7 ≠ 0 → s.stream = h :: g :: rest →
    step s = .next { s with refusals := s.refusals ++ [.reservedBits], stream := rest }) ∧
  (∀ (s : State) (g d : Byte) (rest : List Byte), s.faultMark = none → (g.extractLsb' 1 7 ≠ 0 ∨ (g = 0x00 ∧ d ≠ 0x00)) →
    s.stream = 0xC0 :: g :: d :: rest →
    step s = .next { s with refusals := s.refusals ++ [.reservedBits], stream := rest })

/-- When a frame is lost (70_reset R207, which the spec derives from R120, R146 and R147): an iteration that overwrites a pending frame
receives the fourth byte of the next one, and the endpoint was not ready in any iteration since the lost frame was completed, that one
included; in between, just the three bytes before were received. The lost frame was completed in the first of those iterations, or was
pending before the run. -/
def Obligations.FrameLostOnlyWhileEndpointBusy : Prop :=
  ∀ (draws : List Draws) (last : Draws) (s t u : State) (f : Frame) (ls : List Incident), Inv s → s.cfg.mode = .core → s.phase = 0 →
    runOps (draws.flatMap Draws.ops) s = .next t → runOps last.ops t = .next u → u.refusals = s.refusals →
    u.incidents = t.incidents ++ ls → f ∈ droppedFrames ls →
    droppedFrames ls = [f] ∧ last.rx.isSome = true ∧
    ∃ before since m, draws = before ++ since ∧ runOps (before.flatMap Draws.ops) s = .next m ∧ (∀ d ∈ since, d.inReady = false) ∧
      ((before = [] ∧ s.pending = some f ∧ (s.partialFrame ++ receivedIn since).length = 3) ∨
       ∃ d rest b, since = d :: rest ∧ d.rx = some b ∧ f.bytes = m.partialFrame ++ [b] ∧ (receivedIn rest).length = 3)
end

