-- ==== Sys2Proof/Laws/Decode.lean ====
section
/-! SUPPORT. What the decoder's parts do: the header selects the operands, and each operand format reads back what its encoder
wrote. -/

namespace Sys2Proof

/-- The header of an operation selects its operand format. -/
theorem decode_header (i : Instr) (bs : List Byte) : decode (i.header :: bs) = decodeOperands i.opcode bs := by
  cases i with
  | rbPush b => show decode (0x10 :: bs) = decodeOperands 0x1 bs; rfl
  | rbPop => show decode (0x20 :: bs) = decodeOperands 0x2 bs; rfl
  | dmxPacket d => show decode (0x30 :: bs) = decodeOperands 0x3 bs; rfl
  | faFeed b => show decode (0x40 :: bs) = decodeOperands 0x4 bs; rfl
  | sfbStage f => show decode (0x50 :: bs) = decodeOperands 0x5 bs; rfl
  | sfbTake => show decode (0x60 :: bs) = decodeOperands 0x6 bs; rfl
  | sWdt => show decode (0x80 :: bs) = decodeOperands 0x8 bs; rfl
  | sPoll evs => show decode (0x90 :: bs) = decodeOperands 0x9 bs; rfl
  | sUtx g => show decode (0xA0 :: bs) = decodeOperands 0xA bs; rfl
  | sFlow => show decode (0xB0 :: bs) = decodeOperands 0xB bs; rfl
  | sUrx rx => show decode (0xC0 :: bs) = decodeOperands 0xC bs; rfl
  | sUsbtx g => show decode (0xD0 :: bs) = decodeOperands 0xD bs; rfl
  | reset c => show decode (0xE0 :: bs) = decodeOperands 0xE bs; rfl

/-- The header byte is the opcode and four zero bits (30_encoding R72). -/
theorem header_eq_opcode (i : Instr) : i.header = i.opcode ++ (0 : BitVec 4) := by
  cases i <;> simp only [Instr.header, Instr.opcode] <;> rfl

/-- A command begins with its header. -/
theorem head_encode (i : Instr) : (encode i).head? = some (i.opcode ++ (0 : BitVec 4)) :=
  congrArg some (header_eq_opcode i)

/-- No operation has a reserved opcode (30_encoding R73). -/
theorem opcode_not_reserved (i : Instr) : reservedOpcode i.opcode = false := by
  cases i <;> simp only [Instr.opcode] <;> rfl

theorem wellFormed_dmxPacket {data : List Byte} : (Instr.dmxPacket data).wellFormed = true ↔ data.length < 65536 := by
  simp [Instr.wellFormed, lengthEncodable]

theorem wellFormed_packet {data : List Byte} : (UsbEvent.packet data).wellFormed = true ↔ data.length < 65536 := by
  simp [UsbEvent.wellFormed, lengthEncodable]

theorem wellFormed_sPoll {events : List UsbEvent} : (Instr.sPoll events).wellFormed = true ↔
    events.length < 256 ∧ events.all UsbEvent.wellFormed = true := by
  simp [Instr.wellFormed, pollEncodable]

theorem takeBytes_append : ∀ data rest : List Byte, takeBytes data.length (data ++ rest) = some (data, rest)
  | [], _ => rfl
  | b :: data, rest => by simp [takeBytes, takeBytes_append data rest]

theorem takeBytes_short : ∀ {n : Nat} {bs : List Byte}, bs.length < n → takeBytes n bs = none
  | 0, _, h => by simp at h
  | _ + 1, [], _ => rfl
  | n + 1, b :: bs, h => by simp [takeBytes, takeBytes_short (n := n) (bs := bs) (by simpa using h)]

/-- The two length bytes hold a length below 65536 (30_encoding R74). -/
theorem length_bytes {n : Nat} (h : n < 65536) :
    (BitVec.ofNat 8 n).toNat + 256 * (BitVec.ofNat 8 (n / 256)).toNat = n := by
  simp
  omega

theorem decodePacket_encode {data : List Byte} (rest : List Byte) (h : data.length < 65536) :
    decodePacket (encodePacket data ++ rest) = .ok (data, rest) := by
  have e : decodePacket (encodePacket data ++ rest) = decodePacket (BitVec.ofNat 8 data.length ::
    BitVec.ofNat 8 (data.length / 256) :: (data ++ rest)) := rfl
  rw [e, decodePacket, length_bytes h, takeBytes_append]

theorem decodeEvent_encode {ev : UsbEvent} (rest : List Byte) (h : ev.wellFormed = true) :
    decodeEvent (encodeEvent ev ++ rest) = .ok (ev, rest) := by
  cases ev with
  | packet data =>
    have e : decodeEvent (encodeEvent (.packet data) ++ rest) =
      decodeEvent (0x01 :: (encodePacket data ++ rest)) := rfl
    rw [e, decodeEvent, if_pos rfl, decodePacket_encode rest (wellFormed_packet.mp h)]
  | flowDisable => rfl

theorem decodeEvents_encode : ∀ {events : List UsbEvent} (rest : List Byte), events.all UsbEvent.wellFormed = true →
    decodeEvents events.length (events.flatMap encodeEvent ++ rest) = .ok (events, rest)
  | [], _, _ => rfl
  | ev :: evs, rest, h => by
    simp only [List.all_cons, Bool.and_eq_true] at h
    rw [List.flatMap_cons, List.append_assoc, List.length_cons, decodeEvents, decodeEvent_encode _ h.1]
    simp only [decodeEvents_encode rest h.2]

/-- The operand bytes that the encoder writes end where the length of the command says (30_encoding R76). -/
theorem operandsEnd_encode {i : Instr} (rest : List Byte) (h : i.wellFormed = true) :
    operandsEnd i.opcode (encodeOperands i ++ rest) = some rest := by
  cases i with
  | dmxPacket data =>
    show (decodePacket (encodePacket data ++ rest)).toOption.map Prod.snd = some rest
    rw [decodePacket_encode rest (wellFormed_dmxPacket.mp h)]
    rfl
  | sPoll events =>
    obtain ⟨hn, hw⟩ := wellFormed_sPoll.mp h
    show (decodeEvents (BitVec.ofNat 8 events.length).toNat (events.flatMap encodeEvent ++ rest)).toOption.map Prod.snd = some rest
    rw [BitVec.toNat_ofNat, Nat.mod_eq_of_lt hn, decodeEvents_encode rest hw]
    rfl
  | sUrx rx => cases rx <;> rfl
  | reset cause => cases cause <;> rfl
  | _ => rfl

end Sys2Proof
end

