-- ==== Sys2Proof/Laws/State.lean ====
section
/-! SUPPORT. One lemma for each field of the state under each named update: what the update writes, and that it keeps the
rest. -/

namespace Sys2Proof.Machine

variable (s : State)

/-! ## memWrite -/

@[simp] theorem memWrite_cfg (i : Nat) (v : Byte) : (s.memWrite i v).cfg = s.cfg := rfl
@[simp] theorem memWrite_rbWr (i : Nat) (v : Byte) : (s.memWrite i v).rbWr = s.rbWr := rfl
@[simp] theorem memWrite_rbRd (i : Nat) (v : Byte) : (s.memWrite i v).rbRd = s.rbRd := rfl
@[simp] theorem memWrite_rbMem (i : Nat) (v : Byte) : (s.memWrite i v).rbMem = s.rbMem.write i v := rfl
@[simp] theorem memWrite_faCount (i : Nat) (v : Byte) : (s.memWrite i v).faCount = s.faCount := rfl
@[simp] theorem memWrite_faStage (i : Nat) (v : Byte) : (s.memWrite i v).faStage = s.faStage := rfl
@[simp] theorem memWrite_sfbFrame (i : Nat) (v : Byte) : (s.memWrite i v).sfbFrame = s.sfbFrame := rfl
@[simp] theorem memWrite_sfbReady (i : Nat) (v : Byte) : (s.memWrite i v).sfbReady = s.sfbReady := rfl
@[simp] theorem memWrite_fcDis (i : Nat) (v : Byte) : (s.memWrite i v).fcDis = s.fcDis := rfl
@[simp] theorem memWrite_phase (i : Nat) (v : Byte) : (s.memWrite i v).phase = s.phase := rfl
@[simp] theorem memWrite_stream (i : Nat) (v : Byte) : (s.memWrite i v).stream = s.stream := rfl
@[simp] theorem memWrite_trace (i : Nat) (v : Byte) : (s.memWrite i v).trace = s.trace := rfl
@[simp] theorem memWrite_incidents (i : Nat) (v : Byte) : (s.memWrite i v).incidents = s.incidents := rfl
@[simp] theorem memWrite_refusals (i : Nat) (v : Byte) : (s.memWrite i v).refusals = s.refusals := rfl
@[simp] theorem memWrite_faultMark (i : Nat) (v : Byte) : (s.memWrite i v).faultMark = s.faultMark := rfl

/-! ## emit -/

@[simp] theorem emit_cfg (e : Event) : (s.emit e).cfg = s.cfg := rfl
@[simp] theorem emit_rbWr (e : Event) : (s.emit e).rbWr = s.rbWr := rfl
@[simp] theorem emit_rbRd (e : Event) : (s.emit e).rbRd = s.rbRd := rfl
@[simp] theorem emit_rbMem (e : Event) : (s.emit e).rbMem = s.rbMem := rfl
@[simp] theorem emit_faCount (e : Event) : (s.emit e).faCount = s.faCount := rfl
@[simp] theorem emit_faStage (e : Event) : (s.emit e).faStage = s.faStage := rfl
@[simp] theorem emit_sfbFrame (e : Event) : (s.emit e).sfbFrame = s.sfbFrame := rfl
@[simp] theorem emit_sfbReady (e : Event) : (s.emit e).sfbReady = s.sfbReady := rfl
@[simp] theorem emit_fcDis (e : Event) : (s.emit e).fcDis = s.fcDis := rfl
@[simp] theorem emit_phase (e : Event) : (s.emit e).phase = s.phase := rfl
@[simp] theorem emit_stream (e : Event) : (s.emit e).stream = s.stream := rfl
@[simp] theorem emit_trace (e : Event) : (s.emit e).trace = s.trace ++ [e] := rfl
@[simp] theorem emit_incidents (e : Event) : (s.emit e).incidents = s.incidents := rfl
@[simp] theorem emit_refusals (e : Event) : (s.emit e).refusals = s.refusals := rfl
@[simp] theorem emit_faultMark (e : Event) : (s.emit e).faultMark = s.faultMark := rfl

/-! ## note -/

@[simp] theorem note_cfg (i : Incident) : (s.note i).cfg = s.cfg := rfl
@[simp] theorem note_rbWr (i : Incident) : (s.note i).rbWr = s.rbWr := rfl
@[simp] theorem note_rbRd (i : Incident) : (s.note i).rbRd = s.rbRd := rfl
@[simp] theorem note_rbMem (i : Incident) : (s.note i).rbMem = s.rbMem := rfl
@[simp] theorem note_faCount (i : Incident) : (s.note i).faCount = s.faCount := rfl
@[simp] theorem note_faStage (i : Incident) : (s.note i).faStage = s.faStage := rfl
@[simp] theorem note_sfbFrame (i : Incident) : (s.note i).sfbFrame = s.sfbFrame := rfl
@[simp] theorem note_sfbReady (i : Incident) : (s.note i).sfbReady = s.sfbReady := rfl
@[simp] theorem note_fcDis (i : Incident) : (s.note i).fcDis = s.fcDis := rfl
@[simp] theorem note_phase (i : Incident) : (s.note i).phase = s.phase := rfl
@[simp] theorem note_stream (i : Incident) : (s.note i).stream = s.stream := rfl
@[simp] theorem note_trace (i : Incident) : (s.note i).trace = s.trace := rfl
@[simp] theorem note_incidents (i : Incident) : (s.note i).incidents = s.incidents ++ [i] := rfl
@[simp] theorem note_refusals (i : Incident) : (s.note i).refusals = s.refusals := rfl
@[simp] theorem note_faultMark (i : Incident) : (s.note i).faultMark = s.faultMark := rfl

/-! ## refuse -/

@[simp] theorem refuse_cfg (v : Verdict) : (s.refuse v).cfg = s.cfg := rfl
@[simp] theorem refuse_rbWr (v : Verdict) : (s.refuse v).rbWr = s.rbWr := rfl
@[simp] theorem refuse_rbRd (v : Verdict) : (s.refuse v).rbRd = s.rbRd := rfl
@[simp] theorem refuse_rbMem (v : Verdict) : (s.refuse v).rbMem = s.rbMem := rfl
@[simp] theorem refuse_faCount (v : Verdict) : (s.refuse v).faCount = s.faCount := rfl
@[simp] theorem refuse_faStage (v : Verdict) : (s.refuse v).faStage = s.faStage := rfl
@[simp] theorem refuse_sfbFrame (v : Verdict) : (s.refuse v).sfbFrame = s.sfbFrame := rfl
@[simp] theorem refuse_sfbReady (v : Verdict) : (s.refuse v).sfbReady = s.sfbReady := rfl
@[simp] theorem refuse_fcDis (v : Verdict) : (s.refuse v).fcDis = s.fcDis := rfl
@[simp] theorem refuse_phase (v : Verdict) : (s.refuse v).phase = s.phase := rfl
@[simp] theorem refuse_stream (v : Verdict) : (s.refuse v).stream = s.stream := rfl
@[simp] theorem refuse_trace (v : Verdict) : (s.refuse v).trace = s.trace := rfl
@[simp] theorem refuse_incidents (v : Verdict) : (s.refuse v).incidents = s.incidents := rfl
@[simp] theorem refuse_refusals (v : Verdict) : (s.refuse v).refusals = s.refusals ++ [v] := rfl
@[simp] theorem refuse_faultMark (v : Verdict) : (s.refuse v).faultMark = s.faultMark := rfl

/-! ## raise -/

@[simp] theorem raise_cfg (r : Fault) : (s.raise r).cfg = s.cfg := rfl
@[simp] theorem raise_rbWr (r : Fault) : (s.raise r).rbWr = s.rbWr := rfl
@[simp] theorem raise_rbRd (r : Fault) : (s.raise r).rbRd = s.rbRd := rfl
@[simp] theorem raise_rbMem (r : Fault) : (s.raise r).rbMem = s.rbMem := rfl
@[simp] theorem raise_faCount (r : Fault) : (s.raise r).faCount = s.faCount := rfl
@[simp] theorem raise_faStage (r : Fault) : (s.raise r).faStage = s.faStage := rfl
@[simp] theorem raise_sfbFrame (r : Fault) : (s.raise r).sfbFrame = s.sfbFrame := rfl
@[simp] theorem raise_sfbReady (r : Fault) : (s.raise r).sfbReady = s.sfbReady := rfl
@[simp] theorem raise_fcDis (r : Fault) : (s.raise r).fcDis = s.fcDis := rfl
@[simp] theorem raise_phase (r : Fault) : (s.raise r).phase = s.phase := rfl
@[simp] theorem raise_stream (r : Fault) : (s.raise r).stream = s.stream := rfl
@[simp] theorem raise_trace (r : Fault) : (s.raise r).trace = s.trace := rfl
@[simp] theorem raise_incidents (r : Fault) : (s.raise r).incidents = s.incidents := rfl
@[simp] theorem raise_refusals (r : Fault) : (s.raise r).refusals = s.refusals := rfl
@[simp] theorem raise_faultMark (r : Fault) : (s.raise r).faultMark = some r := rfl

/-! ## setPhase -/

@[simp] theorem setPhase_cfg (p : BitVec 3) : (s.setPhase p).cfg = s.cfg := rfl
@[simp] theorem setPhase_rbWr (p : BitVec 3) : (s.setPhase p).rbWr = s.rbWr := rfl
@[simp] theorem setPhase_rbRd (p : BitVec 3) : (s.setPhase p).rbRd = s.rbRd := rfl
@[simp] theorem setPhase_rbMem (p : BitVec 3) : (s.setPhase p).rbMem = s.rbMem := rfl
@[simp] theorem setPhase_faCount (p : BitVec 3) : (s.setPhase p).faCount = s.faCount := rfl
@[simp] theorem setPhase_faStage (p : BitVec 3) : (s.setPhase p).faStage = s.faStage := rfl
@[simp] theorem setPhase_sfbFrame (p : BitVec 3) : (s.setPhase p).sfbFrame = s.sfbFrame := rfl
@[simp] theorem setPhase_sfbReady (p : BitVec 3) : (s.setPhase p).sfbReady = s.sfbReady := rfl
@[simp] theorem setPhase_fcDis (p : BitVec 3) : (s.setPhase p).fcDis = s.fcDis := rfl
@[simp] theorem setPhase_phase (p : BitVec 3) : (s.setPhase p).phase = p := rfl
@[simp] theorem setPhase_stream (p : BitVec 3) : (s.setPhase p).stream = s.stream := rfl
@[simp] theorem setPhase_trace (p : BitVec 3) : (s.setPhase p).trace = s.trace := rfl
@[simp] theorem setPhase_incidents (p : BitVec 3) : (s.setPhase p).incidents = s.incidents := rfl
@[simp] theorem setPhase_refusals (p : BitVec 3) : (s.setPhase p).refusals = s.refusals := rfl
@[simp] theorem setPhase_faultMark (p : BitVec 3) : (s.setPhase p).faultMark = s.faultMark := rfl

/-! ## append -/

@[simp] theorem append_cfg (b : Byte) : (s.append b).cfg = s.cfg := rfl
@[simp] theorem append_rbWr (b : Byte) : (s.append b).rbWr = s.advance s.rbWr := rfl
@[simp] theorem append_rbRd (b : Byte) : (s.append b).rbRd = s.rbRd := rfl
@[simp] theorem append_rbMem (b : Byte) : (s.append b).rbMem = s.rbMem.write (s.idx s.rbWr) b := rfl
@[simp] theorem append_faCount (b : Byte) : (s.append b).faCount = s.faCount := rfl
@[simp] theorem append_faStage (b : Byte) : (s.append b).faStage = s.faStage := rfl
@[simp] theorem append_sfbFrame (b : Byte) : (s.append b).sfbFrame = s.sfbFrame := rfl
@[simp] theorem append_sfbReady (b : Byte) : (s.append b).sfbReady = s.sfbReady := rfl
@[simp] theorem append_fcDis (b : Byte) : (s.append b).fcDis = s.fcDis := rfl
@[simp] theorem append_phase (b : Byte) : (s.append b).phase = s.phase := rfl
@[simp] theorem append_stream (b : Byte) : (s.append b).stream = s.stream := rfl
@[simp] theorem append_trace (b : Byte) : (s.append b).trace = s.trace := rfl
@[simp] theorem append_incidents (b : Byte) : (s.append b).incidents = s.incidents := rfl
@[simp] theorem append_refusals (b : Byte) : (s.append b).refusals = s.refusals := rfl
@[simp] theorem append_faultMark (b : Byte) : (s.append b).faultMark = s.faultMark := rfl

/-! ## resetElements -/

@[simp] theorem resetElements_cfg : s.resetElements.cfg = s.cfg := rfl
@[simp] theorem resetElements_rbWr : s.resetElements.rbWr = 0 := rfl
@[simp] theorem resetElements_rbRd : s.resetElements.rbRd = 0 := rfl
@[simp] theorem resetElements_rbMem : s.resetElements.rbMem = [] := rfl
@[simp] theorem resetElements_faCount : s.resetElements.faCount = 0 := rfl
@[simp] theorem resetElements_faStage : s.resetElements.faStage = Slots.unwritten := rfl
@[simp] theorem resetElements_sfbFrame : s.resetElements.sfbFrame = Slots.unwritten := rfl
@[simp] theorem resetElements_sfbReady : s.resetElements.sfbReady = false := rfl
@[simp] theorem resetElements_fcDis : s.resetElements.fcDis = false := rfl
@[simp] theorem resetElements_phase : s.resetElements.phase = 0 := rfl
@[simp] theorem resetElements_stream : s.resetElements.stream = s.stream := rfl
@[simp] theorem resetElements_trace : s.resetElements.trace = s.trace := rfl
@[simp] theorem resetElements_incidents : s.resetElements.incidents = s.incidents := rfl
@[simp] theorem resetElements_refusals : s.resetElements.refusals = s.refusals := rfl
@[simp] theorem resetElements_faultMark : s.resetElements.faultMark = s.faultMark := rfl

/-! ## refuseStream -/

@[simp] theorem refuseStream_cfg (v : Verdict) : (s.refuseStream v).cfg = s.cfg := rfl
@[simp] theorem refuseStream_rbWr (v : Verdict) : (s.refuseStream v).rbWr = s.rbWr := rfl
@[simp] theorem refuseStream_rbRd (v : Verdict) : (s.refuseStream v).rbRd = s.rbRd := rfl
@[simp] theorem refuseStream_rbMem (v : Verdict) : (s.refuseStream v).rbMem = s.rbMem := rfl
@[simp] theorem refuseStream_faCount (v : Verdict) : (s.refuseStream v).faCount = s.faCount := rfl
@[simp] theorem refuseStream_faStage (v : Verdict) : (s.refuseStream v).faStage = s.faStage := rfl
@[simp] theorem refuseStream_sfbFrame (v : Verdict) : (s.refuseStream v).sfbFrame = s.sfbFrame := rfl
@[simp] theorem refuseStream_sfbReady (v : Verdict) : (s.refuseStream v).sfbReady = s.sfbReady := rfl
@[simp] theorem refuseStream_fcDis (v : Verdict) : (s.refuseStream v).fcDis = s.fcDis := rfl
@[simp] theorem refuseStream_phase (v : Verdict) : (s.refuseStream v).phase = s.phase := rfl
@[simp] theorem refuseStream_stream (v : Verdict) : (s.refuseStream v).stream = (commandEnd s.stream).getD [] := rfl
@[simp] theorem refuseStream_trace (v : Verdict) : (s.refuseStream v).trace = s.trace := rfl
@[simp] theorem refuseStream_incidents (v : Verdict) : (s.refuseStream v).incidents = s.incidents := rfl
@[simp] theorem refuseStream_refusals (v : Verdict) : (s.refuseStream v).refusals = s.refusals ++ [v] := rfl
@[simp] theorem refuseStream_faultMark (v : Verdict) : (s.refuseStream v).faultMark = s.faultMark := rfl

/-! ## Views of the state that depend on some fields only -/

theorem cap_congr {s t : State} (h : s.cfg = t.cfg) : s.cap = t.cap := by
  simp only [State.cap, h]

theorem occ_congr {s t : State} (hc : s.cfg = t.cfg) (hw : s.rbWr = t.rbWr) (hr : s.rbRd = t.rbRd) : s.occ = t.occ := by
  simp only [State.occ, State.cap, hc, hw, hr]

theorem held_congr {s t : State} (hc : s.cfg = t.cfg) (hw : s.rbWr = t.rbWr) (hr : s.rbRd = t.rbRd)
    (hm : s.rbMem = t.rbMem) : s.held = t.held := by
  simp only [State.held, State.occ, State.memRead, State.idx, State.cap, hc, hw, hr, hm]

theorem pending_congr {s t : State} (hr : s.sfbReady = t.sfbReady) (hf : s.sfbFrame = t.sfbFrame) :
    s.pending = t.pending := by
  simp only [State.pending, hr, hf]

theorem partialFrame_congr {s t : State} (hc : s.faCount = t.faCount) (hs : s.faStage = t.faStage) :
    s.partialFrame = t.partialFrame := by
  simp only [State.partialFrame, hc, hs]

theorem RingOk.congr {s t : State} (h : RingOk s) (hc : s.cfg = t.cfg) (hw : s.rbWr = t.rbWr) (hr : s.rbRd = t.rbRd)
    (hm : s.rbMem = t.rbMem) : RingOk t := by
  obtain ⟨h1, h2, h3, h4, h5⟩ := h
  simp only [State.occ, State.memRead, State.idx, State.cap, hc, hw, hr, hm] at h1 h2 h3 h4 h5
  exact ⟨h1, h2, h3, h4, h5⟩

theorem FrameOk.congr {s t : State} (h : FrameOk s) (hc : s.faCount = t.faCount) (hs : s.faStage = t.faStage)
    (hr : s.sfbReady = t.sfbReady) (hf : s.sfbFrame = t.sfbFrame) : FrameOk t := by
  obtain ⟨h1, h2⟩ := h
  rw [hc, hs] at h1
  rw [hr, hf] at h2
  exact ⟨h1, h2⟩

end Sys2Proof.Machine
end

