-- ==== Sys2Proof/Laws/Frame.lean ====
section
/-! SUPPORT. What the serial-to-USB side's shared operations do, in terms of the pending frame and of the bytes of the frame being
assembled: staging, taking, feeding. Each keeps FrameOk and names every field it writes. -/

namespace Sys2Proof.Machine

/-! ## Slots -/

theorem bitVec2_cases : ∀ c : BitVec 2, c = 0 ∨ c = 1 ∨ c = 2 ∨ c = 3 := by decide

@[simp] theorem readAll_ofFrame (f : Frame) : (Slots.ofFrame f).readAll = .ok f := rfl

theorem get_set_same (x : Slots) (i : BitVec 2) (v : Byte) : (x.set i v).get i = some v := by
  rcases bitVec2_cases i with rfl | rfl | rfl | rfl <;> rfl

theorem get_set_other (x : Slots) {i j : BitVec 2} (h : j ≠ i) (v : Byte) : (x.set i v).get j = x.get j := by
  rcases bitVec2_cases i with rfl | rfl | rfl | rfl <;> rcases bitVec2_cases j with rfl | rfl | rfl | rfl <;>
    first | rfl | exact absurd rfl h

/-- The four slots as one frame, if each is written. -/
theorem readAll_of_written {x : Slots} (h : ∀ i : BitVec 2, (x.get i).isSome = true) : ∃ f, x.readAll = .ok f ∧
    x = Slots.ofFrame f := by
  obtain ⟨s0, s1, s2, s3⟩ := x
  have h0 := h 0
  have h1 := h 1
  have h2 := h 2
  have h3 := h 3
  simp only [Slots.get] at h0 h1 h2 h3
  obtain ⟨a, rfl⟩ := Option.isSome_iff_exists.mp h0
  obtain ⟨b, rfl⟩ := Option.isSome_iff_exists.mp h1
  obtain ⟨c, rfl⟩ := Option.isSome_iff_exists.mp h2
  obtain ⟨d, rfl⟩ := Option.isSome_iff_exists.mp h3
  exact ⟨⟨a, b, c, d⟩, rfl, rfl⟩

/-- What a staging, a take or a feed leaves unchanged. -/
structure SameOutsideFrame (s t : State) : Prop where
  cfg : t.cfg = s.cfg
  rbWr : t.rbWr = s.rbWr
  rbRd : t.rbRd = s.rbRd
  rbMem : t.rbMem = s.rbMem
  fcDis : t.fcDis = s.fcDis
  phase : t.phase = s.phase
  stream : t.stream = s.stream
  trace : t.trace = s.trace
  refusals : t.refusals = s.refusals
  faultMark : t.faultMark = s.faultMark

theorem SameOutsideFrame.ring {s t : State} (h : SameOutsideFrame s t) (hok : RingOk s) : RingOk t :=
  hok.congr h.cfg.symm h.rbWr.symm h.rbRd.symm h.rbMem.symm

theorem SameOutsideFrame.held {s t : State} (h : SameOutsideFrame s t) : t.held = s.held :=
  held_congr h.cfg h.rbWr h.rbRd h.rbMem

/-! ## The pending frame -/

theorem FrameOk.pending_of_ready {s : State} (h : FrameOk s) (hr : s.sfbReady = true) :
    ∃ f, s.sfbFrame.readAll = .ok f ∧ s.pending = some f := by
  have := h.frameWritten hr
  cases hx : s.sfbFrame.readAll with
  | error r => simp [hx, Except.toOption] at this
  | ok f => exact ⟨f, rfl, by simp [State.pending, hr, hx, Except.toOption]⟩

theorem pending_of_not_ready {s : State} (hr : s.sfbReady = false) : s.pending = none := by
  simp [State.pending, hr]

theorem FrameOk.pending_isSome {s : State} (h : FrameOk s) : s.pending.isSome = s.sfbReady := by
  cases hr : s.sfbReady with
  | false => simp [pending_of_not_ready hr]
  | true =>
    obtain ⟨f, -, hp⟩ := h.pending_of_ready hr
    simp [hp]

/-- SFB_STAGE in one statement. -/
theorem stage_spec {s : State} (h : FrameOk s) (f : Frame) :
    ∃ t, s.stage f = .ok t ∧ FrameOk t ∧ SameOutsideFrame s t ∧ t.faCount = s.faCount ∧ t.faStage = s.faStage ∧
      t.sfbFrame = Slots.ofFrame f ∧ t.sfbReady = true ∧ t.pending = some f ∧
      t.incidents = s.incidents ++ s.pending.toList.map .sfbOverwrite := by
  cases hr : s.sfbReady with
  | false =>
    refine ⟨{ s with sfbFrame := Slots.ofFrame f, sfbReady := true }, by simp [State.stage, hr],
      ⟨h.stageWritten, fun _ => rfl⟩, ⟨rfl, rfl, rfl, rfl, rfl, rfl, rfl, rfl, rfl, rfl⟩, rfl, rfl, rfl, rfl, rfl, ?_⟩
    simp [pending_of_not_ready hr]
  | true =>
    obtain ⟨old, ho, hp⟩ := h.pending_of_ready hr
    refine ⟨{ s.note (.sfbOverwrite old) with sfbFrame := Slots.ofFrame f, sfbReady := true }, by simp [State.stage, hr, ho],
      ⟨h.stageWritten, fun _ => rfl⟩, ⟨rfl, rfl, rfl, rfl, rfl, rfl, rfl, rfl, rfl, rfl⟩, rfl, rfl, rfl, rfl, rfl, ?_⟩
    simp [hp]

/-- SFB_TAKE in one statement. -/
theorem take_spec {s : State} (h : FrameOk s) :
    ∃ t, s.take = .ok (s.pending, t) ∧ FrameOk t ∧ SameOutsideFrame s t ∧ t.faCount = s.faCount ∧ t.faStage = s.faStage ∧
      t.sfbFrame = s.sfbFrame ∧ t.sfbReady = false ∧ t.pending = none ∧ t.incidents = s.incidents := by
  cases hr : s.sfbReady with
  | false =>
    exact ⟨s, by simp [State.take, hr, pending_of_not_ready hr], h, ⟨rfl, rfl, rfl, rfl, rfl, rfl, rfl, rfl, rfl, rfl⟩, rfl, rfl,
      rfl, hr, pending_of_not_ready hr, rfl⟩
  | true =>
    obtain ⟨f, hf, hp⟩ := h.pending_of_ready hr
    exact ⟨{ s with sfbReady := false }, by simp [State.take, hr, hf, hp], ⟨h.stageWritten, by simp⟩,
      ⟨rfl, rfl, rfl, rfl, rfl, rfl, rfl, rfl, rfl, rfl⟩, rfl, rfl, rfl, rfl, rfl, rfl⟩

/-! ## The frame being assembled -/

theorem partial_of_count (s : State) :
    (s.faCount = 0 ∧ s.partialFrame = []) ∨
    (s.faCount = 1 ∧ s.partialFrame = [s.faStage.get 0].filterMap id) ∨
    (s.faCount = 2 ∧ s.partialFrame = [s.faStage.get 0, s.faStage.get 1].filterMap id) ∨
    (s.faCount = 3 ∧ s.partialFrame = [s.faStage.get 0, s.faStage.get 1, s.faStage.get 2].filterMap id) := by
  unfold State.partialFrame
  rcases bitVec2_cases s.faCount with hc | hc | hc | hc <;> rw [hc] <;> simp <;> rfl

theorem FrameOk.partial_length {s : State} (h : FrameOk s) : s.partialFrame.length = s.faCount.toNat := by
  have hw := h.stageWritten
  rcases partial_of_count s with ⟨hc, hp⟩ | ⟨hc, hp⟩ | ⟨hc, hp⟩ | ⟨hc, hp⟩ <;> rw [hp, hc] <;> rw [hc] at hw
  · rfl
  · obtain ⟨a, ha⟩ := Option.isSome_iff_exists.mp (hw 0 (by decide))
    rw [ha]
    rfl
  · obtain ⟨a, ha⟩ := Option.isSome_iff_exists.mp (hw 0 (by decide))
    obtain ⟨b, hb⟩ := Option.isSome_iff_exists.mp (hw 1 (by decide))
    rw [ha, hb]
    rfl
  · obtain ⟨a, ha⟩ := Option.isSome_iff_exists.mp (hw 0 (by decide))
    obtain ⟨b, hb⟩ := Option.isSome_iff_exists.mp (hw 1 (by decide))
    obtain ⟨c, hc'⟩ := Option.isSome_iff_exists.mp (hw 2 (by decide))
    rw [ha, hb, hc']
    rfl

/-- A feed that does not complete a frame. -/
theorem feed_partial {s : State} (h : FrameOk s) (hc : s.faCount ≠ 3) (b : Byte) :
    ∃ t, s.feed b = .ok (false, t) ∧ FrameOk t ∧ SameOutsideFrame s t ∧ t.faCount = s.faCount + 1 ∧
      t.faStage = s.faStage.set s.faCount b ∧ t.sfbFrame = s.sfbFrame ∧ t.sfbReady = s.sfbReady ∧ t.pending = s.pending ∧
      t.partialFrame = s.partialFrame ++ [b] ∧ t.incidents = s.incidents := by
  refine ⟨{ s with faStage := s.faStage.set s.faCount b, faCount := s.faCount + 1 }, if_neg hc, ⟨?_, h.frameWritten⟩,
    ⟨rfl, rfl, rfl, rfl, rfl, rfl, rfl, rfl, rfl, rfl⟩, rfl, rfl, rfl, rfl, rfl, ?_, rfl⟩
  · intro i hi
    by_cases hic : i = s.faCount
    · subst hic
      simp [get_set_same]
    · simp only [get_set_other _ hic]
      refine h.stageWritten i ?_
      simp only at hi
      have h1 : i.toNat ≠ s.faCount.toNat := fun he => hic (BitVec.eq_of_toNat_eq he)
      rcases bitVec2_cases s.faCount with hs | hs | hs | hs
      all_goals rw [hs] at hi h1 ⊢
      all_goals first | exact absurd hs hc | (simp at hi h1 ⊢; omega)
  · rcases partial_of_count s with ⟨hs, hp⟩ | ⟨hs, hp⟩ | ⟨hs, hp⟩ | ⟨hs, -⟩
    · rw [hp, hs]
      rfl
    · rw [hp, hs]
      show [s.faStage.s0, some b].filterMap id = _
      rw [show [s.faStage.s0, some b] = [s.faStage.get 0] ++ [some b] from rfl, List.filterMap_append]
      rfl
    · rw [hp, hs]
      show [s.faStage.s0, s.faStage.s1, some b].filterMap id = _
      rw [show [s.faStage.s0, s.faStage.s1, some b] = [s.faStage.get 0, s.faStage.get 1] ++ [some b] from rfl,
        List.filterMap_append]
      rfl
    · exact absurd hs hc

/-- The feed that completes a frame. -/
theorem feed_complete {s : State} (h : FrameOk s) (hc : s.faCount = 3) (b : Byte) :
    ∃ t f, s.feed b = .ok (true, t) ∧ f.bytes = s.partialFrame ++ [b] ∧ FrameOk t ∧ SameOutsideFrame s t ∧ t.faCount = 0 ∧
      t.faStage = s.faStage.set s.faCount b ∧ t.sfbFrame = Slots.ofFrame f ∧ t.sfbReady = true ∧ t.pending = some f ∧
      t.partialFrame = [] ∧ t.incidents = s.incidents ++ s.pending.toList.map .sfbOverwrite := by
  have hw : ∀ i : BitVec 2, ((s.faStage.set s.faCount b).get i).isSome = true := fun i => by
    by_cases hi : i = s.faCount
    · rw [hi, get_set_same]
      rfl
    · rw [get_set_other _ hi]
      refine h.stageWritten i ?_
      rw [hc] at hi ⊢
      rcases bitVec2_cases i with rfl | rfl | rfl | rfl <;> first | decide | exact absurd rfl hi
  obtain ⟨f, hf, hx⟩ := readAll_of_written hw
  have hok : FrameOk { s with faStage := s.faStage.set s.faCount b } := ⟨fun i _ => hw i, h.frameWritten⟩
  obtain ⟨t, ht, htok, hsame, hcount, hstage, hframe, hready, hpend, hinc⟩ := stage_spec hok f
  refine ⟨{ t with faCount := 0 }, f, ?_, ?_, ⟨fun i hi => ?_, htok.frameWritten⟩,
    ⟨hsame.cfg, hsame.rbWr, hsame.rbRd, hsame.rbMem, hsame.fcDis, hsame.phase, hsame.stream, hsame.trace, hsame.refusals,
      hsame.faultMark⟩, rfl, hstage, hframe, hready, hpend, rfl, hinc⟩
  · unfold State.feed
    simp only [if_pos hc, hf, ht]
  · have h0 : s.faStage.get 0 = some f.f0 := by
      rw [← get_set_other s.faStage (i := s.faCount) (j := 0) (by rw [hc]; decide) b, hx]; rfl
    have h1 : s.faStage.get 1 = some f.f1 := by
      rw [← get_set_other s.faStage (i := s.faCount) (j := 1) (by rw [hc]; decide) b, hx]; rfl
    have h2 : s.faStage.get 2 = some f.f2 := by
      rw [← get_set_other s.faStage (i := s.faCount) (j := 2) (by rw [hc]; decide) b, hx]; rfl
    have h3 : b = f.f3 := by
      have := get_set_same s.faStage s.faCount b
      rw [hx, hc] at this
      exact (Option.some.inj this).symm
    rcases partial_of_count s with ⟨hs, -⟩ | ⟨hs, -⟩ | ⟨hs, -⟩ | ⟨-, hp⟩
    iterate 3 exact absurd (hc.symm.trans hs) (by decide)
    rw [hp, h0, h1, h2, h3]
    rfl
  · simp at hi

end Sys2Proof.Machine
end

