-- ==== Sys2Proof/Laws/Memory.lean ====
section
/-! SUPPORT. The laws of the ring storage as data: a read after a write, and that a write keeps the canonical form. -/

namespace Sys2Proof.Machine

theorem wfFrom_mono {lo lo' hi : Nat} (hle : lo' ≤ lo) :
    ∀ {m : Memory}, Memory.wfFrom lo hi m = true → Memory.wfFrom lo' hi m = true
  | [], _ => rfl
  | (a, b) :: m, h => by
    simp only [Memory.wfFrom, Bool.and_eq_true, decide_eq_true_eq] at h ⊢
    exact ⟨⟨by omega, h.1.2⟩, h.2⟩

/-- An index below every listed one is unwritten. -/
theorem read_below {lo hi i : Nat} (hi' : i < lo) :
    ∀ {m : Memory}, Memory.wfFrom lo hi m = true → m.read i = none
  | [], _ => rfl
  | (a, b) :: m, h => by
    simp only [Memory.wfFrom, Bool.and_eq_true, decide_eq_true_eq] at h
    have hne : a ≠ i := by omega
    simp only [Memory.read, hne, if_false]
    exact read_below (by omega) h.2

theorem read_write_same {v : Byte} {i : Nat} : ∀ m : Memory, (m.write i v).read i = some v
  | [] => by simp [Memory.write, Memory.read]
  | (a, b) :: m => by
    unfold Memory.write
    split
    · simp [Memory.read]
    · split
      · simp [Memory.read]
      · rename_i hne
        have : a ≠ i := fun h => hne h.symm
        simp only [Memory.read, this, if_false]
        exact read_write_same m

theorem read_write_other {v : Byte} {i j : Nat} (hne : j ≠ i) : ∀ m : Memory, (m.write i v).read j = m.read j
  | [] => by simp [Memory.write, Memory.read, hne.symm]
  | (a, b) :: m => by
    unfold Memory.write
    split
    · simp [Memory.read, hne.symm]
    · split
      · rename_i h
        subst h
        simp [Memory.read, hne.symm]
      · simp only [Memory.read]
        split
        · rfl
        · exact read_write_other hne m

/-- A write inside the storage keeps the canonical form. -/
theorem write_wfFrom {v : Byte} {i hi : Nat} (hhi : i < hi) :
    ∀ {lo : Nat} {m : Memory}, lo ≤ i → Memory.wfFrom lo hi m = true → Memory.wfFrom lo hi (m.write i v) = true
  | lo, [], hlo, _ => by simp [Memory.write, Memory.wfFrom, hlo, hhi]
  | lo, (a, b) :: m, hlo, h => by
    simp only [Memory.wfFrom, Bool.and_eq_true, decide_eq_true_eq] at h
    unfold Memory.write
    split
    · simp only [Memory.wfFrom, Bool.and_eq_true, decide_eq_true_eq]
      exact ⟨⟨hlo, hhi⟩, ⟨by omega, h.1.2⟩, h.2⟩
    · split
      · rename_i h'
        subst h'
        simp only [Memory.wfFrom, Bool.and_eq_true, decide_eq_true_eq]
        exact h
      · simp only [Memory.wfFrom, Bool.and_eq_true, decide_eq_true_eq]
        exact ⟨h.1, write_wfFrom hhi (by omega) h.2⟩

theorem write_wf {v : Byte} {i n : Nat} {m : Memory} (hi : i < n) (h : Memory.wf n m = true) :
    Memory.wf n (m.write i v) = true :=
  write_wfFrom hi (Nat.zero_le i) h

/-- The storage after reset is in canonical form, in every configuration, and so is the storage that RESET leaves. -/
theorem reset_wf (p : Params) (s : State) : Memory.wf (State.resetWith p).cap (State.resetWith p).rbMem = true ∧
    Memory.wf s.resetElements.cap s.resetElements.rbMem = true := ⟨rfl, rfl⟩

/-- In canonical form, equal reads are equal memories: a storage is its bytes. -/
theorem memory_ext {hi : Nat} : ∀ {lo : Nat} {m m' : Memory}, Memory.wfFrom lo hi m = true → Memory.wfFrom lo hi m' = true →
    (∀ i, m.read i = m'.read i) → m = m'
  | _, [], [], _, _, _ => rfl
  | _, [], (a, b) :: m', _, _, h => by simpa [Memory.read] using h a
  | _, (a, b) :: m, [], _, _, h => by simpa [Memory.read] using h a
  | lo, (a, b) :: m, (a', b') :: m', hm, hm', h => by
    simp only [Memory.wfFrom, Bool.and_eq_true, decide_eq_true_eq] at hm hm'
    have haa : a = a' := by
      have h1 := h a
      have h2 := h a'
      rcases Nat.lt_trichotomy a a' with hlt | heq | hlt
      · have hne : a' ≠ a := by omega
        have hb := read_below (m := m') (i := a) (lo := a' + 1) (by omega) hm'.2
        simp [Memory.read, hne, hb] at h1
      · exact heq
      · have hne : a ≠ a' := by omega
        have hb := read_below (m := m) (i := a') (lo := a + 1) (by omega) hm.2
        simp [Memory.read, hne, hb] at h2
    subst haa
    have hbb : b = b' := by simpa [Memory.read] using h a
    subst hbb
    have htail : m = m' := by
      refine memory_ext (lo := a + 1) hm.2 hm'.2 fun i => ?_
      by_cases hi : a = i
      · subst hi
        rw [read_below (by omega) hm.2, read_below (by omega) hm'.2]
      · have := h i
        simpa [Memory.read, hi] using this
    rw [htail]

end Sys2Proof.Machine
end

