-- ==== Sys2Proof/Laws/Ring.lean ====
section
/-! SUPPORT. What the ring buffer's shared operations do, in terms of the bytes held: dropping the oldest, appending, pushing
one and many, popping. Each keeps RingOk and names every field it writes. -/

namespace Sys2Proof.Machine

/-! ## Cursor arithmetic -/

theorem cap_pos (s : State) : 0 < s.cap := Nat.two_pow_pos _

theorem advance_cases {s : State} {c : Nat} (h : c < 2 * s.cap) :
    (c + 1 = 2 * s.cap ∧ s.advance c = 0) ∨ (c + 1 < 2 * s.cap ∧ s.advance c = c + 1) := by
  unfold State.advance
  rcases Nat.lt_or_ge (c + 1) (2 * s.cap) with hlt | hge
  · exact .inr ⟨hlt, Nat.mod_eq_of_lt hlt⟩
  · have : c + 1 = 2 * s.cap := by omega
    exact .inl ⟨this, by rw [this, Nat.mod_self]⟩

theorem advance_lt (s : State) (c : Nat) : s.advance c < 2 * s.cap :=
  Nat.mod_lt _ (by have := cap_pos s; omega)

theorem occ_cases {s : State} (hw : s.rbWr < 2 * s.cap) (hr : s.rbRd < 2 * s.cap) :
    (s.rbRd ≤ s.rbWr ∧ s.occ + s.rbRd = s.rbWr) ∨ (s.rbWr < s.rbRd ∧ s.occ + s.rbRd = s.rbWr + 2 * s.cap) := by
  unfold State.occ
  rcases Nat.lt_or_ge s.rbWr s.rbRd with hlt | hge
  · right
    rw [Nat.mod_eq_of_lt (by omega)]
    omega
  · left
    have : s.rbWr + 2 * s.cap - s.rbRd = (s.rbWr - s.rbRd) + 2 * s.cap := by omega
    rw [this, Nat.add_mod_right, Nat.mod_eq_of_lt (by omega)]
    omega

theorem occ_eq_zero_iff {s : State} (hw : s.rbWr < 2 * s.cap) (hr : s.rbRd < 2 * s.cap) :
    s.occ = 0 ↔ s.rbWr = s.rbRd := by
  have := occ_cases hw hr
  omega

theorem idx_lt (s : State) (c : Nat) : s.idx c < s.cap := Nat.mod_lt _ (cap_pos s)

/-- The wrap of a cursor at 2N does not change the slots after it. -/
theorem idx_advance_add (s : State) (c k : Nat) : s.idx (s.advance c + k) = s.idx (c + (k + 1)) := by
  have hd : s.cap ∣ 2 * s.cap := Nat.dvd_mul_left _ _
  unfold State.idx State.advance
  rw [Nat.add_mod, Nat.mod_mod_of_dvd _ hd, ← Nat.add_mod]
  congr 1
  omega

/-- The slot the next push writes is the one after the bytes held. -/
theorem idx_wr {s : State} (hw : s.rbWr < 2 * s.cap) (hr : s.rbRd < 2 * s.cap) :
    s.idx s.rbWr = s.idx (s.rbRd + s.occ) := by
  unfold State.idx
  rcases occ_cases hw hr with ⟨-, h⟩ | ⟨-, h⟩
  · rw [Nat.add_comm, h]
  · rw [Nat.add_comm, h, Nat.mul_comm, Nat.add_mul_mod_self_left]

/-- Slots at different distances below N from a cursor are different. -/
theorem idx_add_inj {s : State} {c j k : Nat} (hj : j < s.cap) (hk : k < s.cap)
    (h : s.idx (c + j) = s.idx (c + k)) : j = k := by
  have : j ≡ k [MOD s.cap] := Nat.ModEq.add_left_cancel' c h
  exact Nat.ModEq.eq_of_lt_of_lt this hj hk

/-! ## The bytes held -/

theorem filterMap_range_last {α : Type} (f : Nat → Option α) (n : Nat) :
    (List.range (n + 1)).filterMap f = (List.range n).filterMap f ++ (f n).toList := by
  rw [List.range_succ, List.filterMap_append]
  cases h : f n <;> simp [h]

theorem filterMap_range_first {α : Type} (f : Nat → Option α) (n : Nat) :
    (List.range (n + 1)).filterMap f = (f 0).toList ++ (List.range n).filterMap fun k => f (k + 1) := by
  rw [List.range_succ_eq_map, List.filterMap_cons, List.filterMap_map]
  cases h : f 0 <;> rfl

theorem length_filterMap_range {α : Type} {f : Nat → Option α} :
    ∀ {n : Nat}, (∀ k, k < n → (f k).isSome = true) → ((List.range n).filterMap f).length = n
  | 0, _ => rfl
  | n + 1, h => by
    rw [filterMap_range_last, List.length_append, length_filterMap_range fun k hk => h k (by omega)]
    obtain ⟨x, hx⟩ := Option.isSome_iff_exists.mp (h n (by omega))
    simp [hx]

theorem filterMap_range_congr {α : Type} {f g : Nat → Option α} {n : Nat} (h : ∀ k, k < n → f k = g k) :
    (List.range n).filterMap f = (List.range n).filterMap g :=
  List.filterMap_congr fun k hk => h k (List.mem_range.mp hk)

/-- The bytes held are as many as `occ` counts. -/
theorem RingOk.held_length {s : State} (h : RingOk s) : s.held.length = s.occ :=
  length_filterMap_range h.heldWritten

theorem RingOk.held_eq_nil_iff {s : State} (h : RingOk s) : s.held = [] ↔ s.rbWr = s.rbRd := by
  rw [← List.length_eq_zero_iff, h.held_length, occ_eq_zero_iff h.wrRange h.rdRange]

theorem held_eq_nil_of_occ {s : State} (h : s.occ = 0) : s.held = [] := by
  simp [State.held, h]

/-- The oldest byte stands at `idx(RB.rd)`. -/
theorem RingOk.oldest {s : State} (h : RingOk s) (hne : s.rbWr ≠ s.rbRd) :
    ∃ b, s.memRead (s.idx s.rbRd) = some b ∧ s.held = b :: s.held.tail := by
  have hpos : s.occ ≠ 0 := fun h0 => hne ((occ_eq_zero_iff h.wrRange h.rdRange).mp h0)
  obtain ⟨n, hn⟩ := Nat.exists_eq_succ_of_ne_zero hpos
  obtain ⟨b, hb⟩ := Option.isSome_iff_exists.mp (h.heldWritten 0 (by omega))
  refine ⟨b, by simpa using hb, ?_⟩
  have : s.held = [b] ++ (List.range n).filterMap fun k => s.memRead (s.idx (s.rbRd + (k + 1))) := by
    unfold State.held
    rw [hn, filterMap_range_first, hb]
    rfl
  rw [this]
  rfl

/-! ## Advancing the read cursor -/

/-- The state with its read cursor past the oldest byte. -/
def State.skip (s : State) : State := { s with rbRd := s.advance s.rbRd }

theorem skip_occ {s : State} (h : RingOk s) (hne : s.rbWr ≠ s.rbRd) : s.skip.occ + 1 = s.occ := by
  have hlt := advance_lt s s.rbRd
  have h0 := occ_cases h.wrRange h.rdRange
  have h1 := occ_cases (s := s.skip) h.wrRange hlt
  have h2 := advance_cases h.rdRange
  have hw := h.wrRange
  have e1 : s.skip.cap = s.cap := rfl
  have e2 : s.skip.rbWr = s.rbWr := rfl
  have e3 : s.skip.rbRd = s.advance s.rbRd := rfl
  have h5 := h.occLe
  rw [e1, e2, e3] at h1
  rcases h2 with ⟨a, b⟩ | ⟨a, b⟩ <;> rw [b] at h1 <;> omega

theorem skip_held {s : State} (h : RingOk s) (hne : s.rbWr ≠ s.rbRd) : s.skip.held = s.held.tail := by
  obtain ⟨b, hb, hh⟩ := h.oldest hne
  have hocc := skip_occ h hne
  have : s.held = [b] ++ s.skip.held := by
    unfold State.held
    rw [← hocc, filterMap_range_first]
    congr 1
    · simp [hb]
    · refine filterMap_range_congr fun k _ => ?_
      show s.memRead (s.idx _) = s.memRead (s.idx (s.advance s.rbRd + k))
      rw [idx_advance_add]
  rw [this]
  rfl

theorem skip_ok {s : State} (h : RingOk s) (hne : s.rbWr ≠ s.rbRd) : RingOk s.skip where
  wrRange := h.wrRange
  rdRange := advance_lt s s.rbRd
  memForm := h.memForm
  occLe := by
    have := skip_occ h hne
    have := h.occLe
    show s.skip.occ ≤ s.cap
    omega
  heldWritten := fun k hk => by
    have hocc := skip_occ h hne
    have := h.heldWritten (k + 1) (by omega)
    show (s.memRead (s.idx (s.advance s.rbRd + k))).isSome = true
    rw [idx_advance_add]
    exact this

/-! ## Appending a byte where there is room -/

theorem append_occ {s : State} (h : RingOk s) (hroom : s.occ < s.cap) (b : Byte) : (s.append b).occ = s.occ + 1 := by
  have hlt := advance_lt s s.rbWr
  have h0 := occ_cases h.wrRange h.rdRange
  have h1 := occ_cases (s := s.append b) hlt h.rdRange
  have h2 := advance_cases h.wrRange
  have hr := h.rdRange
  have e1 : (s.append b).cap = s.cap := rfl
  have hp := cap_pos s
  rw [e1, append_rbWr, append_rbRd] at h1
  rcases h2 with ⟨a, c⟩ | ⟨a, c⟩ <;> rw [c] at h1 <;> omega

/-- A slot that holds an unread byte is not the slot an append writes. -/
theorem append_read {s : State} (h : RingOk s) (hroom : s.occ < s.cap) (b : Byte) {k : Nat} (hk : k < s.occ) :
    (s.append b).memRead (s.idx (s.rbRd + k)) = s.memRead (s.idx (s.rbRd + k)) := by
  refine read_write_other (fun he => ?_) _
  rw [idx_wr h.wrRange h.rdRange] at he
  have := idx_add_inj (by omega) hroom he
  omega

theorem append_held {s : State} (h : RingOk s) (hroom : s.occ < s.cap) (b : Byte) :
    (s.append b).held = s.held ++ [b] := by
  unfold State.held
  rw [append_occ h hroom, filterMap_range_last]
  congr 1
  · exact filterMap_range_congr fun k hk => append_read h hroom b hk
  · have : (s.append b).memRead ((s.append b).idx ((s.append b).rbRd + s.occ)) = some b := by
      show (s.rbMem.write (s.idx s.rbWr) b).read (s.idx (s.rbRd + s.occ)) = some b
      rw [← idx_wr h.wrRange h.rdRange]
      exact read_write_same _
    rw [this]
    rfl

theorem append_ok {s : State} (h : RingOk s) (hroom : s.occ < s.cap) (b : Byte) : RingOk (s.append b) where
  wrRange := advance_lt s s.rbWr
  rdRange := h.rdRange
  memForm := write_wf (idx_lt s _) h.memForm
  occLe := by
    rw [append_occ h hroom]
    exact hroom
  heldWritten := fun k hk => by
    rw [append_occ h hroom] at hk
    rcases Nat.lt_or_ge k s.occ with hlt | hge
    · have := append_read h hroom b hlt
      show ((s.append b).memRead (s.idx (s.rbRd + k))).isSome = true
      rw [this]
      exact h.heldWritten k hlt
    · have : k = s.occ := by omega
      subst this
      show ((s.rbMem.write (s.idx s.rbWr) b).read (s.idx (s.rbRd + s.occ))).isSome = true
      rw [← idx_wr h.wrRange h.rdRange, read_write_same]
      rfl

/-! ## RB_PUSH and RB_POP -/

theorem full_ne {s : State} (h : RingOk s) (hfull : s.occ = s.cap) : s.rbWr ≠ s.rbRd := fun he => by
  have := (occ_eq_zero_iff h.wrRange h.rdRange).mpr he
  have := cap_pos s
  omega

/-- A push into a buffer with room appends. -/
theorem push_room {s : State} (hroom : s.occ < s.cap) (b : Byte) : s.push b = .ok (s.append b) := by
  have : s.occ ≠ s.cap := by omega
  simp [State.push, State.dropOldest, this]

/-- A push into a full buffer drops the oldest byte, records it, and appends. -/
theorem push_full {s : State} (h : RingOk s) (hfull : s.occ = s.cap) (b : Byte) :
    ∃ d, s.memRead (s.idx s.rbRd) = some d ∧ s.held = d :: s.held.tail ∧
      s.push b = .ok ((s.skip.note (.rbOverwrite d)).append b) := by
  obtain ⟨d, hd, hh⟩ := h.oldest (full_ne h hfull)
  exact ⟨d, hd, hh, by simp [State.push, State.dropOldest, hfull, hd]; rfl⟩

/-- What a push changes outside the ring: nothing but the incident log. -/
structure SameOutsideRing (s t : State) : Prop where
  cfg : t.cfg = s.cfg
  faCount : t.faCount = s.faCount
  faStage : t.faStage = s.faStage
  sfbFrame : t.sfbFrame = s.sfbFrame
  sfbReady : t.sfbReady = s.sfbReady
  phase : t.phase = s.phase
  stream : t.stream = s.stream
  trace : t.trace = s.trace
  refusals : t.refusals = s.refusals
  faultMark : t.faultMark = s.faultMark

theorem SameOutsideRing.refl (s : State) : SameOutsideRing s s := ⟨rfl, rfl, rfl, rfl, rfl, rfl, rfl, rfl, rfl, rfl⟩

theorem SameOutsideRing.trans {s t u : State} (h : SameOutsideRing s t) (k : SameOutsideRing t u) :
    SameOutsideRing s u :=
  ⟨k.cfg.trans h.cfg, k.faCount.trans h.faCount, k.faStage.trans h.faStage, k.sfbFrame.trans h.sfbFrame,
    k.sfbReady.trans h.sfbReady, k.phase.trans h.phase, k.stream.trans h.stream, k.trace.trans h.trace,
    k.refusals.trans h.refusals, k.faultMark.trans h.faultMark⟩

theorem SameOutsideRing.cap {s t : State} (h : SameOutsideRing s t) : t.cap = s.cap := cap_congr h.cfg

/-- RB_PUSH in one statement: it succeeds, the buffer holds the last N bytes of what it held and the new byte, and the byte it
loses, if any, is recorded. -/
theorem push_spec {s : State} (h : RingOk s) (b : Byte) :
    ∃ t, s.push b = .ok t ∧ RingOk t ∧ SameOutsideRing s t ∧ t.fcDis = s.fcDis ∧
      t.held = keepLast s.cap (s.held ++ [b]) ∧
      t.incidents = s.incidents ++ (lose s.cap (s.held ++ [b])).map .rbOverwrite ∧
      t.rbWr = s.advance s.rbWr ∧ t.rbMem = s.rbMem.write (s.idx s.rbWr) b := by
  have hlen := h.held_length
  rcases Nat.lt_or_ge s.occ s.cap with hroom | hge
  · refine ⟨_, push_room hroom b, append_ok h hroom b, ⟨rfl, rfl, rfl, rfl, rfl, rfl, rfl, rfl, rfl, rfl⟩, rfl, ?_, ?_, rfl, rfl⟩
    · rw [append_held h hroom, keepLast]
      have : (s.held ++ [b]).length - s.cap = 0 := by simp; omega
      rw [this, List.drop_zero]
    · have : (s.held ++ [b]).length - s.cap = 0 := by simp; omega
      rw [lose, this, List.take_zero, List.map_nil, List.append_nil]
      rfl
  · have hfull : s.occ = s.cap := by have := h.occLe; omega
    have hne := full_ne h hfull
    obtain ⟨d, hd, hh, hp⟩ := push_full h hfull b
    have hsk : RingOk (s.skip.note (.rbOverwrite d)) := (skip_ok h hne).congr rfl rfl rfl rfl
    have hocc : (s.skip.note (.rbOverwrite d)).occ + 1 = s.occ := skip_occ h hne
    have hroom : (s.skip.note (.rbOverwrite d)).occ < (s.skip.note (.rbOverwrite d)).cap := by
      show _ < s.cap
      omega
    have hheld : (s.skip.note (.rbOverwrite d)).held = s.held.tail := skip_held h hne
    have hex : (s.held ++ [b]).length - s.cap = 1 := by simp; omega
    refine ⟨_, hp, append_ok hsk hroom b, ⟨rfl, rfl, rfl, rfl, rfl, rfl, rfl, rfl, rfl, rfl⟩, rfl, ?_, ?_, rfl, rfl⟩
    · rw [append_held hsk hroom, hheld, keepLast, hex, hh]
      rfl
    · rw [lose, hex, hh]
      rfl

/-- RB_POP in one statement: the oldest byte or nothing, and the rest is held. -/
theorem pop_spec {s : State} (h : RingOk s) :
    ∃ t, s.pop = .ok (s.held.head?, t) ∧ RingOk t ∧ SameOutsideRing s t ∧ t.fcDis = s.fcDis ∧ t.held = s.held.tail ∧
      t.incidents = s.incidents ∧ t.rbWr = s.rbWr ∧ t.rbMem = s.rbMem := by
  by_cases he : s.rbWr = s.rbRd
  · have hn := h.held_eq_nil_iff.mpr he
    exact ⟨s, by simp [State.pop, he, hn], h, .refl s, rfl, by simp [hn], rfl, rfl, rfl⟩
  · obtain ⟨b, hb, hh⟩ := h.oldest he
    refine ⟨s.skip, ?_, skip_ok h he, ⟨rfl, rfl, rfl, rfl, rfl, rfl, rfl, rfl, rfl, rfl⟩, rfl, skip_held h he, rfl, rfl, rfl⟩
    rw [hh]
    simp [State.pop, he, hb]
    rfl

/-! ## Pushing a sequence -/

theorem keepLast_append (n : Nat) (l r : List Byte) : keepLast n (keepLast n l ++ r) = keepLast n (l ++ r) := by
  unfold keepLast
  rw [List.length_append, List.length_append, List.length_drop]
  rcases Nat.le_total l.length n with hle | hle
  · have : l.length - n = 0 := by omega
    simp [this]
  · have h1 : l.length - (l.length - n) + r.length - n = r.length := by omega
    have h2 : l.length + r.length - n = (l.length - n) + r.length := by omega
    rw [h1, h2, ← List.drop_drop, List.drop_append_of_le_length (l₁ := l) (Nat.sub_le _ _)]

theorem lose_append (n : Nat) (l r : List Byte) : lose n l ++ lose n (keepLast n l ++ r) = lose n (l ++ r) := by
  unfold lose keepLast
  rw [List.length_append, List.length_append, List.length_drop]
  rcases Nat.le_total l.length n with hle | hle
  · have : l.length - n = 0 := by omega
    simp [this]
  · have h1 : l.length - (l.length - n) + r.length - n = r.length := by omega
    have h2 : l.length + r.length - n = (l.length - n) + r.length := by omega
    rw [h1, h2, List.take_add, List.drop_append_of_le_length (l₁ := l) (Nat.sub_le _ _),
      List.take_append_of_le_length (l₁ := l) (Nat.sub_le _ _)]

theorem keepLast_of_le {n : Nat} {l : List Byte} (h : l.length ≤ n) : keepLast n l = l := by
  simp [keepLast, Nat.sub_eq_zero_of_le h]

theorem lose_of_le {n : Nat} {l : List Byte} (h : l.length ≤ n) : lose n l = [] := by
  simp [lose, Nat.sub_eq_zero_of_le h]

/-- What is lost and what is kept are the whole sequence. -/
theorem lose_append_keepLast (n : Nat) (l : List Byte) : lose n l ++ keepLast n l = l := List.take_append_drop _ _

theorem RingOk.held_length_le {s : State} (h : RingOk s) : s.held.length ≤ s.cap := h.held_length ▸ h.occLe

/-- Pushing a sequence in one statement. -/
theorem pushAll_spec (bs : List Byte) : ∀ {s : State}, RingOk s →
    ∃ t, s.pushAll bs = .ok t ∧ RingOk t ∧ SameOutsideRing s t ∧ t.fcDis = s.fcDis ∧
      t.held = keepLast s.cap (s.held ++ bs) ∧
      t.incidents = s.incidents ++ (lose s.cap (s.held ++ bs)).map .rbOverwrite ∧
      t.rbWr = (s.rbWr + bs.length) % (2 * s.cap) ∧
      (∀ a, (∀ k, k < bs.length → a ≠ s.idx (s.rbWr + k)) → t.memRead a = s.memRead a) := by
  induction bs with
  | nil =>
    intro s h
    have hl := h.held_length_le
    exact ⟨s, rfl, h, .refl s, rfl, by simp [keepLast_of_le hl], by simp [lose_of_le hl],
      by simp [Nat.mod_eq_of_lt h.wrRange], fun _ _ => rfl⟩
  | cons b bs ih =>
    intro s h
    obtain ⟨t, ht, hok, hsame, hfc, hheld, hinc, hwr, hmem⟩ := push_spec h b
    obtain ⟨u, hu, huok, husame, hufc, huheld, huinc, huwr, humem⟩ := ih hok
    have hcap : t.cap = s.cap := hsame.cap
    have hidx : ∀ c, t.idx c = s.idx c := fun c => by simp only [State.idx, hcap]
    have hsplit : s.held ++ b :: bs = (s.held ++ [b]) ++ bs := by simp
    refine ⟨u, by simp [State.pushAll, ht, hu], huok, hsame.trans husame, hufc.trans hfc, ?_, ?_, ?_, ?_⟩
    · rw [huheld, hcap, hheld, keepLast_append, hsplit]
    · rw [huinc, hinc, hcap, hheld, List.append_assoc, ← List.map_append, lose_append, hsplit]
    · rw [huwr, hwr, hcap]
      unfold State.advance
      rw [Nat.mod_add_mod]
      congr 1
      simp only [List.length_cons]
      omega
    · intro a ha
      have h0 : a ≠ s.idx s.rbWr := by simpa using ha 0 (by simp)
      rw [humem a fun k hk => ?_]
      · show t.rbMem.read a = s.rbMem.read a
        rw [hmem]
        exact read_write_other h0 _
      · rw [hidx, hwr, idx_advance_add]
        exact ha (k + 1) (by simp; omega)

end Sys2Proof.Machine
end

