-- ==== Sys2Proof/Laws/Scheduler.lean ====
section
/-! SUPPORT. What the demultiplexer and the delivery of a poll's events do, in one statement each, and how an operation is
admitted. -/

namespace Sys2Proof.Machine

/-! ## Demultiplexing and delivering -/

/-- DMX_PACKET in one statement. -/
theorem demux_spec (data : List Byte) {s : State} (h : RingOk s) :
    ∃ t, s.demux data = .ok t ∧ RingOk t ∧ SameOutsideRing s t ∧ t.fcDis = s.fcDis ∧
      t.held = keepLast s.cap (s.held ++ groupBytes data) ∧
      t.incidents = s.incidents ++ eventIncidents s.cap s.held (.packet data) ∧
      t.rbWr = (s.rbWr + (groupBytes data).length) % (2 * s.cap) ∧
      (∀ a, (∀ k, k < (groupBytes data).length → a ≠ s.idx (s.rbWr + k)) → t.memRead a = s.memRead a) := by
  obtain ⟨t, ht, hok, hsame, hfc, hheld, hinc, hwr, hmem⟩ := pushAll_spec (groupBytes data) h
  by_cases hf : fragment data = 0
  · exact ⟨t, by simp [State.demux, ht, hf], hok, hsame, hfc, hheld, by simp [hinc, eventIncidents, hf], hwr, hmem⟩
  · refine ⟨t.note (.pktTrunc (fragment data)), by simp [State.demux, ht, hf], hok.congr rfl rfl rfl rfl,
      ⟨hsame.cfg, hsame.faCount, hsame.faStage, hsame.sfbFrame, hsame.sfbReady, hsame.phase, hsame.stream, hsame.trace,
        hsame.refusals, hsame.faultMark⟩, hfc, hheld, ?_, hwr, hmem⟩
    simp [hinc, eventIncidents, hf]

/-- The number of bytes the groups of a transfer hold (41_demux R111). -/
theorem groupBytes_length (data : List Byte) : (groupBytes data).length = 4 * (data.length / 4) := by
  unfold groupBytes
  rw [List.length_take]
  omega

/-- Whether an event of a poll disables request acceptance. -/
def isFlowDisable : UsbEvent → Bool
  | .packet _ => false
  | .flowDisable => true

/-- Delivering a poll's events in one statement. -/
theorem deliverAll_spec (evs : List UsbEvent) : ∀ {s : State}, RingOk s →
    ∃ t, s.deliverAll evs = .ok t ∧ RingOk t ∧ SameOutsideRing s t ∧ t.fcDis = (s.fcDis || evs.any isFlowDisable) ∧
      t.held = keepLast s.cap (s.held ++ evs.flatMap eventBytes) ∧
      t.incidents = s.incidents ++ pollIncidents s.cap s.held evs ∧
      t.rbWr = (s.rbWr + (evs.flatMap eventBytes).length) % (2 * s.cap) ∧
      (∀ a, (∀ k, k < (evs.flatMap eventBytes).length → a ≠ s.idx (s.rbWr + k)) → t.memRead a = s.memRead a) := by
  induction evs with
  | nil =>
    intro s h
    exact ⟨s, rfl, h, .refl s, by simp, by simp [keepLast_of_le h.held_length_le], by simp [pollIncidents],
      by simp [Nat.mod_eq_of_lt h.wrRange], fun _ _ => rfl⟩
  | cons ev evs ih =>
    intro s h
    have key : ∃ t, s.deliver ev = .ok t ∧ RingOk t ∧ SameOutsideRing s t ∧ t.fcDis = (s.fcDis || isFlowDisable ev) ∧
        t.held = keepLast s.cap (s.held ++ eventBytes ev) ∧
        t.incidents = s.incidents ++ eventIncidents s.cap s.held ev ∧
        t.rbWr = (s.rbWr + (eventBytes ev).length) % (2 * s.cap) ∧
        (∀ a, (∀ k, k < (eventBytes ev).length → a ≠ s.idx (s.rbWr + k)) → t.memRead a = s.memRead a) := by
      cases ev with
      | packet data =>
        obtain ⟨t, h1, h2, h3, h4, h5⟩ := demux_spec data h
        exact ⟨t, h1, h2, h3, by simp [h4, isFlowDisable], h5⟩
      | flowDisable =>
        exact ⟨{ s with fcDis := true }, rfl, h.congr rfl rfl rfl rfl, ⟨rfl, rfl, rfl, rfl, rfl, rfl, rfl, rfl, rfl, rfl⟩,
          by simp [isFlowDisable], by simp [eventBytes, keepLast_of_le h.held_length_le]; exact held_congr rfl rfl rfl rfl,
          by simp [eventIncidents], by simp [eventBytes, Nat.mod_eq_of_lt h.wrRange], fun _ _ => rfl⟩
    obtain ⟨t, ht, hok, hsame, hfc, hheld, hinc, hwr, hmem⟩ := key
    obtain ⟨u, hu, huok, husame, hufc, huheld, huinc, huwr, humem⟩ := ih hok
    have hcap : t.cap = s.cap := hsame.cap
    have hd : s.cap ∣ 2 * s.cap := Nat.dvd_mul_left _ _
    refine ⟨u, by simp [State.deliverAll, ht, hu], huok, hsame.trans husame, ?_, ?_, ?_, ?_, ?_⟩
    · rw [hufc, hfc, List.any_cons, Bool.or_assoc]
    · rw [huheld, hcap, hheld, keepLast_append, List.flatMap_cons, List.append_assoc]
    · rw [huinc, hinc, hcap, hheld, List.append_assoc]
      rfl
    · rw [huwr, hwr, hcap, Nat.mod_add_mod, List.flatMap_cons, List.length_append, Nat.add_assoc]
    · intro a ha
      rw [List.flatMap_cons, List.length_append] at ha
      rw [humem a fun k hk => ?_, hmem a fun k hk => ha k (by omega)]
      have := ha ((eventBytes ev).length + k) (by omega)
      unfold State.idx at this ⊢
      rw [hcap, hwr, Nat.add_mod, Nat.mod_mod_of_dvd _ hd, ← Nat.add_mod, Nat.add_assoc]
      exact this

/-! ## Admission -/

theorem asUnit_of_unit {s : State} (h : s.cfg.mode = .unit) (body : Except Fault State) : s.asUnit body = s.settle body := by
  simp [State.asUnit, h]

theorem asUnit_of_core {s : State} (h : s.cfg.mode = .core) (body : Except Fault State) :
    s.asUnit body = .next (s.refuse .wrongMode) := by
  simp [State.asUnit, h]

theorem asPhase_of_phase {s : State} {p : BitVec 3} (h : s.cfg.mode = .core) (hp : s.phase = p) (hle : p.toNat ≤ 5)
    (body : Except Fault State) : s.asPhase p body = s.settle body := by
  have : ¬ 5 < p.toNat := by omega
  simp [State.asPhase, h, hp, this]

theorem asPhase_of_other {s : State} {p : BitVec 3} (h : s.cfg.mode = .core) (hp : s.phase ≠ p) (hle : s.phase.toNat ≤ 5)
    (body : Except Fault State) : s.asPhase p body = .next (s.refuse .wrongPhase) := by
  have : ¬ 5 < s.phase.toNat := by omega
  simp [State.asPhase, h, hp, this]

theorem asPhase_of_unit {s : State} {p : BitVec 3} (h : s.cfg.mode = .unit) (body : Except Fault State) :
    s.asPhase p body = .next (s.refuse .wrongMode) := by
  simp [State.asPhase, h]

@[simp] theorem settle_ok (s t : State) : s.settle (.ok t) = .next t := rfl

@[simp] theorem settle_error (s : State) (r : Fault) : s.settle (.error r) = .next (s.raise r) := rfl

end Sys2Proof.Machine
end

