-- ==== Sys2Proof/Laws/Exec.lean ====
section
/-! SUPPORT. Inversion lemmas, in every state: what an operation that gave a next state can have done. An admitted operation either
ends in what its body computed or raises the body's fault; every other outcome is a refusal that performs nothing. -/

namespace Sys2Proof.Machine

/-- How a component operation can end. -/
theorem asUnit_cases {s t : State} {body : Except Fault State} (h : s.asUnit body = .next t) :
    t = s.refuse .wrongMode ∨ (s.cfg.mode = .unit ∧ ((∃ r, t = s.raise r) ∨ body = .ok t)) := by
  cases hm : s.cfg.mode with
  | core =>
    rw [asUnit_of_core hm] at h
    exact .inl (Host.Outcome.next.inj h).symm
  | unit =>
    rw [asUnit_of_unit hm] at h
    cases body with
    | ok u => exact .inr ⟨rfl, .inr (congrArg _ (Host.Outcome.next.inj h))⟩
    | error r => exact .inr ⟨rfl, .inl ⟨r, (Host.Outcome.next.inj h).symm⟩⟩

/-- How a scheduler operation can end. -/
theorem asPhase_cases {s t : State} {p : BitVec 3} {body : Except Fault State} (h : s.asPhase p body = .next t) :
    t = s.refuse .wrongMode ∨ t = s.refuse .wrongPhase ∨ (s.cfg.mode = .core ∧ ∃ r, t = s.raise r) ∨
      (s.cfg.mode = .core ∧ s.phase = p ∧ body = .ok t) := by
  unfold State.asPhase at h
  split at h
  · rename_i hm
    split at h
    · exact .inr (.inr (.inl ⟨hm, _, (Host.Outcome.next.inj h).symm⟩))
    · split at h
      · rename_i hp
        cases body with
        | ok u => exact .inr (.inr (.inr ⟨hm, hp, congrArg _ (Host.Outcome.next.inj h)⟩))
        | error r => exact .inr (.inr (.inl ⟨hm, _, (Host.Outcome.next.inj h).symm⟩))
      · exact .inr (.inl (Host.Outcome.next.inj h).symm)
  · exact .inl (Host.Outcome.next.inj h).symm

/-- Every admitted or refused component operation gives a next state. -/
theorem asUnit_next (s : State) (body : Except Fault State) : ∃ t, s.asUnit body = .next t := by
  unfold State.asUnit
  split
  · cases body <;> exact ⟨_, rfl⟩
  · exact ⟨_, rfl⟩

/-- Every admitted or refused scheduler operation gives a next state. -/
theorem asPhase_next (s : State) (p : BitVec 3) (body : Except Fault State) : ∃ t, s.asPhase p body = .next t := by
  unfold State.asPhase
  split
  · split
    · exact ⟨_, rfl⟩
    · split
      · cases body <;> exact ⟨_, rfl⟩
      · exact ⟨_, rfl⟩
  · exact ⟨_, rfl⟩

/-! ## The shared operations, in every state -/

theorem push_inv {s t : State} {b : Byte} (h : s.push b = .ok t) :
    SameOutsideRing s t ∧ t.fcDis = s.fcDis ∧ s.incidents <+: t.incidents ∧ t.rbWr = s.advance s.rbWr ∧
      t.rbMem = s.rbMem.write (s.idx s.rbWr) b := by
  unfold State.push State.dropOldest at h
  split at h
  · rename_i u hu
    obtain rfl := Except.ok.inj h
    split at hu
    · split at hu
      · obtain rfl := Except.ok.inj hu
        exact ⟨⟨rfl, rfl, rfl, rfl, rfl, rfl, rfl, rfl, rfl, rfl⟩, rfl, List.prefix_append _ _, rfl, rfl⟩
      · cases hu
    · obtain rfl := Except.ok.inj hu
      exact ⟨⟨rfl, rfl, rfl, rfl, rfl, rfl, rfl, rfl, rfl, rfl⟩, rfl, List.prefix_rfl, rfl, rfl⟩
  · cases h

theorem pushAll_inv : ∀ {bs : List Byte} {s t : State}, s.pushAll bs = .ok t →
    SameOutsideRing s t ∧ t.fcDis = s.fcDis ∧ s.incidents <+: t.incidents ∧ (bs = [] → t = s) ∧
      s.idx t.rbWr = s.idx (s.rbWr + bs.length) ∧
      ∀ a, (∀ k, k < bs.length → a ≠ s.idx (s.rbWr + k)) → t.memRead a = s.memRead a
  | [], s, t, h => by
    obtain rfl := Except.ok.inj h
    exact ⟨.refl s, rfl, List.prefix_rfl, fun _ => rfl, rfl, fun _ _ => rfl⟩
  | b :: bs, s, t, h => by
    unfold State.pushAll at h
    split at h
    · rename_i u hu
      obtain ⟨h1, h2, h3, hw, hm⟩ := push_inv hu
      obtain ⟨k1, k2, k3, -, kw, km⟩ := pushAll_inv h
      have hidx : ∀ c, u.idx c = s.idx c := fun c => by simp only [State.idx, h1.cap]
      refine ⟨h1.trans k1, k2.trans h2, h3.trans k3, fun hn => absurd hn (by simp), ?_, fun a ha => ?_⟩
      · rw [← hidx, kw, hidx, hw, idx_advance_add, List.length_cons]
      · have h0 : a ≠ s.idx s.rbWr := by simpa using ha 0 (by simp)
        rw [km a fun k hk => ?_]
        · show u.rbMem.read a = s.rbMem.read a
          rw [hm]
          exact read_write_other h0 _
        · rw [hidx, hw, idx_advance_add]
          exact ha (k + 1) (by simp; omega)
    · cases h

theorem pop_inv {s t : State} {r : Option Byte} (h : s.pop = .ok (r, t)) : t = s ∧ r = none ∧ s.rbWr = s.rbRd ∨
    (s.rbWr ≠ s.rbRd ∧ t = s.skip ∧ ∃ b, r = some b ∧ s.memRead (s.idx s.rbRd) = some b) := by
  unfold State.pop at h
  split at h
  · rename_i he
    obtain ⟨rfl, rfl⟩ := Prod.mk.inj (Except.ok.inj h)
    exact .inl ⟨rfl, rfl, he⟩
  · rename_i hne
    split at h
    · rename_i b hb
      obtain ⟨rfl, rfl⟩ := Prod.mk.inj (Except.ok.inj h)
      exact .inr ⟨hne, rfl, b, rfl, hb⟩
    · cases h

theorem demux_inv {data : List Byte} {s t : State} (h : s.demux data = .ok t) :
    SameOutsideRing s t ∧ t.fcDis = s.fcDis ∧ s.incidents <+: t.incidents ∧ (groupBytes data = [] → t.rbRd = s.rbRd ∧
      t.rbWr = s.rbWr ∧ t.rbMem = s.rbMem) ∧
      s.idx t.rbWr = s.idx (s.rbWr + (groupBytes data).length) ∧
      ∀ a, (∀ k, k < (groupBytes data).length → a ≠ s.idx (s.rbWr + k)) → t.memRead a = s.memRead a := by
  unfold State.demux at h
  split at h
  · rename_i u hu
    obtain rfl := Except.ok.inj h
    obtain ⟨h1, h2, h3, h4, h5, h6⟩ := pushAll_inv hu
    split
    · exact ⟨h1, h2, h3, fun hn => by rw [h4 hn]; exact ⟨rfl, rfl, rfl⟩, h5, h6⟩
    · exact ⟨⟨h1.cfg, h1.faCount, h1.faStage, h1.sfbFrame, h1.sfbReady, h1.phase, h1.stream, h1.trace, h1.refusals,
        h1.faultMark⟩, h2, h3.trans (List.prefix_append _ _), fun hn => by rw [h4 hn]; exact ⟨rfl, rfl, rfl⟩, h5, h6⟩
  · cases h

theorem deliverAll_inv : ∀ {evs : List UsbEvent} {s t : State}, s.deliverAll evs = .ok t →
    SameOutsideRing s t ∧ (s.fcDis = true → t.fcDis = true) ∧ s.incidents <+: t.incidents ∧
      (evs.flatMap eventBytes = [] → t.rbRd = s.rbRd ∧ t.rbWr = s.rbWr ∧ t.rbMem = s.rbMem) ∧
      s.idx t.rbWr = s.idx (s.rbWr + (evs.flatMap eventBytes).length) ∧
      ∀ a, (∀ k, k < (evs.flatMap eventBytes).length → a ≠ s.idx (s.rbWr + k)) → t.memRead a = s.memRead a
  | [], s, t, h => by
    obtain rfl := Except.ok.inj h
    exact ⟨.refl s, id, List.prefix_rfl, fun _ => ⟨rfl, rfl, rfl⟩, rfl, fun _ _ => rfl⟩
  | ev :: evs, s, t, h => by
    unfold State.deliverAll at h
    split at h
    · rename_i u hu
      have key : SameOutsideRing s u ∧ (s.fcDis = true → u.fcDis = true) ∧ s.incidents <+: u.incidents ∧
          (eventBytes ev = [] → u.rbRd = s.rbRd ∧ u.rbWr = s.rbWr ∧ u.rbMem = s.rbMem) ∧
          s.idx u.rbWr = s.idx (s.rbWr + (eventBytes ev).length) ∧
          ∀ a, (∀ k, k < (eventBytes ev).length → a ≠ s.idx (s.rbWr + k)) → u.memRead a = s.memRead a := by
        cases ev with
        | packet data =>
          obtain ⟨h1, h2, h3⟩ := demux_inv hu
          exact ⟨h1, fun hf => h2.trans hf, h3⟩
        | flowDisable =>
          obtain rfl := Except.ok.inj hu
          exact ⟨⟨rfl, rfl, rfl, rfl, rfl, rfl, rfl, rfl, rfl, rfl⟩, fun _ => rfl, List.prefix_rfl, fun _ => ⟨rfl, rfl, rfl⟩, rfl,
            fun _ _ => rfl⟩
      obtain ⟨h1, h2, h3, h4, h5, h6⟩ := key
      obtain ⟨k1, k2, k3, k4, k5, k6⟩ := deliverAll_inv h
      have hidx : ∀ c, u.idx c = s.idx c := fun c => by simp only [State.idx, h1.cap]
      have hadd : ∀ k, s.idx (u.rbWr + k) = s.idx (s.rbWr + ((eventBytes ev).length + k)) := fun k => by
        unfold State.idx at h5 ⊢
        rw [Nat.add_mod, h5, ← Nat.add_mod, Nat.add_assoc]
      refine ⟨h1.trans k1, fun hf => k2 (h2 hf), h3.trans k3, fun hn => ?_, ?_, fun a ha => ?_⟩
      · rw [List.flatMap_cons, List.append_eq_nil_iff] at hn
        obtain ⟨a1, a2, a3⟩ := h4 hn.1
        obtain ⟨b1, b2, b3⟩ := k4 hn.2
        exact ⟨b1.trans a1, b2.trans a2, b3.trans a3⟩
      · rw [← hidx, k5, hidx, hadd, List.flatMap_cons, List.length_append]
      · rw [List.flatMap_cons, List.length_append] at ha
        rw [k6 a fun k hk => ?_, h6 a fun k hk => ha k (by omega)]
        rw [hidx, hadd]
        exact ha _ (by omega)
    · cases h

theorem stage_inv {s t : State} {f : Frame} (h : s.stage f = .ok t) :
    SameOutsideFrame s t ∧ t.faCount = s.faCount ∧ t.faStage = s.faStage ∧ t.sfbReady = true ∧ s.incidents <+: t.incidents := by
  unfold State.stage at h
  split at h
  · split at h
    · obtain rfl := Except.ok.inj h
      exact ⟨⟨rfl, rfl, rfl, rfl, rfl, rfl, rfl, rfl, rfl, rfl⟩, rfl, rfl, rfl, List.prefix_append _ _⟩
    · cases h
  · obtain rfl := Except.ok.inj h
    exact ⟨⟨rfl, rfl, rfl, rfl, rfl, rfl, rfl, rfl, rfl, rfl⟩, rfl, rfl, rfl, List.prefix_rfl⟩

theorem take_inv {s t : State} {r : Option Frame} (h : s.take = .ok (r, t)) : t = { s with sfbReady := false } ∧
    (r = none ↔ s.sfbReady = false) := by
  unfold State.take at h
  split at h
  · rename_i hr
    split at h
    · obtain ⟨rfl, rfl⟩ := Prod.mk.inj (Except.ok.inj h)
      exact ⟨rfl, by simp [hr]⟩
    · cases h
  · rename_i hr
    obtain ⟨rfl, rfl⟩ := Prod.mk.inj (Except.ok.inj h)
    have hr' : s.sfbReady = false := by simpa using hr
    exact ⟨by rw [← hr'], by simp [hr']⟩

theorem feed_inv {s t : State} {b : Byte} {c : Bool} (h : s.feed b = .ok (c, t)) :
    SameOutsideFrame s t ∧ (s.sfbReady = true → t.sfbReady = true) ∧ (c = true → t.sfbReady = true) ∧
      s.incidents <+: t.incidents := by
  unfold State.feed at h
  simp only at h
  split at h
  · split at h
    · split at h
      · rename_i u hu
        obtain ⟨rfl, rfl⟩ := Prod.mk.inj (Except.ok.inj h)
        obtain ⟨h1, -, -, h4, h5⟩ := stage_inv hu
        exact ⟨⟨h1.cfg, h1.rbWr, h1.rbRd, h1.rbMem, h1.fcDis, h1.phase, h1.stream, h1.trace, h1.refusals, h1.faultMark⟩,
          fun _ => h4, fun _ => h4, h5⟩
      · cases h
    · cases h
  · obtain ⟨rfl, rfl⟩ := Prod.mk.inj (Except.ok.inj h)
    exact ⟨⟨rfl, rfl, rfl, rfl, rfl, rfl, rfl, rfl, rfl, rfl⟩, id, fun hc => absurd hc (by simp), List.prefix_rfl⟩

/-! ## Every operation -/

/-- What an operation that was admitted and raised nothing has done: the state it started in and the state it gave. -/
def Effect : Instr → State → State → Prop
  | .rbPush b, s, t => s.cfg.mode = .unit ∧ s.push b = .ok t
  | .rbPop, s, t => s.cfg.mode = .unit ∧ ∃ r u, s.pop = .ok (r, u) ∧ t = u.emit (.popResult r)
  | .dmxPacket data, s, t => s.cfg.mode = .unit ∧ s.demux data = .ok t
  | .faFeed b, s, t => s.cfg.mode = .unit ∧ ∃ c u, s.feed b = .ok (c, u) ∧ t = u.emit (.feedResult c)
  | .sfbStage f, s, t => s.cfg.mode = .unit ∧ s.stage f = .ok t
  | .sfbTake, s, t => s.cfg.mode = .unit ∧ ∃ r u, s.take = .ok (r, u) ∧ t = u.emit (.takeResult r)
  | .sWdt, s, t => s.cfg.mode = .core ∧ s.phase = 0 ∧ t = (s.emit .wdtKick).setPhase 1
  | .sPoll events, s, t => s.cfg.mode = .core ∧ s.phase = 1 ∧ pollVerdict s.cfg.flowctlEn s.fcDis events = none ∧
      ∃ u, (s.emit .usbPoll).deliverAll events = .ok u ∧ t = u.setPhase 2
  | .sUtx txReady, s, t => s.cfg.mode = .core ∧ s.phase = 2 ∧
      ((txReady = true ∧ s.rbWr ≠ s.rbRd ∧ ∃ b, s.memRead (s.idx s.rbRd) = some b ∧
          t = (s.skip.emit (.uartTx b)).setPhase 3) ∨
        ((txReady = false ∨ s.rbWr = s.rbRd) ∧ t = s.setPhase 3))
  | .sFlow, s, t => s.cfg.mode = .core ∧ s.phase = 3 ∧
      ((s.reenables = true ∧ t = ({ s with fcDis := false }.emit .usbRxEnable).setPhase 4) ∨
        (s.reenables = false ∧ t = s.setPhase 4))
  | .sUrx none, s, t => s.cfg.mode = .core ∧ s.phase = 4 ∧ t = s.setPhase 5
  | .sUrx (some b), s, t => s.cfg.mode = .core ∧ s.phase = 4 ∧ ∃ c u, s.feed b = .ok (c, u) ∧ t = u.setPhase 5
  | .sUsbtx inReady, s, t => s.cfg.mode = .core ∧ s.phase = 5 ∧
      ((inReady = true ∧ s.sfbReady = true ∧ ∃ f, s.sfbFrame.readAll = .ok f ∧
          t = ({ s with sfbReady := false }.emit (.usbTx f)).setPhase 0) ∨
        ((inReady = false ∨ s.sfbReady = false) ∧ t = s.setPhase 0))
  | .reset cause, s, t => t = (s.note (resetIncident cause)).resetElements

/-- The OR of S_URX writes the value the feed left (44_scheduler R146). -/
theorem readyOr_of_feed {s u : State} {b : Byte} {c : Bool} (h : s.feed b = .ok (c, u)) :
    { u with sfbReady := readyOr u.sfbReady c } = u := by
  have hr : readyOr u.sfbReady c = u.sfbReady := by
    cases c with
    | false => exact Bool.or_false _
    | true => rw [(feed_inv h).2.2.1 rfl]; rfl
  rw [hr]

/-- A next state of an operation is a refusal, a raised fault, or its effect. -/
theorem exec_cases {i : Instr} {s t : State} (h : exec i s = .next t) :
    (∃ v, t = s.refuse v) ∨ (∃ r, t = s.raise r) ∨ Effect i s t := by
  have unit : ∀ {body}, s.asUnit body = .next t → (s.cfg.mode = .unit → body = .ok t → Effect i s t) →
      (∃ v, t = s.refuse v) ∨ (∃ r, t = s.raise r) ∨ Effect i s t := fun h hb => by
    rcases asUnit_cases h with h | ⟨hm, h | h⟩
    · exact .inl ⟨_, h⟩
    · exact .inr (.inl h)
    · exact .inr (.inr (hb hm h))
  have phase : ∀ {p body}, s.asPhase p body = .next t →
      (s.cfg.mode = .core → s.phase = p → body = .ok t → (∃ v, t = s.refuse v) ∨ Effect i s t) →
      (∃ v, t = s.refuse v) ∨ (∃ r, t = s.raise r) ∨ Effect i s t := fun h hb => by
    rcases asPhase_cases h with h | h | ⟨-, h⟩ | ⟨hm, hp, h⟩
    · exact .inl ⟨_, h⟩
    · exact .inl ⟨_, h⟩
    · exact .inr (.inl h)
    · exact (hb hm hp h).imp_right .inr
  cases i with
  | rbPush b => exact unit h fun hm hb => ⟨hm, hb⟩
  | rbPop =>
    refine unit h fun hm hb => ⟨hm, ?_⟩
    split at hb
    · exact ⟨_, _, ‹_›, (Except.ok.inj hb).symm⟩
    · cases hb
  | dmxPacket data => exact unit h fun hm hb => ⟨hm, hb⟩
  | faFeed b =>
    refine unit h fun hm hb => ⟨hm, ?_⟩
    split at hb
    · exact ⟨_, _, ‹_›, (Except.ok.inj hb).symm⟩
    · cases hb
  | sfbStage f => exact unit h fun hm hb => ⟨hm, hb⟩
  | sfbTake =>
    refine unit h fun hm hb => ⟨hm, ?_⟩
    split at hb
    · exact ⟨_, _, ‹_›, (Except.ok.inj hb).symm⟩
    · cases hb
  | sWdt => exact phase h fun hm hp hb => .inr ⟨hm, hp, (Except.ok.inj hb).symm⟩
  | sPoll events =>
    refine phase h fun hm hp hb => ?_
    split at hb
    · exact .inl ⟨_, (Except.ok.inj hb).symm⟩
    · rename_i hv
      unfold State.poll at hb
      split at hb
      · exact .inr ⟨hm, hp, hv, _, ‹_›, (Except.ok.inj hb).symm⟩
      · cases hb
  | sUtx txReady =>
    refine phase h fun hm hp hb => .inr ⟨hm, hp, ?_⟩
    split at hb
    · rename_i hc
      simp only [Bool.and_eq_true, decide_eq_true_eq] at hc
      split at hb
      · rename_i b u hpop
        rcases pop_inv hpop with ⟨-, hn, -⟩ | ⟨hne, rfl, b', hb', hr⟩
        · cases hn
        · obtain rfl := Option.some.inj hb'
          exact .inl ⟨hc.1, hne, _, hr, (Except.ok.inj hb).symm⟩
      · rename_i hpop
        rcases pop_inv hpop with ⟨-, -, he⟩ | ⟨-, -, _, hn, -⟩
        · exact absurd he hc.2
        · cases hn
      · cases hb
    · rename_i hc
      refine .inr ⟨?_, (Except.ok.inj hb).symm⟩
      simpa [Bool.and_eq_true, imp_iff_not_or] using hc
  | sFlow =>
    refine phase h fun hm hp hb => .inr ⟨hm, hp, ?_⟩
    split at hb
    · exact .inl ⟨‹_›, (Except.ok.inj hb).symm⟩
    · rename_i hc
      exact .inr ⟨Bool.eq_false_iff.mpr hc, (Except.ok.inj hb).symm⟩
  | sUrx rx =>
    refine phase h fun hm hp hb => .inr ?_
    cases rx with
    | none => exact ⟨hm, hp, (Except.ok.inj hb).symm⟩
    | some b =>
      simp only at hb
      split at hb
      · rename_i c u hf
        rw [readyOr_of_feed hf] at hb
        exact ⟨hm, hp, _, _, hf, (Except.ok.inj hb).symm⟩
      · cases hb
  | sUsbtx inReady =>
    refine phase h fun hm hp hb => .inr ⟨hm, hp, ?_⟩
    split at hb
    · rename_i hc
      simp only [Bool.and_eq_true] at hc
      unfold State.take at hb
      rw [if_pos hc.2] at hb
      cases hr : s.sfbFrame.readAll with
      | ok f =>
        rw [hr] at hb
        exact .inl ⟨hc.1, hc.2, f, rfl, (Except.ok.inj hb).symm⟩
      | error r =>
        rw [hr] at hb
        cases hb
    · rename_i hc
      refine .inr ⟨?_, (Except.ok.inj hb).symm⟩
      cases inReady
      · exact .inl rfl
      · exact .inr (by simpa using hc)
  | reset cause => exact .inr (.inr (Host.Outcome.next.inj h).symm)

/-- Every operation gives a next state, in every state. -/
theorem exec_next (i : Instr) (s : State) : ∃ t, exec i s = .next t := by
  cases i <;> first | exact asUnit_next _ _ | exact asPhase_next _ _ _ | exact ⟨_, rfl⟩

end Sys2Proof.Machine
end

