-- ==== Sys2Proof/Laws/PerInstr.lean ====
section
/-! SUPPORT. A statement about every operation as syntax, made per constructor: the form of the command that writes it
(30_encoding R72, R73). -/

namespace Sys2Proof.Laws.CommandForm

/-- The command has the length of R73's column, and begins with a header whose upper half is the operation's opcode, not a reserved
one, and whose lower half is 0. -/
def Statement (i : Instr) : Prop :=
  (encode i).length = i.commandLength ∧ (encode i).head? = some (i.opcode ++ (0 : BitVec 4)) ∧ reservedOpcode i.opcode = false

theorem rbPush (b : Byte) : Statement (.rbPush b) := ⟨rfl, head_encode _, opcode_not_reserved _⟩

theorem rbPop : Statement .rbPop := ⟨rfl, head_encode _, opcode_not_reserved _⟩

theorem length_encodePacket (data : List Byte) : (encodePacket data).length = 2 + data.length := by
  simp [encodePacket]
  omega

theorem dmxPacket (data : List Byte) : Statement (.dmxPacket data) := by
  refine ⟨?_, head_encode _, opcode_not_reserved _⟩
  show (encodePacket data).length + 1 = 3 + data.length
  rw [length_encodePacket]
  omega

theorem faFeed (b : Byte) : Statement (.faFeed b) := ⟨rfl, head_encode _, opcode_not_reserved _⟩

theorem sfbStage (f : Frame) : Statement (.sfbStage f) := ⟨rfl, head_encode _, opcode_not_reserved _⟩

theorem sfbTake : Statement .sfbTake := ⟨rfl, head_encode _, opcode_not_reserved _⟩

theorem sWdt : Statement .sWdt := ⟨rfl, head_encode _, opcode_not_reserved _⟩

theorem length_encodeEvent (ev : UsbEvent) : (encodeEvent ev).length = eventLength ev := by
  cases ev with
  | packet data =>
    show (encodePacket data).length + 1 = 3 + data.length
    rw [length_encodePacket]
    omega
  | flowDisable => rfl

theorem sPoll (events : List UsbEvent) : Statement (.sPoll events) := by
  refine ⟨?_, head_encode _, opcode_not_reserved _⟩
  show (events.flatMap encodeEvent).length + 1 + 1 = 2 + (events.map eventLength).sum
  have : (events.flatMap encodeEvent).length = (events.map eventLength).sum := by
    rw [List.length_flatMap]
    simp only [length_encodeEvent]
  omega

theorem sUtx (txReady : Bool) : Statement (.sUtx txReady) := ⟨rfl, head_encode _, opcode_not_reserved _⟩

theorem sFlow : Statement .sFlow := ⟨rfl, head_encode _, opcode_not_reserved _⟩

theorem sUrx (rx : Option Byte) : Statement (.sUrx rx) := by
  cases rx <;> exact ⟨rfl, head_encode _, opcode_not_reserved _⟩

theorem sUsbtx (inReady : Bool) : Statement (.sUsbtx inReady) := ⟨rfl, head_encode _, opcode_not_reserved _⟩

theorem reset (cause : RstCause) : Statement (.reset cause) := by
  cases cause <;> exact ⟨rfl, head_encode _, opcode_not_reserved _⟩

end Sys2Proof.Laws.CommandForm
end

