-- ==== Sys2Proof/Tests/Slice0.lean ====
section
/-! SUPPORT. Tests of single operations against the spec's own vectors (95_test_vectors), words written out from the encoding tables
of 30_encoding, ill-formed terms that WellFormed refuses, and, for each obligation with hypotheses, states that meet them. -/

namespace Sys2Proof.Tests

open Sys2Proof.Machine

/-! ## Helpers -/

/-- The next state, where there is one. -/
def next (o : Host.Outcome State Fault Refusal) : Option State :=
  match o with
  | .next t => some t
  | .fault _ => none
  | .refused _ => none

/-- A small machine in UNIT mode: N = 4. -/
def unit4 : State := State.resetWith { k := 2, maxPkt := 1, flowctlEn := true, mode := .unit }

/-- A small machine in CORE mode: N = 4, low-water mark 3, in the given phase. -/
def core4 (p : BitVec 3) : State :=
  { State.resetWith { k := 2, maxPkt := 1, flowctlEn := true, mode := .core } with phase := p }

/-- A storage of four bytes. -/
def mem4 (a b c d : Byte) : Memory := [(0, a), (1, b), (2, c), (3, d)]

/-- The start of V-RB-8: full, the oldest byte in slot 3. -/
def unitFull : State := { unit4 with rbWr := 3, rbRd := 7, rbMem := mem4 0xB0 0xB1 0xB2 0xB3 }

/-- One byte, in slot 3, both cursors about to wrap. -/
def unitOne : State := { unit4 with rbWr := 0, rbRd := 7, rbMem := [(3, 0x5A)] }

/-- The start of V-FA-3: three bytes of a frame, and a frame pending. -/
def unitFrame : State :=
  { unit4 with faCount := 3, faStage := ⟨some 0x01, some 0x02, some 0x03, none⟩, sfbReady := true,
               sfbFrame := ⟨some 0x0A, some 0x0B, some 0x0C, some 0x0D⟩ }

/-- In CORE mode: full, acceptance disabled, three bytes of a frame, and a frame pending. -/
def coreFull (p : BitVec 3) : State :=
  { core4 p with rbWr := 4, rbRd := 0, rbMem := mem4 0xB0 0xB1 0xB2 0xB3, fcDis := true, faCount := 3,
                 faStage := ⟨some 0x90, some 0x3C, some 0x64, none⟩, sfbReady := true,
                 sfbFrame := ⟨some 0x0A, some 0x0B, some 0x0C, some 0x0D⟩ }

/-- Three bytes held, which is the low-water mark, acceptance disabled. -/
def coreLow (p : BitVec 3) : State := { coreFull p with rbRd := 1 }

/-- The invariant as a check. -/
def invCheck (s : State) : Bool :=
  decide s.cfg.Ok && decide (s.rbWr < 2 * s.cap) && decide (s.rbRd < 2 * s.cap) && Memory.wf s.cap s.rbMem &&
  decide (s.occ ≤ s.cap) && decide (∀ k, k < s.occ → (s.memRead (s.idx (s.rbRd + k))).isSome = true) &&
  decide (∀ i : BitVec 2, i.toNat < s.faCount.toNat → (s.faStage.get i).isSome = true) &&
  decide (s.sfbReady = true → (s.sfbFrame.readAll.toOption).isSome = true) && decide (s.phase.toNat ≤ 5) &&
  decide (s.cfg.flowctlEn = false → s.fcDis = false) && decide (s.cfg.mode = .core → s.rbWr % 4 = 0) &&
  decide (s.cfg.mode = .unit → s.phase = 0) && decide (s.faultMark = none)

theorem inv_of_check {s : State} (h : invCheck s = true) : Inv s := by
  simp only [invCheck, Bool.and_eq_true, decide_eq_true_eq] at h
  obtain ⟨⟨⟨⟨⟨⟨⟨⟨⟨⟨⟨⟨h1, h2⟩, h3⟩, h4⟩, h5⟩, h6⟩, h7⟩, h8⟩, h9⟩, h10⟩, h11⟩, h12⟩, h13⟩ := h
  exact ⟨h1, ⟨h2, h3, h4, h5, h6⟩, ⟨h7, h8⟩, h9, h10, h11, h12, h13⟩

/-! ## Well-formedness: each check refuses an ill-formed term (30_encoding R74 to R76) -/

theorem packet_too_long {data : List Byte} (h : data.length = 65536) : (Instr.dmxPacket data).wellFormed = false ∧
    (Instr.sPoll [.flowDisable, .packet data]).wellFormed = false := by
  simp [Instr.wellFormed, pollEncodable, UsbEvent.wellFormed, lengthEncodable, h]

theorem test_wf_packet_too_long (b : Byte) : (Instr.dmxPacket (List.replicate 65536 b)).wellFormed = false :=
  (packet_too_long List.length_replicate).1

theorem test_wf_event_too_long (b : Byte) : (Instr.sPoll [.flowDisable, .packet (List.replicate 65536 b)]).wellFormed = false :=
  (packet_too_long List.length_replicate).2

theorem too_many_events {events : List UsbEvent} (h : events.length = 256) : (Instr.sPoll events).wellFormed = false := by
  simp [Instr.wellFormed, pollEncodable, h]

theorem test_wf_too_many_events : (Instr.sPoll (List.replicate 256 .flowDisable)).wellFormed = false :=
  too_many_events List.length_replicate

theorem longest_packet {data : List Byte} (h : data.length = 65535) : (Instr.dmxPacket data).wellFormed = true := by
  simp [Instr.wellFormed, lengthEncodable, h]

/-! ## Decoding: words written out from R73 to R75, and the refusals of 95_test_vectors 2.6 -/

theorem test_decode_rbPush : decode [0x10, 0x41] = .ok (.rbPush 0x41, []) := by decide
theorem test_decode_rbPop : decode [0x20] = .ok (.rbPop, []) := by decide
theorem test_decode_dmxPacket : decode [0x30, 0x02, 0x00, 0x01, 0x02, 0x20] = .ok (.dmxPacket [0x01, 0x02], [0x20]) := by decide
theorem test_decode_faFeed : decode [0x40, 0x90] = .ok (.faFeed 0x90, []) := by decide
theorem test_decode_sfbStage : decode [0x50, 0x09, 0x90, 0x3C, 0x64] = .ok (.sfbStage ⟨0x09, 0x90, 0x3C, 0x64⟩, []) := by decide
theorem test_decode_sfbTake : decode [0x60] = .ok (.sfbTake, []) := by decide
theorem test_decode_sWdt : decode [0x80] = .ok (.sWdt, []) := by decide
theorem test_decode_sPoll : decode [0x90, 0x02, 0x01, 0x04, 0x00, 0x01, 0x02, 0x03, 0x04, 0x02] =
    .ok (.sPoll [.packet [0x01, 0x02, 0x03, 0x04], .flowDisable], []) := by decide
theorem test_decode_sUtx : decode [0xA0, 0x00, 0xA0, 0x01] = .ok (.sUtx false, [0xA0, 0x01]) := by decide
theorem test_decode_sFlow : decode [0xB0] = .ok (.sFlow, []) := by decide
theorem test_decode_sUrx : decode [0xC0, 0x01, 0x80] = .ok (.sUrx (some 0x80), []) := by decide
theorem test_decode_sUsbtx : decode [0xD0, 0x01] = .ok (.sUsbtx true, []) := by decide
theorem test_decode_reset : decode [0xE0, 0x01] = .ok (.reset .watchdog, []) := by decide

/-- The length is little-endian: `00 01` asks for 256 bytes (R74). -/
theorem test_decode_length_order : decode [0x30, 0x01, 0x00, 0x07] = .ok (.dmxPacket [0x07], []) ∧
    decode [0x30, 0x00, 0x01, 0x07] = .error .truncated := by decide

/-- V-ENC-1 to V-ENC-3. -/
theorem test_refuse_reserved_opcodes : decode [0x00] = .error .reservedOpcode ∧ decode [0x70] = .error .reservedOpcode ∧
    decode [0xF0] = .error .reservedOpcode := by decide

/-- V-ENC-4, V-ENC-5, V-ENC-6, V-ENC-9. -/
theorem test_refuse_reserved_bits : decode [0x11, 0x41] = .error .reservedBits ∧ decode [0xA0, 0x02] = .error .reservedBits ∧
    decode [0xC0, 0x00, 0x05] = .error .reservedBits ∧ decode [0xE0, 0x03] = .error .reservedBits := by decide

/-- V-ENC-7, V-ENC-8. -/
theorem test_refuse_tag_and_end : decode [0x90, 0x01, 0x03] = .error .badEventTag ∧
    decode [0x30, 0x05, 0x00, 0x01, 0x02] = .error .truncated := by decide

/-- 20_memory R54, `W = f0 | f1<<8 | f2<<16 | f3<<24`. -/
theorem test_frame_word : frameWord ⟨0x09, 0x90, 0x3C, 0x64⟩ = 0x643C9009 ∧
    wordFrame 0x643C9009 = ⟨0x09, 0x90, 0x3C, 0x64⟩ := by decide

/-! ## The assembler (30_encoding R79, R80) -/

/-- Text with braces: the braces are the characters 123 and 125. -/
def braced (s : String) : List Char := Char.ofNat 123 :: s.toList ++ [Char.ofNat 125]

/-- The first iteration of program P3 of 95_test_vectors. -/
theorem test_asm_iter : (assembleLine ("iter poll=".toList ++ braced "packet [0x09, 0x90, 0x3C, 0x64]" ++
    ", tx=1, rx=0x80, in=1".toList)).map (List.flatMap encode) =
    some [0x80, 0x90, 0x01, 0x01, 0x04, 0x00, 0x09, 0x90, 0x3C, 0x64, 0xA0, 0x01, 0xB0, 0xC0, 0x01, 0x80, 0xD0, 0x01] := by decide

theorem test_asm_poll : assembleLine ("s_poll ".toList ++ braced "packet [1, 2, 3, 4], flow_disable") =
    some [.sPoll [.packet [1, 2, 3, 4], .flowDisable]] := by decide

theorem test_asm_refuses : assemble "rb_push 256" = none ∧ assemble "s_utx 2" = none ∧ assemble "sfb_stage [1, 2, 3]" = none ∧
    assemble "RB_POP" = none := by decide

/-! ## Single operations (95_test_vectors 2.1 to 2.5; the values are the spec's) -/

/-- V-RB-6: the write cursor wraps from 2N-1 to 0. -/
theorem test_rbPush_wraps : (next (exec (.rbPush 0x5A) { unit4 with rbWr := 7, rbRd := 7 })).map (fun t => (t.rbWr, t.rbRd, t.rbMem, t.occ))
    = some (0, 7, [(3, 0x5A)], 1) := by decide

/-- V-RB-8: full, the oldest byte is dropped and recorded. -/
theorem test_rbPush_full : (next (exec (.rbPush 0x77) unitFull)).map (fun t => (t.rbWr, t.rbRd, t.rbMem, t.incidents))
    = some (4, 0, mem4 0xB0 0xB1 0xB2 0x77, [.rbOverwrite 0xB3]) := by decide

/-- V-RB-1. -/
theorem test_rbPop_empty : next (exec .rbPop unit4) = some { unit4 with trace := [.popResult none] } := by decide

/-- V-RB-7: the read cursor wraps, the slot is not cleared. -/
theorem test_rbPop_wraps : next (exec .rbPop unitOne) = some { unitOne with rbRd := 0, trace := [.popResult (some 0x5A)] } := by decide

/-- V-DMX-4: a packet longer than N overwrites its own bytes. -/
theorem test_dmxPacket_long : (next (exec (.dmxPacket [0x11, 0x12, 0x13, 0x14, 0x21, 0x22, 0x23, 0x24]) unit4)).map
    (fun t => (t.rbWr, t.rbRd, t.rbMem, t.incidents)) = some (0, 4, mem4 0x21 0x22 0x23 0x24,
      [.rbOverwrite 0x11, .rbOverwrite 0x12, .rbOverwrite 0x13, .rbOverwrite 0x14]) := by decide

/-- V-DMX-3: a trailing fragment is discarded. -/
theorem test_dmxPacket_fragment : (next (exec (.dmxPacket [0x11, 0x22, 0x33, 0x44, 0x55]) unit4)).map (fun t => (t.held, t.incidents))
    = some ([0x11, 0x22, 0x33, 0x44], [.pktTrunc 1]) := by decide

/-- V-FA-1. -/
theorem test_faFeed_first : next (exec (.faFeed 0x90) unit4) = some { unit4 with
    faStage := ⟨some 0x90, none, none, none⟩, faCount := 1, trace := [.feedResult false] } := by decide

/-- V-FA-3: the fourth byte stages the frame over a pending one. -/
theorem test_faFeed_fourth : (next (exec (.faFeed 0x04) unitFrame)).map (fun t => (t.pending, t.faCount, t.incidents, t.trace)) =
    some (some ⟨0x01, 0x02, 0x03, 0x04⟩, 0, [.sfbOverwrite ⟨0x0A, 0x0B, 0x0C, 0x0D⟩], [.feedResult true]) := by decide

/-- V-SFB-2. -/
theorem test_sfbStage_free : next (exec (.sfbStage ⟨0x09, 0x90, 0x3C, 0x64⟩) unit4) = some { unit4 with
    sfbFrame := ⟨some 0x09, some 0x90, some 0x3C, some 0x64⟩, sfbReady := true } := by decide

/-- V-SFB-4: an equal frame still counts as overwritten. -/
theorem test_sfbStage_equal : (next (exec (.sfbStage ⟨0x0A, 0x0B, 0x0C, 0x0D⟩) unitFrame)).map (fun t => (t.pending, t.incidents)) =
    some (some ⟨0x0A, 0x0B, 0x0C, 0x0D⟩, [.sfbOverwrite ⟨0x0A, 0x0B, 0x0C, 0x0D⟩]) := by decide

/-- V-SFB-1. -/
theorem test_sfbTake_none : next (exec .sfbTake unit4) = some { unit4 with trace := [.takeResult none] } := by decide

/-- V-SFB-3, the first take: the frame bytes are kept. -/
theorem test_sfbTake_some : next (exec .sfbTake unitFrame) = some { unitFrame with
    sfbReady := false, trace := [.takeResult (some ⟨0x0A, 0x0B, 0x0C, 0x0D⟩)] } := by decide

/-- V-SCH-1. -/
theorem test_sWdt : next (exec .sWdt (core4 0)) = some { core4 1 with trace := [.wdtKick] } := by decide

/-- V-SCH-3: a packet after a disable refuses the whole poll. -/
theorem test_sPoll_refused : next (exec (.sPoll [.flowDisable, .packet [1, 2, 3, 4]]) (core4 1)) =
    some { core4 1 with refusals := [.packetWhileDisabled] } := by decide

/-- V-SCH-4: a packet, then a disable. -/
theorem test_sPoll_disables : next (exec (.sPoll [.packet [1, 2, 3, 4], .flowDisable]) (core4 1)) = some { core4 2 with
    rbWr := 4, rbMem := mem4 1 2 3 4, fcDis := true, trace := [.usbPoll] } := by decide

/-- V-SCH-6: not ready, nothing is popped. -/
theorem test_sUtx_busy : next (exec (.sUtx false) (coreLow 2)) = some (coreLow 3) := by decide

/-- V-SCH-7. -/
theorem test_sUtx_sends : next (exec (.sUtx true) (coreLow 2)) = some { coreLow 3 with rbRd := 2, trace := [.uartTx 0xB1] } := by decide

/-- V-SCH-8: exactly the low-water mark is not below it. -/
theorem test_sFlow_at_mark : next (exec .sFlow (coreLow 3)) = some (coreLow 4) := by decide

/-- V-SCH-9: one byte less. -/
theorem test_sFlow_below : next (exec .sFlow { coreLow 3 with rbRd := 2 }) = some { coreLow 4 with
    rbRd := 2, fcDis := false, trace := [.usbRxEnable] } := by decide

/-- V-SCH-11. -/
theorem test_sUrx_none : next (exec (.sUrx none) (core4 4)) = some (core4 5) := by decide

/-- V-SCH-12, over a pending frame. -/
theorem test_sUrx_completes : (next (exec (.sUrx (some 0x00)) (coreFull 4))).map (fun t => (t.pending, t.faCount, t.phase, t.trace)) =
    some (some ⟨0x90, 0x3C, 0x64, 0x00⟩, 0, 5, []) := by decide

/-- V-SCH-13. -/
theorem test_sUsbtx_busy : next (exec (.sUsbtx false) (coreFull 5)) = some (coreFull 0) := by decide

/-- V-SCH-14. -/
theorem test_sUsbtx_sends : next (exec (.sUsbtx true) (coreFull 5)) = some { coreFull 0 with
    sfbReady := false, trace := [.usbTx ⟨0x0A, 0x0B, 0x0C, 0x0D⟩] } := by decide

/-- V-SCH-18. -/
theorem test_reset_watchdog : next (exec (.reset .watchdog) (coreFull 3)) = some { core4 0 with incidents := [.wdtReset] } := by decide

/-- V-FA-5: an external reset in UNIT mode discards a partial frame. -/
theorem test_reset_external : next (exec (.reset .external) unitFrame) = some { unit4 with incidents := [.extReset] } := by decide

/-- V-SCH-16, V-SCH-17, V-SCH-19. -/
theorem test_refused_operations :
    (next (exec (.sUtx true) (core4 0))).map State.refusals = some [.wrongPhase] ∧
    (next (exec (.rbPush 0x41) (core4 0))).map State.refusals = some [.wrongMode] ∧
    (next (exec (.sPoll [.flowDisable]) { core4 1 with cfg := { k := 5, maxPkt := 8, flowctlEn := false, mode := .core } })).map
      State.refusals = some [.noFlowControl] := by decide

/-- The table's row for RESET, placed after reset, is the next step. -/
theorem test_step_placed : (next (step (State.reset.withFetchWord 16 0x01E0))).map State.incidents = some [.wdtReset] := by decide

/-- V-ENC-5, `A0 02`, with its nearest accepted command behind it: decoding goes on there (R72, R76). -/
theorem test_step_after_reserved_bits : (next (step { core4 0 with stream := [0xA0, 0x02, 0xA0, 0x00] })).map
    (fun t => (t.stream, t.refusals, t.phase)) = some ([0xA0, 0x00], [.reservedBits], 0) := by decide

/-- A phase of 7 stops the model (30_encoding R71). -/
theorem test_badPhase : next (exec .sWdt (core4 7)) = some { core4 7 with faultMark := some .badPhase } := by decide

/-! ## Witnesses: for each obligation with hypotheses, what meets them together, clause by clause -/

theorem inv_unit4 : Inv unit4 := inv_of_check (by decide)
theorem inv_unitFull : Inv unitFull := inv_of_check (by decide)
theorem inv_unitOne : Inv unitOne := inv_of_check (by decide)
theorem inv_unitFrame : Inv unitFrame := inv_of_check (by decide)
theorem inv_core4 : Inv (core4 0) ∧ Inv (core4 1) ∧ Inv (core4 2) ∧ Inv (core4 3) ∧ Inv (core4 4) ∧ Inv (core4 5) :=
  ⟨inv_of_check (by decide), inv_of_check (by decide), inv_of_check (by decide), inv_of_check (by decide),
    inv_of_check (by decide), inv_of_check (by decide)⟩
theorem inv_coreFull : Inv (coreFull 0) ∧ Inv (coreFull 1) ∧ Inv (coreFull 2) ∧ Inv (coreFull 3) ∧ Inv (coreFull 4) ∧ Inv (coreFull 5) :=
  ⟨inv_of_check (by decide), inv_of_check (by decide), inv_of_check (by decide), inv_of_check (by decide),
    inv_of_check (by decide), inv_of_check (by decide)⟩
theorem inv_coreLow : Inv (coreLow 2) ∧ Inv (coreLow 3) := ⟨inv_of_check (by decide), inv_of_check (by decide)⟩

/-- The longest packet that can be written. -/
theorem witness_DecodeOfEncode (b : Byte) : (Instr.dmxPacket (List.replicate 65535 b)).wellFormed = true :=
  longest_packet List.length_replicate

theorem witness_EncodeOfDecode : decode [0xC0, 0x01, 0xFF, 0x20] = .ok (.sUrx (some 0xFF), [0x20]) := by decide

/-- One case for each clause: each reserved opcode with set low bits, the smallest and largest low bits, both ends of `g[7:1]`, `d = 1`. -/
theorem witness_ReservedEncodingsRefused :
    (0x00 : Byte).extractLsb' 4 4 = 0x0 ∧ (0x7F : Byte).extractLsb' 4 4 = 0x7 ∧ (0xFF : Byte).extractLsb' 4 4 = 0xF ∧
    (¬ ((0x11 : Byte).extractLsb' 4 4 = 0x0 ∨ (0x11 : Byte).extractLsb' 4 4 = 0x7 ∨ (0x11 : Byte).extractLsb' 4 4 = 0xF) ∧
      (0x11 : Byte).extractLsb' 0 4 ≠ 0) ∧
    (¬ ((0xEF : Byte).extractLsb' 4 4 = 0x0 ∨ (0xEF : Byte).extractLsb' 4 4 = 0x7 ∨ (0xEF : Byte).extractLsb' 4 4 = 0xF) ∧
      (0xEF : Byte).extractLsb' 0 4 ≠ 0) ∧
    (0x02 : Byte).extractLsb' 1 7 ≠ 0 ∧ (0xFF : Byte).extractLsb' 1 7 ≠ 0 ∧ (0x01 : Byte) ≠ 0 := by decide

theorem witness_TruncatedCommandsRefused : (Instr.dmxPacket [0x01, 0x02]).wellFormed = true ∧
    encode (.dmxPacket [0x01, 0x02]) = [0x30, 0x02, 0x00, 0x01] ++ [0x02] ∧ encode (.dmxPacket [0x01, 0x02]) = [] ++ encode (.dmxPacket [0x01, 0x02]) ∧
    [0x02] ≠ ([] : List Byte) ∧ encode (.dmxPacket [0x01, 0x02]) ≠ [] := by decide

/-- The tags next to the two that exist, as the first event and after another. -/
theorem witness_UnknownEventTagsRefused : pollEncodable [] = true ∧ ([] : List UsbEvent).length < (0x01 : Byte).toNat ∧
    pollEncodable [.flowDisable] = true ∧ [UsbEvent.flowDisable].length < (0xFF : Byte).toNat ∧
    (0x00 : Byte) ≠ 0x01 ∧ (0x00 : Byte) ≠ 0x02 ∧ (0x03 : Byte) ≠ 0x01 ∧ (0x03 : Byte) ≠ 0x02 := by decide

theorem witness_StepRunsDecodedInstruction : { State.reset with stream := [0x80, 0x20] }.faultMark = none ∧
    decode { State.reset with stream := [0x80, 0x20] }.stream = .ok (.sWdt, [0x20]) := by decide

theorem witness_StepRefusesUndecodableBytes : { State.reset with stream := [0x00] }.faultMark = none ∧
    { State.reset with stream := [0x00] }.stream ≠ [] ∧
    decode { State.reset with stream := [0x00] }.stream = .error .reservedOpcode := by decide

theorem witness_StepStopsWhenFaultedOrIdle : ((core4 0).raise .badPhase).faultMark = some .badPhase ∧
    State.reset.faultMark = none ∧ State.reset.stream = [] := by decide

/-- A component operation in CORE mode and a scheduler operation in UNIT mode. -/
theorem witness_WrongModeRefused : (Instr.rbPush 0x41).requiredMode = some .unit ∧ (core4 0).cfg.mode ≠ .unit ∧
    Instr.sWdt.requiredMode = some .core ∧ unit4.cfg.mode ≠ .core := by decide

theorem witness_WrongPhaseRefused : (core4 5).cfg.mode = .core ∧ (core4 5).phase.toNat ≤ 5 ∧ Instr.sWdt.requiredPhase = some 0 ∧
    (core4 5).phase ≠ 0 := by decide

/-- Both illegal phases. -/
theorem witness_BadPhaseFaults : (core4 6).cfg.mode = .core ∧ 5 < (core4 6).phase.toNat ∧ 5 < (core4 7).phase.toNat ∧
    Instr.sWdt.requiredPhase ≠ none := by decide

theorem witness_RefusalPerformsNothing : exec .rbPop (core4 0) = .next ((core4 0).refuse .wrongMode) ∧
    ((core4 0).refuse .wrongMode).refusals ≠ (core4 0).refusals := ⟨rfl, by decide⟩

theorem witness_RbPushEffect : Inv unit4 ∧ unit4.cfg.mode = .unit ∧ unit4.occ < unit4.cap ∧
    Inv unitFull ∧ unitFull.cfg.mode = .unit ∧ unitFull.occ = unitFull.cap :=
  ⟨inv_unit4, by decide, by decide, inv_unitFull, by decide, by decide⟩

theorem witness_RbPopEffect : (core4 0).cfg.mode = .core ∧ Inv unit4 ∧ unit4.cfg.mode = .unit ∧ unit4.rbWr = unit4.rbRd ∧
    Inv unitOne ∧ unitOne.cfg.mode = .unit ∧ unitOne.rbWr ≠ unitOne.rbRd :=
  ⟨by decide, inv_unit4, by decide, by decide, inv_unitOne, by decide, by decide⟩

/-- In CORE mode, an operation that moves the read cursor. -/
theorem witness_RbPopEffect_core : (coreFull 2).cfg.mode = .core ∧ (∃ t, exec .rbPop (coreFull 2) = .next t) ∧
    ∃ t, exec (.sUtx true) (coreFull 2) = .next t ∧ t.rbRd ≠ (coreFull 2).rbRd :=
  ⟨rfl, ⟨_, rfl⟩, _, rfl, by decide⟩

/-- From a full buffer, a push, two pops and a push. -/
theorem witness_RingFifoOrder : Inv unitFull ∧ unitFull.cfg.mode = .unit ∧
    ∃ t, runOps ([some 0x01, none, none, some 0x02].map ringOp) unitFull = .next t :=
  ⟨inv_unitFull, by decide, _, rfl⟩

/-- Its last clause: a sequence without an overwrite. -/
theorem witness_RingFifoOrder_lossless :
    ∃ t, runOps ([some 0x01, none].map ringOp) unit4 = .next t ∧ t.incidents = unit4.incidents := ⟨_, rfl, rfl⟩

/-- One push more than the capacity of 4. -/
theorem witness_RingOverwritePolicy : Inv unit4 ∧ unit4.cfg.mode = .unit ∧ unit4.occ = 0 ∧
    unit4.cap < [0x01, 0x02, 0x03, 0x04, (0x05 : Byte)].length :=
  ⟨inv_unit4, by decide, by decide, by decide⟩

theorem witness_OccupancyLaw : Inv unitFull ∧ unitFull.cfg.mode = .unit ∧ (∃ t, exec (.rbPush 0x77) unitFull = .next t) ∧
    (∃ t, exec .rbPop unitFull = .next t) ∧ ∃ t, exec .rbPop unitOne = .next t ∧ (t.rbWr ≠ unitOne.rbWr ∨ t.rbRd ≠ unitOne.rbRd) :=
  ⟨inv_unitFull, by decide, ⟨_, rfl⟩, ⟨_, rfl⟩, _, rfl, by decide⟩

/-- A slot apart from the one pushed to, and slots apart from those of a packet of one group in a larger buffer. -/
theorem witness_RingOperationFrames : (∃ t, exec (.rbPush 0x77) unitOne = .next t) ∧ 3 ≠ unitOne.rbWr % unitOne.cap ∧
    (∃ t, exec .rbPop unitOne = .next t) ∧
    (∃ t, exec (.dmxPacket [1, 2, 3, 4]) { State.reset with cfg := { Params.reference with mode := .unit } } = .next t) ∧
    ∀ k, k < 4 * ([1, 2, 3, (4 : Byte)].length / 4) → 31 ≠ (State.reset.rbWr + k) % State.reset.cap :=
  ⟨⟨_, rfl⟩, by decide, ⟨_, rfl⟩, ⟨_, rfl⟩, by decide⟩

theorem witness_DmxPacketEffect : [0x07, (0x08 : Byte)].length = (0x02 : Byte).toNat + 256 * (0x00 : Byte).toNat ∧
    (core4 0).cfg.mode = .core ∧ Inv unitFull ∧ unitFull.cfg.mode = .unit ∧
    (∃ t, exec (.dmxPacket [1, 2]) (core4 0) = .next t) ∧
    (∃ t, exec (.sPoll [.packet [1, 2, 3, 4]]) (core4 1) = .next t ∧ t.rbWr ≠ (core4 1).rbWr) ∧
    Inv (core4 1) ∧ (core4 1).cfg.mode = .core ∧ (core4 1).phase = 1 ∧ (core4 1).fcDis = false :=
  ⟨by decide, by decide, inv_unitFull, by decide, ⟨_, rfl⟩, ⟨_, rfl, by decide⟩, inv_core4.2.1, by decide, by decide, by decide⟩

theorem witness_DmxPacketIsItsPushes : Inv unitFull ∧ unitFull.cfg.mode = .unit := ⟨inv_unitFull, by decide⟩

/-- Below three, at three, and in CORE mode an operation that feeds. -/
theorem witness_FaFeedEffect : (core4 0).cfg.mode = .core ∧ Inv unit4 ∧ unit4.cfg.mode = .unit ∧ unit4.faCount ≠ 3 ∧ Inv unitFrame ∧
    unitFrame.cfg.mode = .unit ∧ unitFrame.faCount = 3 ∧
    (∃ t, exec (.faFeed 0x01) (core4 0) = .next t) ∧
    ∃ t, exec (.sUrx (some 0x01)) (core4 4) = .next t ∧ (t.faCount ≠ (core4 4).faCount ∨ t.faStage ≠ (core4 4).faStage) :=
  ⟨by decide, inv_unit4, by decide, by decide, inv_unitFrame, by decide, by decide, ⟨_, rfl⟩, _, rfl, by decide⟩

theorem witness_FrameIntegrity : Inv unitFrame ∧ unitFrame.cfg.mode = .unit := ⟨inv_unitFrame, by decide⟩

theorem witness_FrameBoundaryIgnoresContent : Inv unitFrame ∧ Inv { unitFull with faCount := 3, faStage := unitFrame.faStage } ∧
    unitFrame.cfg.mode = .unit ∧ unitFull.cfg.mode = .unit ∧ unitFrame.faCount = 3 ∧
    [0xF8, (0x01 : Byte)].length = [0x00, (0x02 : Byte)].length ∧
    (∃ t, runOps ([0xF8, 0x01].map Instr.faFeed) unitFrame = .next t) ∧
    ∃ t, runOps ([0x00, 0x02].map Instr.faFeed) { unitFull with faCount := 3, faStage := unitFrame.faStage } = .next t :=
  ⟨inv_unitFrame, inv_of_check (by decide), by decide, by decide, by decide, by decide, ⟨_, rfl⟩, _, rfl⟩

/-- The CORE-mode clauses of SfbStageEffect and SfbTakeEffect, and the second part of FrameBoundaryIgnoresContent. -/
theorem witness_frame_operations_in_core : (∃ t, exec (.sfbStage ⟨1, 2, 3, 4⟩) (core4 0) = .next t) ∧
    (∃ t, exec .sfbTake (core4 0) = .next t) ∧ Inv (coreFull 4) ∧ (coreFull 4).phase = 4 ∧ (coreFull 4).faCount = 3 ∧
    Inv (core4 4) ∧ (core4 4).phase = 4 ∧ (core4 4).faCount ≠ 3 :=
  ⟨⟨_, rfl⟩, ⟨_, rfl⟩, inv_coreFull.2.2.2.2.1, by decide, by decide, inv_core4.2.2.2.2.1, by decide, by decide⟩

theorem witness_SfbStageEffect : (core4 0).cfg.mode = .core ∧ Inv unit4 ∧ unit4.cfg.mode = .unit ∧ unit4.sfbReady = false ∧
    Inv unitFrame ∧ unitFrame.cfg.mode = .unit ∧ unitFrame.sfbReady = true ∧
    ∃ t, exec (.sUrx (some 0x00)) (coreFull 4) = .next t ∧
      (t.sfbFrame ≠ (coreFull 4).sfbFrame ∨ ((coreFull 4).sfbReady = false ∧ t.sfbReady = true)) :=
  ⟨by decide, inv_unit4, by decide, by decide, inv_unitFrame, by decide, by decide, _, rfl, by decide⟩

theorem witness_SfbTakeEffect : (core4 0).cfg.mode = .core ∧ Inv unit4 ∧ unit4.cfg.mode = .unit ∧ unit4.sfbReady = false ∧
    Inv unitFrame ∧ unitFrame.cfg.mode = .unit ∧ unitFrame.sfbReady = true ∧
    ∃ t, exec (.sUsbtx true) (coreFull 5) = .next t ∧ (coreFull 5).sfbReady = true ∧ t.sfbReady = false :=
  ⟨by decide, inv_unit4, by decide, by decide, inv_unitFrame, by decide, by decide, _, rfl, by decide, by decide⟩

theorem witness_StagingLaw : Inv unitFrame ∧ unitFrame.cfg.mode = .unit := ⟨inv_unitFrame, by decide⟩

theorem witness_FrameOperationFrames : (∃ t, exec (.faFeed 0x04) unitFrame = .next t) ∧
    (∃ t, exec (.sfbStage ⟨1, 2, 3, 4⟩) unitFrame = .next t) ∧ ∃ t, exec .sfbTake unitFrame = .next t :=
  ⟨⟨_, rfl⟩, ⟨_, rfl⟩, _, rfl⟩

theorem witness_SWdtEffect : (core4 0).cfg.mode = .core ∧ (core4 0).phase = 0 := by decide

/-- A packet longer than the buffer, then a disable. -/
theorem witness_SPollDelivers : Inv (core4 1) ∧ (core4 1).cfg.mode = .core ∧ (core4 1).phase = 1 ∧
    pollVerdict (core4 1).cfg.flowctlEn (core4 1).fcDis [.packet [1, 2, 3, 4, 5, 6, 7, 8, 9], .flowDisable] = none :=
  ⟨inv_core4.2.1, by decide, by decide, by decide⟩

/-- Without flow control and with it; a packet after a disable of the same poll and of an earlier one; a disable where none is built. -/
theorem witness_PollAdmission : ((false = true → [([1] : List Byte)] = []) ∧ (true = false → 2 = 0)) ∧
    pollVerdict true false [.packet [1], .flowDisable, .flowDisable] = none ∧
    ((core4 1).cfg.mode = .core ∧ (core4 1).phase = 1 ∧
      pollVerdict (core4 1).cfg.flowctlEn (core4 1).fcDis [.flowDisable] = none ∧ .flowDisable ∈ [UsbEvent.flowDisable]) ∧
    ((coreFull 1).phase = 1 ∧ pollVerdict (coreFull 1).cfg.flowctlEn (coreFull 1).fcDis [] = none ∧ (coreFull 1).fcDis = true) ∧
    (let s : State := { core4 1 with cfg := { k := 2, maxPkt := 1, flowctlEn := false, mode := .core } }
     s.cfg.mode = .core ∧ s.phase = 1 ∧ s.cfg.flowctlEn = false ∧ pollVerdict s.cfg.flowctlEn s.fcDis [.packet [1]] = none) := by
  decide

theorem witness_SUtxEffect : Inv (core4 2) ∧ (core4 2).cfg.mode = .core ∧ (core4 2).phase = 2 ∧ (core4 2).rbWr = (core4 2).rbRd ∧
    Inv (coreFull 2) ∧ (coreFull 2).cfg.mode = .core ∧ (coreFull 2).phase = 2 ∧ (coreFull 2).rbWr ≠ (coreFull 2).rbRd :=
  ⟨inv_core4.2.2.1, by decide, by decide, by decide, inv_coreFull.2.2.1, by decide, by decide, by decide⟩

/-- One byte below the low-water mark, and at it. -/
theorem witness_SFlowEffect :
    (let s : State := { coreLow 3 with rbRd := 2 }
     s.cfg.mode = .core ∧ s.phase = 3 ∧ s.cfg.flowctlEn = true ∧ s.fcDis = true ∧ s.occ < s.cap - s.cfg.maxPkt) ∧
    (coreLow 3).cfg.mode = .core ∧ (coreLow 3).phase = 3 ∧ (coreLow 3).occ = (coreLow 3).cap - (coreLow 3).cfg.maxPkt := by decide

theorem witness_SUrxEffect : Inv (core4 4) ∧ (core4 4).cfg.mode = .core ∧ (core4 4).phase = 4 ∧ (core4 4).faCount ≠ 3 ∧
    Inv (coreFull 4) ∧ (coreFull 4).cfg.mode = .core ∧ (coreFull 4).phase = 4 ∧ (coreFull 4).faCount = 3 :=
  ⟨inv_core4.2.2.2.2.1, by decide, by decide, by decide, inv_coreFull.2.2.2.2.1, by decide, by decide, by decide⟩

theorem witness_SUsbtxEffect : Inv (core4 5) ∧ (core4 5).cfg.mode = .core ∧ (core4 5).phase = 5 ∧ (core4 5).sfbReady = false ∧
    Inv (coreFull 5) ∧ (coreFull 5).cfg.mode = .core ∧ (coreFull 5).phase = 5 ∧ (coreFull 5).sfbReady = true :=
  ⟨inv_core4.2.2.2.2.2, by decide, by decide, by decide, inv_coreFull.2.2.2.2.2, by decide, by decide, by decide⟩

/-- The first phase and the last. -/
theorem witness_PhaseOperationCompletes : Inv (coreFull 0) ∧ (coreFull 0).cfg.mode = .core ∧
    Instr.sWdt.requiredPhase = some (coreFull 0).phase ∧ Inv (coreFull 5) ∧ (coreFull 5).cfg.mode = .core ∧
    (Instr.sUsbtx true).requiredPhase = some (coreFull 5).phase :=
  ⟨inv_coreFull.1, by decide, by decide, inv_coreFull.2.2.2.2.2, by decide, by decide⟩

/-- Its poll: the premise about the events is met. -/
theorem witness_PhaseOperationCompletes_poll : Inv (core4 1) ∧
    (Instr.sPoll [.packet [1, 2, 3, 4]]).requiredPhase = some (core4 1).phase ∧
    ∀ events, Instr.sPoll [.packet [1, 2, 3, 4]] = .sPoll events →
      pollVerdict (core4 1).cfg.flowctlEn (core4 1).fcDis events = none :=
  ⟨inv_core4.2.1, by decide, fun _ h => by cases h; decide⟩

theorem witness_SchedulerFrames : (∃ t, exec .sWdt (coreFull 0) = .next t) ∧ (∃ t, exec (.sUtx true) (coreFull 2) = .next t) ∧
    (∃ t, exec .sFlow (coreFull 3) = .next t) ∧ (∃ t, exec (.sUrx (some 1)) (coreFull 4) = .next t) ∧
    ∃ t, exec (.sUsbtx true) (coreFull 5) = .next t :=
  ⟨⟨_, rfl⟩, ⟨_, rfl⟩, ⟨_, rfl⟩, ⟨_, rfl⟩, _, rfl⟩

theorem witness_PollFrame : (∃ t, exec (.sPoll [.packet [1, 2, 3, 4]]) { State.reset with phase := 1 } = .next t) ∧
    ∀ k, k < ([UsbEvent.packet [1, 2, 3, 4]].flatMap eventBytes).length → 31 ≠ (State.reset.rbWr + k) % State.reset.cap :=
  ⟨⟨_, rfl⟩, by decide⟩

theorem witness_IterationBounds : Inv (coreFull 0) ∧ (coreFull 0).cfg.mode = .core ∧ (coreFull 0).phase = 0 ∧
    pollVerdict (coreFull 0).cfg.flowctlEn (coreFull 0).fcDis [.flowDisable] = none :=
  ⟨inv_coreFull.1, by decide, by decide, by decide⟩

/-- Its four clauses. -/
theorem witness_SameIterationForwarding :
    (Inv (core4 1) ∧ (core4 1).cfg.mode = .core ∧ (core4 1).phase = 1 ∧ (core4 1).fcDis = false ∧ (core4 1).occ = 0 ∧
      3 ≤ [1, 2, (3 : Byte)].length ∧ [1, 2, (3 : Byte)].length < (core4 1).cap) ∧
    (Inv (coreFull 4) ∧ (coreFull 4).cfg.mode = .core ∧ (coreFull 4).phase = 4 ∧ (coreFull 4).faCount = 3) ∧
    (Inv (coreLow 2) ∧ (coreLow 2).cfg.mode = .core ∧ (coreLow 2).phase = 2 ∧ (coreLow 2).cfg.flowctlEn = true ∧
      (coreLow 2).fcDis = true ∧ (coreLow 2).occ = (coreLow 2).cap - (coreLow 2).cfg.maxPkt) :=
  ⟨⟨inv_core4.2.1, by decide, by decide, by decide, by decide, by decide, by decide⟩,
    ⟨inv_coreFull.2.2.2.2.1, by decide, by decide, by decide⟩, inv_coreLow.1, by decide, by decide, by decide, by decide, by decide⟩

theorem witness_FlowControlPersistence : Inv (coreFull 2) ∧ (coreFull 2).cfg.mode = .core ∧ (coreFull 2).fcDis = true ∧
    isReset (.sUtx true) = false ∧ ∃ t, exec (.sUtx true) (coreFull 2) = .next t :=
  ⟨inv_coreFull.2.2.1, by decide, by decide, by decide, _, rfl⟩

/-- Operations of one iteration, from a full buffer. -/
theorem witness_UartOrder_UsbOrder : Inv (coreFull 2) ∧ (coreFull 2).cfg.mode = .core ∧
    [Instr.sUtx true, .sFlow, .sUrx (some 9), .sUsbtx true].all (fun i => !isReset i) = true ∧
    ∃ t, runOps [.sUtx true, .sFlow, .sUrx (some 9), .sUsbtx true] (coreFull 2) = .next t ∧ t.refusals = (coreFull 2).refusals :=
  ⟨inv_coreFull.2.2.1, by decide, by decide, _, rfl, rfl⟩

/-- A packet and one byte of it sent, without an incident. -/
theorem witness_NoIncidentNoLoss : Inv (core4 1) ∧ (core4 1).cfg.mode = .core ∧
    [Instr.sPoll [.packet [1, 2, 3, 4]], .sUtx true].all (fun i => !isReset i) = true ∧
    ∃ t, runOps [.sPoll [.packet [1, 2, 3, 4]], .sUtx true] (core4 1) = .next t ∧ t.refusals = (core4 1).refusals ∧
      t.incidents = (core4 1).incidents ++ [] ∧ lossless [] = true :=
  ⟨inv_core4.2.1, by decide, by decide, _, rfl, rfl, rfl, rfl⟩

/-- One iteration in which a frame is completed and sent. -/
theorem witness_FramesKeptWhileEndpointReady : Inv { coreFull 0 with sfbReady := false } ∧
    { coreFull 0 with sfbReady := false }.cfg.mode = .core ∧ { coreFull 0 with sfbReady := false }.phase = 0 ∧
    ∃ t, runOps ([(([] : List UsbEvent), true, some (9 : Byte))].flatMap fun d => iterOps d.1 d.2.1 d.2.2 true)
      { coreFull 0 with sfbReady := false } = .next t ∧ t.refusals = { coreFull 0 with sfbReady := false }.refusals :=
  ⟨inv_of_check (by decide), by decide, by decide, _, rfl, rfl⟩

theorem witness_StepKeepsInvariant : Inv { coreFull 2 with stream := [0xA0, 0x01] } ∧
    ∃ t, step { coreFull 2 with stream := [0xA0, 0x01] } = .next t :=
  ⟨inv_of_check (by decide), _, rfl⟩

/-- The smallest ring, and the largest low-water offset. -/
theorem witness_InvariantAtReset : Params.Ok { k := 2, maxPkt := 1, flowctlEn := false, mode := .unit } ∧
    Params.Ok { k := 5, maxPkt := 31, flowctlEn := true, mode := .core } := by decide

theorem witness_NoOperationFaults : Inv (coreFull 2) ∧ ∃ t, exec (.sUtx true) (coreFull 2) = .next t :=
  ⟨inv_coreFull.2.2.1, _, rfl⟩

theorem witness_RecordsOnlyGrow : ∃ t, exec (.reset .external) (coreFull 3) = .next t := ⟨_, rfl⟩

/-- One byte held, at different cursors and with different stale bytes; a step from both. -/
theorem witness_UnobservableStateIrrelevant : Inv { unitOne with stream := [0x20] } ∧
    Inv { unit4 with rbWr := 2, rbRd := 1, rbMem := [(1, 0x5A), (3, 0x77)], stream := [0x20], faStage := unitFrame.faStage } ∧
    ObsEq { unitOne with stream := [0x20] }
      { unit4 with rbWr := 2, rbRd := 1, rbMem := [(1, 0x5A), (3, 0x77)], stream := [0x20], faStage := unitFrame.faStage } ∧
    ∃ t, step { unitOne with stream := [0x20] } = .next t :=
  ⟨inv_of_check (by decide), inv_of_check (by decide),
    ⟨rfl, by decide, rfl, by decide, by decide, rfl, rfl, rfl, rfl, rfl, rfl, rfl⟩, _, rfl⟩

/-- Each clause: a poll that stores and disables, a byte sent, a frame staged, a frame sent, acceptance re-enabled. -/
theorem witness_SingleWriterSingleReader : (core4 1).cfg.mode = .core ∧
    (∃ t, exec (.sPoll [.packet [1, 2, 3, 4], .flowDisable]) (core4 1) = .next t ∧ t.rbMem ≠ (core4 1).rbMem ∧
      (core4 1).fcDis = false ∧ t.fcDis = true) ∧
    (∃ t, exec (.sUtx true) (coreFull 2) = .next t ∧ t.trace = (coreFull 2).trace ++ [.uartTx 0xB0] ∧ uartBytes [.uartTx 0xB0] ≠ []) ∧
    (∃ t, exec (.sUrx (some 0)) (coreFull 4) = .next t ∧ t.sfbFrame ≠ (coreFull 4).sfbFrame) ∧
    (∃ t, exec (.sUsbtx true) (coreFull 5) = .next t ∧ t.trace = (coreFull 5).trace ++ [.usbTx ⟨0x0A, 0x0B, 0x0C, 0x0D⟩] ∧
      usbFrames [.usbTx ⟨0x0A, 0x0B, 0x0C, 0x0D⟩] ≠ []) ∧
    ∃ t, exec .sFlow { coreLow 3 with rbRd := 2 } = .next t ∧ (coreLow 3).fcDis = true ∧ t.fcDis = false :=
  ⟨rfl, ⟨_, rfl, by decide, by decide, by decide⟩, ⟨_, rfl, rfl, by decide⟩, ⟨_, rfl, by decide⟩, ⟨_, rfl, rfl, by decide⟩, _, rfl,
    by decide, by decide⟩

/-- Its clauses for the other three outputs. -/
theorem witness_SingleWriterSingleReader_events :
    (∃ t, exec .sWdt (core4 0) = .next t ∧ t.trace = (core4 0).trace ++ [.wdtKick] ∧ Event.wdtKick ∈ [Event.wdtKick]) ∧
    (∃ t, exec (.sPoll []) (core4 1) = .next t ∧ t.trace = (core4 1).trace ++ [.usbPoll] ∧ Event.usbPoll ∈ [Event.usbPoll]) ∧
    ∃ t, exec .sFlow { coreLow 3 with rbRd := 2 } = .next t ∧ t.trace = (coreLow 3).trace ++ [.usbRxEnable] ∧
      Event.usbRxEnable ∈ [Event.usbRxEnable] :=
  ⟨⟨_, rfl, rfl, by decide⟩, ⟨_, rfl, rfl, by decide⟩, _, rfl, rfl, by decide⟩

/-- An accepted command with another behind it, and one refused for each verdict that leaves no known end. -/
theorem witness_CommandEndIsWhereDecodingEnds : decode [0x10, 0x41, 0x20] = .ok (.rbPush 0x41, [0x20]) ∧
    decode [0x70, 0x20] = .error .reservedOpcode ∧ decode [0x90, 0x01, 0x03, 0x20] = .error .badEventTag ∧
    decode [0x50, 0x01] = .error .truncated := by decide

/-- Each clause: the smallest low bits before an operand, a reserved bit of FLG, one of FLGB, and data without its flag. -/
theorem witness_DecodingGoesOnAfterReservedBits :
    ({ State.reset with stream := [0x11, 0x41, 0x20] }.faultMark = none ∧ (Instr.rbPush 0x41).wellFormed = true ∧ (1 : BitVec 4) ≠ 0 ∧
      ([0x11, 0x41, 0x20] : List Byte) = ((Instr.rbPush 0x41).opcode ++ (1 : BitVec 4)) :: (encodeOperands (.rbPush 0x41) ++ [0x20])) ∧
    (0x02 : Byte).extractLsb' 1 7 ≠ 0 ∧ (0x80 : Byte).extractLsb' 1 7 ≠ 0 ∧ (0x01 : Byte) ≠ 0x00 ∧ (0xFF : Byte) ≠ 0x00 := by decide

/-- The frame pending at the start is overwritten in the first iteration. -/
theorem witness_FrameLostOnlyWhileEndpointBusy : Inv (coreFull 0) ∧ (coreFull 0).cfg.mode = .core ∧ (coreFull 0).phase = 0 ∧
    runOps (([] : List Draws).flatMap Draws.ops) (coreFull 0) = .next (coreFull 0) ∧
    (∃ u, runOps (Draws.ops ⟨[], false, some 0x01, true⟩) (coreFull 0) = .next u ∧ u.refusals = (coreFull 0).refusals ∧
      u.incidents = (coreFull 0).incidents ++ [.sfbOverwrite ⟨0x0A, 0x0B, 0x0C, 0x0D⟩]) ∧
    ⟨0x0A, 0x0B, 0x0C, 0x0D⟩ ∈ droppedFrames [.sfbOverwrite ⟨0x0A, 0x0B, 0x0C, 0x0D⟩] :=
  ⟨inv_coreFull.1, by decide, by decide, rfl, ⟨_, rfl, rfl, rfl⟩, by decide⟩

end Sys2Proof.Tests
end

/-! PROOFS for 00_scope.md: which operations a mode admits (R8), and when the machine takes no step (R12). -/

namespace Sys2Proof.Machine

/-! ## The guard each operation runs under (30_encoding R73) -/

/-- A component operation runs under the admission check of the UNIT mode, whatever it then does. -/
theorem exec_eq_asUnit {i : Instr} (h : i.requiredMode = some .unit) (s : State) : ∃ body, exec i s = s.asUnit body := by
  cases i with
  | rbPush | rbPop | dmxPacket | faFeed | sfbStage | sfbTake => exact ⟨_, rfl⟩
  | sWdt | sPoll | sUtx | sFlow | sUrx | sUsbtx | reset => cases h

/-- A scheduler operation runs under the admission check of the CORE mode and its phase, whatever it then does. -/
theorem exec_eq_asPhase {i : Instr} {p : BitVec 3} (h : i.requiredPhase = some p) (s : State) :
    ∃ body, exec i s = s.asPhase p body := by
  cases i with
  | sWdt | sPoll | sUtx | sFlow | sUrx | sUsbtx => cases h; exact ⟨_, rfl⟩
  | rbPush | rbPop | dmxPacket | faFeed | sfbStage | sfbTake | reset => cases h

/-- Columns "mode" and "required phase" of R73 agree: the operations of the CORE mode are those with a phase. -/
theorem requiredMode_core_iff (i : Instr) : i.requiredMode = some .core ↔ ∃ p, i.requiredPhase = some p := by
  cases i <;> simp [Instr.requiredMode, Instr.requiredPhase]

/-! ## There are two modes (00_scope R8) -/

theorem mode_ne_unit_iff {m : Mode} : m ≠ .unit ↔ m = .core := by
  cases m <;> decide

theorem mode_ne_core_iff {m : Mode} : m ≠ .core ↔ m = .unit := by
  cases m <;> decide

/-! ## When the step performs no operation -/

theorem step_of_faulted {s : State} {r : Fault} (h : s.faultMark = some r) : step s = .fault r := by
  simp [step, State.fetch, h]

theorem step_of_idle {s : State} (hf : s.faultMark = none) (hs : s.stream = []) : step s = .refused .endOfStream := by
  simp [step, State.fetch, hf, hs]

/-! ## The statements -/

/-- Settles O11: each operation runs under one of the two guards, and both refuse in the other mode before anything else. -/
theorem wrongModeRefused : Obligations.WrongModeRefused := by
  intro i s m hreq hmode
  cases m with
  | unit =>
    obtain ⟨body, hexec⟩ := exec_eq_asUnit hreq s
    exact hexec.trans (asUnit_of_core (mode_ne_unit_iff.mp hmode) body)
  | core =>
    obtain ⟨p, hphase⟩ := (requiredMode_core_iff i).mp hreq
    obtain ⟨body, hexec⟩ := exec_eq_asPhase hphase s
    exact hexec.trans (asPhase_of_unit (mode_ne_core_iff.mp hmode) body)

/-- Settles O10: the fetch looks at the fault mark first and at the stream second. -/
theorem stepStopsWhenFaultedOrIdle : Obligations.StepStopsWhenFaultedOrIdle :=
  ⟨fun _ _ => step_of_faulted, fun _ => step_of_idle⟩

end Sys2Proof.Machine

/-! PROOFS for 10_state.md: what every step keeps (R30), what the component operations leave unchanged (R21 to R25), that the
records only grow (R31, R35), and the state after reset (R29). -/

namespace Sys2Proof.Machine

/-! ## What a step is -/

/-- A step that gives a next state refused the bytes in front of the stream, or performed the operation they encode. -/
theorem step_cases {s t : State} (h : step s = .next t) :
    (∃ v, decode s.stream = .error v ∧ t = s.refuseStream v) ∨
    ∃ i rest, decode s.stream = .ok (i, rest) ∧ exec i { s with stream := rest } = .next t := by
  cases hf : s.faultMark with
  | some r => simp [step, State.fetch, hf] at h
  | none =>
    cases hs : s.stream with
    | nil => simp [step, State.fetch, hf, hs] at h
    | cons b bs =>
      cases hd : decode (b :: bs) with
      | error v =>
        simp only [step, State.fetch, hf, hs, hd] at h
        exact .inl ⟨v, rfl, (Host.Outcome.next.inj h).symm⟩
      | ok p =>
        simp only [step, State.fetch, hf, hs, hd] at h
        exact .inr ⟨p.1, p.2, rfl, h⟩

/-! ## The invariant after reset (10_state R29) -/

@[simp] theorem get_unwritten (i : BitVec 2) : Slots.unwritten.get i = none := by
  rcases bitVec2_cases i with rfl | rfl | rfl | rfl <;> rfl

theorem inv_resetWith {p : Params} (hp : p.Ok) : Inv (State.resetWith p) := by
  have hcap : 0 < 2 * (State.resetWith p).cap := Nat.mul_pos (by decide) (cap_pos _)
  have hocc : (State.resetWith p).occ = 0 := (occ_eq_zero_iff hcap hcap).mpr rfl
  exact {
    cfgOk := hp
    ring := ⟨hcap, hcap, rfl, hocc.trans_le (Nat.zero_le _), fun k hk => absurd (hocc ▸ hk) (Nat.not_lt_zero k)⟩
    frame := ⟨fun i hi => absurd hi (Nat.not_lt_zero _), Bool.noConfusion⟩
    phaseLegal := Nat.zero_le 5
    flowBuilt := fun _ => rfl
    wrAligned := fun _ => rfl
    unitPhase := fun _ => rfl
    notFaulted := rfl }

/-! ## The invariant under changes of single fields -/

/-- The invariant says nothing of the stream, the trace, the incidents and the refusals. -/
theorem Inv.withRecords {s : State} (h : Inv s) (stream : List Byte) (trace : List Event) (incidents : List Incident)
    (refusals : List Verdict) :
    Inv { s with stream := stream, trace := trace, incidents := incidents, refusals := refusals } :=
  ⟨h.cfgOk, h.ring.congr rfl rfl rfl rfl, h.frame.congr rfl rfl rfl rfl, h.phaseLegal, h.flowBuilt, h.wrAligned, h.unitPhase,
    h.notFaulted⟩

theorem Inv.emit {s : State} (h : Inv s) (e : Event) : Inv (s.emit e) := h.withRecords ..

theorem Inv.refuse {s : State} (h : Inv s) (v : Verdict) : Inv (s.refuse v) := h.withRecords ..

theorem Inv.refuseStream {s : State} (h : Inv s) (v : Verdict) : Inv (s.refuseStream v) := h.withRecords ..

/-- The scheduler moves to any legal phase (10_state R27). -/
theorem Inv.setPhase {s : State} (h : Inv s) (hm : s.cfg.mode = .core) {p : BitVec 3} (hp : p.toNat ≤ 5) :
    Inv (s.setPhase p) :=
  ⟨h.cfgOk, h.ring.congr rfl rfl rfl rfl, h.frame.congr rfl rfl rfl rfl, hp, h.flowBuilt, h.wrAligned,
    fun hu => Mode.noConfusion (hm.symm.trans hu), h.notFaulted⟩

/-- Acceptance may be re-enabled in every configuration. -/
theorem Inv.acceptanceEnabled {s : State} (h : Inv s) : Inv { s with fcDis := false } :=
  ⟨h.cfgOk, h.ring.congr rfl rfl rfl rfl, h.frame.congr rfl rfl rfl rfl, h.phaseLegal, fun _ => rfl, h.wrAligned, h.unitPhase,
    h.notFaulted⟩

theorem Inv.resetElements {s : State} (h : Inv s) : Inv s.resetElements :=
  have h0 := inv_resetWith h.cfgOk
  ⟨h0.cfgOk, h0.ring.congr rfl rfl rfl rfl, h0.frame.congr rfl rfl rfl rfl, h0.phaseLegal, h0.flowBuilt, h0.wrAligned,
    h0.unitPhase, h.notFaulted⟩

/-- A change of the ring alone keeps the invariant if it keeps the ring part, and with it R30 (f) and (g). -/
theorem Inv.of_sameOutsideRing {s t : State} (h : Inv s) (hs : SameOutsideRing s t) (hring : RingOk t)
    (hflow : s.cfg.flowctlEn = false → t.fcDis = false) (hwr : s.cfg.mode = .core → t.rbWr % 4 = 0) : Inv t where
  cfgOk := hs.cfg ▸ h.cfgOk
  ring := hring
  frame := h.frame.congr hs.faCount.symm hs.faStage.symm hs.sfbReady.symm hs.sfbFrame.symm
  phaseLegal := hs.phase ▸ h.phaseLegal
  flowBuilt := hs.cfg ▸ hflow
  wrAligned := hs.cfg ▸ hwr
  unitPhase := hs.cfg ▸ hs.phase ▸ h.unitPhase
  notFaulted := hs.faultMark.trans h.notFaulted

/-- A change of the serial-to-USB side alone keeps the invariant if it keeps that side's part. -/
theorem Inv.of_sameOutsideFrame {s t : State} (h : Inv s) (hs : SameOutsideFrame s t) (hframe : FrameOk t) : Inv t where
  cfgOk := hs.cfg ▸ h.cfgOk
  ring := hs.ring h.ring
  frame := hframe
  phaseLegal := hs.phase ▸ h.phaseLegal
  flowBuilt := hs.cfg ▸ hs.fcDis ▸ h.flowBuilt
  wrAligned := hs.cfg ▸ hs.rbWr ▸ h.wrAligned
  unitPhase := hs.cfg ▸ hs.phase ▸ h.unitPhase
  notFaulted := hs.faultMark.trans h.notFaulted

/-! ## The alignment of `RB.wr` and the admission of a poll -/

/-- `2N` is a multiple of 4, so `RB.wr` stays one when it advances by whole groups. -/
theorem Inv.wrAligned_add {s : State} (h : Inv s) (hm : s.cfg.mode = .core) {n : Nat} (hn : 4 ∣ n) :
    (s.rbWr + n) % (2 * s.cap) % 4 = 0 := by
  have hcap : 4 ∣ 2 * s.cap := Dvd.dvd.mul_left (Nat.pow_dvd_pow 2 h.cfgOk.1) 2
  rw [Nat.mod_mod_of_dvd _ hcap]
  exact Nat.mod_eq_zero_of_dvd ((Nat.dvd_add_right (Nat.dvd_of_mod_eq_zero (h.wrAligned hm))).mpr hn)

theorem four_dvd_groupBytes_length (data : List Byte) : 4 ∣ (groupBytes data).length :=
  groupBytes_length data ▸ Nat.dvd_mul_right 4 _

/-- A poll pushes whole groups. -/
theorem four_dvd_eventBytes_length : ∀ evs : List UsbEvent, 4 ∣ (evs.flatMap eventBytes).length
  | [] => Nat.dvd_zero 4
  | ev :: evs => by
    have hev : 4 ∣ (eventBytes ev).length := by
      cases ev with
      | packet data => exact four_dvd_groupBytes_length data
      | flowDisable => exact Nat.dvd_zero 4
    rw [List.flatMap_cons, List.length_append]
    exact Nat.dvd_add hev (four_dvd_eventBytes_length evs)

/-- Where flow control is not built, an admitted poll holds no disable (44_scheduler R143). -/
theorem no_flowDisable_of_admitted : ∀ {evs : List UsbEvent} {d : Bool}, pollVerdict false d evs = none →
    evs.any isFlowDisable = false
  | [], _, _ => rfl
  | .flowDisable :: _, _, h => by simp [pollVerdict] at h
  | .packet _ :: evs, d, h => by
    cases d with
    | true => simp [pollVerdict] at h
    | false => exact no_flowDisable_of_admitted (evs := evs) h

/-! ## The shared operations succeed and keep the invariant -/

theorem push_keeps_inv {s : State} (h : Inv s) (hm : s.cfg.mode = .unit) (b : Byte) : ∃ t, s.push b = .ok t ∧ Inv t := by
  obtain ⟨t, ht, hring, hsame, hfc, -⟩ := push_spec h.ring b
  exact ⟨t, ht, h.of_sameOutsideRing hsame hring (hfc ▸ h.flowBuilt) fun hc => Mode.noConfusion (hm.symm.trans hc)⟩

theorem pop_keeps_inv {s : State} (h : Inv s) : ∃ r t, s.pop = .ok (r, t) ∧ t.cfg = s.cfg ∧ Inv t := by
  obtain ⟨t, ht, hring, hsame, hfc, -, -, hwr, -⟩ := pop_spec h.ring
  exact ⟨_, t, ht, hsame.cfg, h.of_sameOutsideRing hsame hring (hfc ▸ h.flowBuilt) (hwr ▸ h.wrAligned)⟩

theorem demux_keeps_inv {s : State} (h : Inv s) (data : List Byte) : ∃ t, s.demux data = .ok t ∧ Inv t := by
  obtain ⟨t, ht, hring, hsame, hfc, -, -, hwr, -⟩ := demux_spec data h.ring
  exact ⟨t, ht, h.of_sameOutsideRing hsame hring (hfc ▸ h.flowBuilt)
    fun hm => hwr ▸ h.wrAligned_add hm (four_dvd_groupBytes_length data)⟩

theorem deliverAll_keeps_inv {s : State} (h : Inv s) {evs : List UsbEvent}
    (hv : pollVerdict s.cfg.flowctlEn s.fcDis evs = none) : ∃ t, s.deliverAll evs = .ok t ∧ t.cfg = s.cfg ∧ Inv t := by
  obtain ⟨t, ht, hring, hsame, hfc, -, -, hwr, -⟩ := deliverAll_spec evs h.ring
  refine ⟨t, ht, hsame.cfg, h.of_sameOutsideRing hsame hring (fun hb => ?_)
    fun hm => hwr ▸ h.wrAligned_add hm (four_dvd_eventBytes_length evs)⟩
  rw [hfc, h.flowBuilt hb, no_flowDisable_of_admitted (hb ▸ hv)]
  rfl

theorem stage_keeps_inv {s : State} (h : Inv s) (f : Frame) : ∃ t, s.stage f = .ok t ∧ Inv t := by
  obtain ⟨t, ht, hframe, hsame, -⟩ := stage_spec h.frame f
  exact ⟨t, ht, h.of_sameOutsideFrame hsame hframe⟩

theorem take_keeps_inv {s : State} (h : Inv s) : ∃ r t, s.take = .ok (r, t) ∧ t.cfg = s.cfg ∧ Inv t := by
  obtain ⟨t, ht, hframe, hsame, -⟩ := take_spec h.frame
  exact ⟨_, t, ht, hsame.cfg, h.of_sameOutsideFrame hsame hframe⟩

theorem feed_keeps_inv {s : State} (h : Inv s) (b : Byte) : ∃ c t, s.feed b = .ok (c, t) ∧ t.cfg = s.cfg ∧ Inv t := by
  by_cases hc : s.faCount = 3
  · obtain ⟨t, -, ht, -, hframe, hsame, -⟩ := feed_complete h.frame hc b
    exact ⟨_, t, ht, hsame.cfg, h.of_sameOutsideFrame hsame hframe⟩
  · obtain ⟨t, ht, hframe, hsame, -⟩ := feed_partial h.frame hc b
    exact ⟨_, t, ht, hsame.cfg, h.of_sameOutsideFrame hsame hframe⟩

/-! ## Every operation keeps the invariant -/

/-- A component operation keeps the invariant if its body, run in UNIT mode, raises nothing and keeps it. -/
theorem asUnit_keeps_inv {s t : State} {body : Except Fault State} (h : Inv s) (hx : s.asUnit body = .next t)
    (hbody : s.cfg.mode = .unit → ∃ u, body = .ok u ∧ Inv u) : Inv t := by
  cases hm : s.cfg.mode with
  | core =>
    rw [asUnit_of_core hm] at hx
    exact Host.Outcome.next.inj hx ▸ h.refuse _
  | unit =>
    obtain ⟨u, rfl, hu⟩ := hbody hm
    rw [asUnit_of_unit hm, settle_ok] at hx
    exact Host.Outcome.next.inj hx ▸ hu

/-- A scheduler operation keeps the invariant if its body, run in CORE mode and in its phase, raises nothing and keeps it: the
phase is legal, so BadPhase is not raised. -/
theorem asPhase_keeps_inv {s t : State} {p : BitVec 3} {body : Except Fault State} (h : Inv s)
    (hx : s.asPhase p body = .next t) (hbody : s.cfg.mode = .core → ∃ u, body = .ok u ∧ Inv u) : Inv t := by
  cases hm : s.cfg.mode with
  | unit =>
    rw [asPhase_of_unit hm] at hx
    exact Host.Outcome.next.inj hx ▸ h.refuse _
  | core =>
    by_cases hp : s.phase = p
    · obtain ⟨u, rfl, hu⟩ := hbody hm
      rw [asPhase_of_phase hm hp (hp ▸ h.phaseLegal), settle_ok] at hx
      exact Host.Outcome.next.inj hx ▸ hu
    · rw [asPhase_of_other hm hp h.phaseLegal] at hx
      exact Host.Outcome.next.inj hx ▸ h.refuse _

theorem execSPoll_keeps_inv {s t : State} {evs : List UsbEvent} (h : Inv s) (hx : execSPoll evs s = .next t) : Inv t := by
  refine asPhase_keeps_inv h hx fun hm => ?_
  cases hv : pollVerdict s.cfg.flowctlEn s.fcDis evs with
  | some v => exact ⟨_, rfl, h.refuse v⟩
  | none =>
    obtain ⟨u, hu, hcfg, hinv⟩ := deliverAll_keeps_inv (h.emit .usbPoll) hv
    exact ⟨u.setPhase 2, by simp only [State.poll, hu], hinv.setPhase (hcfg ▸ hm) (by decide)⟩

theorem execSUtx_keeps_inv {s t : State} {ready : Bool} (h : Inv s) (hx : execSUtx ready s = .next t) : Inv t := by
  refine asPhase_keeps_inv h hx fun hm => ?_
  split
  · obtain ⟨r, u, hu, hcfg, hinv⟩ := pop_keeps_inv h
    rw [hu]
    cases r with
    | none => exact ⟨_, rfl, hinv.setPhase (hcfg ▸ hm) (by decide)⟩
    | some b => exact ⟨_, rfl, (hinv.emit _).setPhase (hcfg ▸ hm) (by decide)⟩
  · exact ⟨_, rfl, h.setPhase hm (by decide)⟩

theorem execSFlow_keeps_inv {s t : State} (h : Inv s) (hx : execSFlow s = .next t) : Inv t := by
  refine asPhase_keeps_inv h hx fun hm => ?_
  split
  · exact ⟨_, rfl, (h.acceptanceEnabled.emit _).setPhase hm (by decide)⟩
  · exact ⟨_, rfl, h.setPhase hm (by decide)⟩

theorem execSUrx_keeps_inv {s t : State} {rx : Option Byte} (h : Inv s) (hx : execSUrx rx s = .next t) : Inv t := by
  refine asPhase_keeps_inv h hx fun hm => ?_
  cases rx with
  | none => exact ⟨_, rfl, h.setPhase hm (by decide)⟩
  | some b =>
    obtain ⟨c, u, hu, hcfg, hinv⟩ := feed_keeps_inv h b
    exact ⟨u.setPhase 5, by simp only [hu, readyOr_of_feed hu], hinv.setPhase (hcfg ▸ hm) (by decide)⟩

theorem execSUsbtx_keeps_inv {s t : State} {ready : Bool} (h : Inv s) (hx : execSUsbtx ready s = .next t) : Inv t := by
  refine asPhase_keeps_inv h hx fun hm => ?_
  split
  · obtain ⟨r, u, hu, hcfg, hinv⟩ := take_keeps_inv h
    rw [hu]
    cases r with
    | none => exact ⟨_, rfl, hinv.setPhase (hcfg ▸ hm) (by decide)⟩
    | some f => exact ⟨_, rfl, (hinv.emit _).setPhase (hcfg ▸ hm) (by decide)⟩
  · exact ⟨_, rfl, h.setPhase hm (by decide)⟩

/-- The invariant is kept by every operation, refused or performed; with it, none raises a fault. -/
theorem exec_keeps_inv {i : Instr} {s t : State} (h : Inv s) (hx : exec i s = .next t) : Inv t := by
  cases i with
  | rbPush b => exact asUnit_keeps_inv h hx fun hm => push_keeps_inv h hm b
  | rbPop =>
    refine asUnit_keeps_inv h hx fun _ => ?_
    obtain ⟨r, u, hu, -, hinv⟩ := pop_keeps_inv h
    exact ⟨_, by simp only [hu], hinv.emit (.popResult r)⟩
  | dmxPacket data => exact asUnit_keeps_inv h hx fun _ => demux_keeps_inv h data
  | faFeed b =>
    refine asUnit_keeps_inv h hx fun _ => ?_
    obtain ⟨c, u, hu, -, hinv⟩ := feed_keeps_inv h b
    exact ⟨_, by simp only [hu], hinv.emit (.feedResult c)⟩
  | sfbStage f => exact asUnit_keeps_inv h hx fun _ => stage_keeps_inv h f
  | sfbTake =>
    refine asUnit_keeps_inv h hx fun _ => ?_
    obtain ⟨r, u, hu, -, hinv⟩ := take_keeps_inv h
    exact ⟨_, by simp only [hu], hinv.emit (.takeResult r)⟩
  | sWdt => exact asPhase_keeps_inv h hx fun hm => ⟨_, rfl, (h.emit _).setPhase hm (by decide)⟩
  | sPoll events => exact execSPoll_keeps_inv h hx
  | sUtx txReady => exact execSUtx_keeps_inv h hx
  | sFlow => exact execSFlow_keeps_inv h hx
  | sUrx rx => exact execSUrx_keeps_inv h hx
  | sUsbtx inReady => exact execSUsbtx_keeps_inv h hx
  | reset cause =>
    have hnote : Inv (s.note (resetIncident cause)) := h.withRecords ..
    exact Host.Outcome.next.inj hx ▸ hnote.resetElements

/-! ## What the component operations leave unchanged (10_state R21 to R25) -/

/-- The fields outside the ring, gathered into one equation of states. -/
theorem SameOutsideRing.eq_with {s t : State} (h : SameOutsideRing s t) (hfc : t.fcDis = s.fcDis) :
    t = { s with rbWr := t.rbWr, rbRd := t.rbRd, rbMem := t.rbMem, incidents := t.incidents, refusals := t.refusals,
                 faultMark := t.faultMark } := by
  rw [← h.cfg, ← h.faCount, ← h.faStage, ← h.sfbFrame, ← h.sfbReady, ← hfc, ← h.phase, ← h.stream, ← h.trace]

/-- The fields outside the serial-to-USB side, gathered into one equation of states. -/
theorem SameOutsideFrame.eq_with {s t : State} (h : SameOutsideFrame s t) :
    t = { s with faCount := t.faCount, faStage := t.faStage, sfbFrame := t.sfbFrame, sfbReady := t.sfbReady,
                 incidents := t.incidents } := by
  rw [← h.cfg, ← h.rbWr, ← h.rbRd, ← h.rbMem, ← h.fcDis, ← h.phase, ← h.stream, ← h.trace, ← h.refusals, ← h.faultMark]

theorem execRbPush_frame {s t : State} {b : Byte} (h : exec (.rbPush b) s = .next t) :
    t = { s with rbWr := t.rbWr, rbRd := t.rbRd, rbMem := t.rbMem, incidents := t.incidents, refusals := t.refusals,
                 faultMark := t.faultMark } ∧
    ∀ a, a ≠ s.rbWr % s.cap → t.memRead a = s.memRead a := by
  rcases exec_cases h with ⟨v, rfl⟩ | ⟨r, rfl⟩ | ⟨-, hpush⟩
  · exact ⟨rfl, fun _ _ => rfl⟩
  · exact ⟨rfl, fun _ _ => rfl⟩
  · obtain ⟨hsame, hfc, -, -, hmem⟩ := push_inv hpush
    exact ⟨hsame.eq_with hfc, fun a ha => by rw [State.memRead, hmem]; exact read_write_other ha _⟩

theorem execRbPop_frame {s t : State} (h : exec .rbPop s = .next t) :
    t = { s with rbRd := t.rbRd, trace := t.trace, refusals := t.refusals, faultMark := t.faultMark } ∧
    ∀ a, t.memRead a = s.memRead a := by
  rcases exec_cases h with ⟨v, rfl⟩ | ⟨r, rfl⟩ | ⟨-, r, u, hpop, rfl⟩
  · exact ⟨rfl, fun _ => rfl⟩
  · exact ⟨rfl, fun _ => rfl⟩
  · rcases pop_inv hpop with ⟨rfl, -⟩ | ⟨-, rfl, -⟩ <;> exact ⟨rfl, fun _ => rfl⟩

theorem execDmxPacket_frame {s t : State} {data : List Byte} (h : exec (.dmxPacket data) s = .next t) :
    t = { s with rbWr := t.rbWr, rbRd := t.rbRd, rbMem := t.rbMem, incidents := t.incidents, refusals := t.refusals,
                 faultMark := t.faultMark } ∧
    ∀ a, (∀ k, k < 4 * (data.length / 4) → a ≠ (s.rbWr + k) % s.cap) → t.memRead a = s.memRead a := by
  rcases exec_cases h with ⟨v, rfl⟩ | ⟨r, rfl⟩ | ⟨-, hdemux⟩
  · exact ⟨rfl, fun _ _ => rfl⟩
  · exact ⟨rfl, fun _ _ => rfl⟩
  · obtain ⟨hsame, hfc, -, -, -, hmem⟩ := demux_inv hdemux
    rw [groupBytes_length] at hmem
    exact ⟨hsame.eq_with hfc, hmem⟩

theorem execFaFeed_frame {s t : State} {b : Byte} (h : exec (.faFeed b) s = .next t) :
    t = { s with faCount := t.faCount, faStage := t.faStage, sfbFrame := t.sfbFrame, sfbReady := t.sfbReady, trace := t.trace,
                 incidents := t.incidents, refusals := t.refusals, faultMark := t.faultMark } ∧
    ∀ a, t.memRead a = s.memRead a := by
  rcases exec_cases h with ⟨v, rfl⟩ | ⟨r, rfl⟩ | ⟨-, c, u, hfeed, rfl⟩
  · exact ⟨rfl, fun _ => rfl⟩
  · exact ⟨rfl, fun _ => rfl⟩
  · rw [(feed_inv hfeed).1.eq_with]
    exact ⟨rfl, fun _ => rfl⟩

theorem execSfbStage_frame {s t : State} {f : Frame} (h : exec (.sfbStage f) s = .next t) :
    t = { s with sfbFrame := t.sfbFrame, sfbReady := t.sfbReady, incidents := t.incidents, refusals := t.refusals,
                 faultMark := t.faultMark } ∧
    ∀ a, t.memRead a = s.memRead a := by
  rcases exec_cases h with ⟨v, rfl⟩ | ⟨r, rfl⟩ | ⟨-, hstage⟩
  · exact ⟨rfl, fun _ => rfl⟩
  · exact ⟨rfl, fun _ => rfl⟩
  · obtain ⟨hsame, hcount, hslots, -⟩ := stage_inv hstage
    rw [hsame.eq_with, hcount, hslots]
    exact ⟨rfl, fun _ => rfl⟩

theorem execSfbTake_frame {s t : State} (h : exec .sfbTake s = .next t) :
    t = { s with sfbReady := t.sfbReady, trace := t.trace, refusals := t.refusals, faultMark := t.faultMark } ∧
    ∀ a, t.memRead a = s.memRead a := by
  rcases exec_cases h with ⟨v, rfl⟩ | ⟨r, rfl⟩ | ⟨-, r, u, htake, rfl⟩
  · exact ⟨rfl, fun _ => rfl⟩
  · exact ⟨rfl, fun _ => rfl⟩
  · obtain ⟨rfl, -⟩ := take_inv htake
    exact ⟨rfl, fun _ => rfl⟩

/-! ## The records only grow (10_state R31, R35) -/

/-- The records of `t` continue those of `s`, a fault raised stays raised, and the parameters and the stream are the same. -/
structure RecordsGrow (s t : State) : Prop where
  trace : s.trace <+: t.trace
  incidents : s.incidents <+: t.incidents
  refusals : s.refusals <+: t.refusals
  faultMark : s.faultMark ≠ none → t.faultMark ≠ none
  cfg : t.cfg = s.cfg
  stream : t.stream = s.stream

theorem RecordsGrow.refl (s : State) : RecordsGrow s s :=
  ⟨List.prefix_rfl, List.prefix_rfl, List.prefix_rfl, id, rfl, rfl⟩

theorem RecordsGrow.trans {s t u : State} (h : RecordsGrow s t) (k : RecordsGrow t u) : RecordsGrow s u :=
  ⟨h.trace.trans k.trace, h.incidents.trans k.incidents, h.refusals.trans k.refusals, k.faultMark ∘ h.faultMark,
    k.cfg.trans h.cfg, k.stream.trans h.stream⟩

theorem RecordsGrow.emit {s t : State} (h : RecordsGrow s t) (e : Event) : RecordsGrow s (t.emit e) :=
  { h with trace := h.trace.trans (List.prefix_append _ _) }

theorem RecordsGrow.refuse {s t : State} (h : RecordsGrow s t) (v : Verdict) : RecordsGrow s (t.refuse v) :=
  { h with refusals := h.refusals.trans (List.prefix_append _ _) }

theorem RecordsGrow.raise {s t : State} (h : RecordsGrow s t) (r : Fault) : RecordsGrow s (t.raise r) :=
  { h with faultMark := fun _ => Option.some_ne_none r }

theorem RecordsGrow.setPhase {s t : State} (h : RecordsGrow s t) (p : BitVec 3) : RecordsGrow s (t.setPhase p) :=
  { h with }

theorem SameOutsideRing.recordsGrow {s t : State} (h : SameOutsideRing s t) (hi : s.incidents <+: t.incidents) :
    RecordsGrow s t :=
  ⟨h.trace ▸ List.prefix_rfl, hi, h.refusals ▸ List.prefix_rfl, fun hf => h.faultMark ▸ hf, h.cfg, h.stream⟩

theorem SameOutsideFrame.recordsGrow {s t : State} (h : SameOutsideFrame s t) (hi : s.incidents <+: t.incidents) :
    RecordsGrow s t :=
  ⟨h.trace ▸ List.prefix_rfl, hi, h.refusals ▸ List.prefix_rfl, fun hf => h.faultMark ▸ hf, h.cfg, h.stream⟩

/-- An operation that was admitted and raised nothing only adds to the records. -/
theorem Effect.recordsGrow {i : Instr} {s t : State} (h : Effect i s t) : RecordsGrow s t := by
  have hs := RecordsGrow.refl s
  have hskip : RecordsGrow s s.skip := { hs with }
  have htaken : RecordsGrow s { s with sfbReady := false } := { hs with }
  have henabled : RecordsGrow s { s with fcDis := false } := { hs with }
  cases i with
  | rbPush b =>
    obtain ⟨-, hpush⟩ := h
    obtain ⟨hsame, -, hinc, -⟩ := push_inv hpush
    exact hsame.recordsGrow hinc
  | rbPop =>
    obtain ⟨-, r, u, hpop, rfl⟩ := h
    rcases pop_inv hpop with ⟨rfl, -⟩ | ⟨-, rfl, -⟩
    · exact hs.emit _
    · exact hskip.emit _
  | dmxPacket data =>
    obtain ⟨-, hdemux⟩ := h
    obtain ⟨hsame, -, hinc, -⟩ := demux_inv hdemux
    exact hsame.recordsGrow hinc
  | faFeed b =>
    obtain ⟨-, c, u, hfeed, rfl⟩ := h
    obtain ⟨hsame, -, -, hinc⟩ := feed_inv hfeed
    exact (hsame.recordsGrow hinc).emit _
  | sfbStage f =>
    obtain ⟨-, hstage⟩ := h
    obtain ⟨hsame, -, -, -, hinc⟩ := stage_inv hstage
    exact hsame.recordsGrow hinc
  | sfbTake =>
    obtain ⟨-, r, u, htake, rfl⟩ := h
    obtain ⟨rfl, -⟩ := take_inv htake
    exact htaken.emit _
  | sWdt =>
    obtain ⟨-, -, rfl⟩ := h
    exact (hs.emit _).setPhase _
  | sPoll events =>
    obtain ⟨-, -, -, u, hdeliver, rfl⟩ := h
    obtain ⟨hsame, -, hinc, -⟩ := deliverAll_inv hdeliver
    exact ((hs.emit .usbPoll).trans (hsame.recordsGrow hinc)).setPhase _
  | sUtx txReady =>
    obtain ⟨-, -, ⟨-, -, b, -, rfl⟩ | ⟨-, rfl⟩⟩ := h
    · exact (hskip.emit _).setPhase _
    · exact hs.setPhase _
  | sFlow =>
    obtain ⟨-, -, ⟨-, rfl⟩ | ⟨-, rfl⟩⟩ := h
    · exact (henabled.emit _).setPhase _
    · exact hs.setPhase _
  | sUrx rx =>
    cases rx with
    | none =>
      obtain ⟨-, -, rfl⟩ := h
      exact hs.setPhase _
    | some b =>
      obtain ⟨-, -, c, u, hfeed, rfl⟩ := h
      obtain ⟨hsame, -, -, hinc⟩ := feed_inv hfeed
      exact (hsame.recordsGrow hinc).setPhase _
  | sUsbtx inReady =>
    obtain ⟨-, -, ⟨-, -, f, -, rfl⟩ | ⟨-, rfl⟩⟩ := h
    · exact (htaken.emit _).setPhase _
    · exact hs.setPhase _
  | reset cause =>
    obtain rfl : t = (s.note (resetIncident cause)).resetElements := h
    exact { hs with incidents := List.prefix_append _ _ }

theorem exec_recordsGrow {i : Instr} {s t : State} (h : exec i s = .next t) : RecordsGrow s t := by
  rcases exec_cases h with ⟨v, rfl⟩ | ⟨r, rfl⟩ | heffect
  · exact (RecordsGrow.refl s).refuse v
  · exact (RecordsGrow.refl s).raise r
  · exact heffect.recordsGrow

/-! ## The statements -/

/-- Settles O49: a step refuses bytes, which changes the records and the stream only, or performs an operation. -/
theorem stepKeepsInvariant : Obligations.StepKeepsInvariant := by
  intro s t h hstep
  rcases step_cases hstep with ⟨v, -, rfl⟩ | ⟨i, rest, -, hexec⟩
  · exact h.refuseStream v
  · exact exec_keeps_inv (h.withRecords rest ..) hexec

/-- Settles O20: in every state, a push stores where `push_inv` says, a pop nowhere, a packet where its groups go. -/
theorem ringOperationFrames : Obligations.RingOperationFrames :=
  ⟨fun _ _ _ => execRbPush_frame, fun _ _ => execRbPop_frame, fun _ _ _ => execDmxPacket_frame⟩

/-- Settles O29: what the three operations write is what `feed_inv`, `stage_inv` and `take_inv` name. -/
theorem frameOperationFrames : Obligations.FrameOperationFrames :=
  ⟨fun _ _ _ => execFaFeed_frame, fun _ _ _ => execSfbStage_frame, fun _ _ => execSfbTake_frame⟩

/-- Settles O52: each operation's effect, a refusal and a raised fault only add to the records. -/
theorem recordsOnlyGrow : Obligations.RecordsOnlyGrow := by
  intro i s t h
  obtain ⟨htrace, hinc, href, hfault, hcfg, hstream⟩ := exec_recordsGrow h
  exact ⟨htrace, hinc, href, hfault, hcfg, hstream⟩

/-- Settles O38: each register's reset value is read off `State.resetWith`. -/
theorem resetValues : Obligations.ResetValues :=
  ⟨rfl, rfl, fun _ => rfl, rfl, get_unwritten, get_unwritten, rfl, rfl, rfl, rfl, rfl, rfl, rfl, rfl, rfl, rfl⟩

/-- Settles O50: the reference configuration meets the constraints of 00_scope R9. -/
theorem invariantAtReset : Obligations.InvariantAtReset :=
  ⟨inv_resetWith (p := Params.reference) (by decide), fun _ => inv_resetWith⟩

end Sys2Proof.Machine

/-! PROOFS for 20_memory.md: the order in which bytes and frames pass through CORE (R64), and which operation writes, sets, clears
and emits what in CORE mode (R60). -/

namespace Sys2Proof.Machine

/-! ## Runs of admitted scheduler operations -/

/-- An operation that had its effect ran in the mode it requires (30_encoding R73). -/
theorem Effect.mode_eq {i : Instr} {s t : State} {m : Mode} (h : Effect i s t) (hi : i.requiredMode = some m) :
    s.cfg.mode = m := by
  cases i with
  | reset cause => cases hi
  | sUrx rx =>
    cases hi
    cases rx with
    | none | some b => exact h.1
  | rbPush | rbPop | dmxPacket | faFeed | sfbStage | sfbTake | sWdt | sPoll | sUtx | sFlow | sUsbtx =>
    cases hi
    exact h.1

/-- What has its effect in CORE mode and is no reset is a scheduler operation. -/
theorem Effect.requiredMode_core {i : Instr} {s t : State} (h : Effect i s t) (hm : s.cfg.mode = .core)
    (hi : isReset i = false) : i.requiredMode = some .core := by
  cases hr : i.requiredMode with
  | some m => rw [← h.mode_eq hr, hm]
  | none =>
    cases i with
    | reset cause => cases hi
    | _ => cases hr

/-- An operation that was not refused had its effect: where the invariant holds, none raises a fault. -/
theorem effect_of_not_refused {i : Instr} {s t : State} (h : Inv s) (hexec : exec i s = .next t)
    (href : t.refusals = s.refusals) : Effect i s t := by
  rcases exec_cases hexec with ⟨v, rfl⟩ | ⟨r, rfl⟩ | heffect
  · simp at href
  · have hfault := (exec_keeps_inv h hexec).notFaulted
    simp at hfault
  · exact heffect

theorem runOps_cons {i : Instr} {is : List Instr} {s u : State} (h : runOps (i :: is) s = .next u) :
    ∃ t, exec i s = .next t ∧ runOps is t = .next u := by
  obtain ⟨t, ht⟩ := exec_next i s
  exact ⟨t, ht, by simpa only [runOps, ht] using h⟩

theorem runOps_recordsGrow : ∀ {is : List Instr} {s t : State}, runOps is s = .next t → RecordsGrow s t
  | [], s, t, h => Host.Outcome.next.inj h ▸ .refl s
  | _ :: _, _, _, h => by
    obtain ⟨u, hexec, hrun⟩ := runOps_cons h
    exact (exec_recordsGrow hexec).trans (runOps_recordsGrow hrun)

/-- A run of scheduler operations, each of which had its effect, through states that meet the invariant. -/
inductive SchedulerRun : List Instr → State → State → Prop where
  | nil {s : State} : Inv s → SchedulerRun [] s s
  | cons {i : Instr} {is : List Instr} {s t u : State} :
      Inv s → i.requiredMode = some .core → Effect i s t → SchedulerRun is t u → SchedulerRun (i :: is) s u

/-- The refusals only grow, so a run that added none was refused nowhere. -/
theorem schedulerRun_of_runOps : ∀ {is : List Instr} {s t : State}, Inv s → s.cfg.mode = .core →
    is.all (fun i => !isReset i) = true → runOps is s = .next t → t.refusals = s.refusals → SchedulerRun is s t
  | [], s, t, h, _, _, hrun, _ => Host.Outcome.next.inj hrun ▸ .nil h
  | i :: is, s, t, h, hm, hreset, hrun, href => by
    obtain ⟨u, hexec, hrest⟩ := runOps_cons hrun
    have hstep := exec_recordsGrow hexec
    have hsu : s.refusals = u.refusals :=
      hstep.refusals.eq_of_length_le (href ▸ (runOps_recordsGrow hrest).refusals.length_le)
    have heffect := effect_of_not_refused h hexec hsu.symm
    simp only [List.all_cons, Bool.and_eq_true, Bool.not_eq_eq_eq_not, Bool.not_true] at hreset
    exact .cons h (heffect.requiredMode_core hm hreset.1) heffect
      (schedulerRun_of_runOps (exec_keeps_inv h hexec) (hstep.cfg ▸ hm) hreset.2 hrest (href.trans hsu))

/-! ## Marked sequences -/

theorem marked_append {α : Type} (m : Bool) (l r : List (Bool × α)) : marked m (l ++ r) = marked m l ++ marked m r := by
  simp [marked]

theorem marked_same {α : Type} (m : Bool) (l : List α) : marked m (l.map (Prod.mk m)) = l := by
  simp [marked, List.filter_map, Function.comp_def]

theorem marked_true_lost {α : Type} (l : List α) : marked true (l.map (Prod.mk false)) = [] := by
  simp [marked, List.filter_map, Function.comp_def]

theorem map_snd_pair {α : Type} (m : Bool) (l : List α) : (l.map (Prod.mk m)).map Prod.snd = l := by
  simp [Function.comp_def]

/-! ## What a log names -/

theorem droppedBytes_append (a b : List Incident) : droppedBytes (a ++ b) = droppedBytes a ++ droppedBytes b :=
  List.filterMap_append

theorem droppedFrames_append (a b : List Incident) : droppedFrames (a ++ b) = droppedFrames a ++ droppedFrames b :=
  List.filterMap_append

theorem droppedBytes_rbOverwrite (l : List Byte) : droppedBytes (l.map .rbOverwrite) = l := by
  simp [droppedBytes, List.filterMap_map]

theorem droppedBytes_sfbOverwrite (l : List Frame) : droppedBytes (l.map .sfbOverwrite) = [] := by
  simp [droppedBytes, List.filterMap_map]

theorem droppedFrames_sfbOverwrite (l : List Frame) : droppedFrames (l.map .sfbOverwrite) = l := by
  simp [droppedFrames, List.filterMap_map]

theorem droppedFrames_rbOverwrite (l : List Byte) : droppedFrames (l.map .rbOverwrite) = [] := by
  simp [droppedFrames, List.filterMap_map]

/-! ## A first-in first-out channel through CORE -/

/-- One direction through CORE: what it holds in a state, oldest first, and which of its items a trace records as sent and a log
as lost. -/
structure Channel (α : Type) where
  held : State → List α
  sent : List Event → List α
  lost : List Incident → List α
  sent_append : ∀ a b, sent (a ++ b) = sent a ++ sent b
  lost_append : ∀ a b, lost (a ++ b) = lost a ++ lost b

/-- USB to serial: the ring buffer's bytes, sent to the UART or dropped by an overflow. -/
def uartChannel : Channel Byte where
  held := State.held
  sent := uartBytes
  lost := droppedBytes
  sent_append := fun _ _ => List.filterMap_append
  lost_append := droppedBytes_append

/-- Serial to USB: the pending frame, sent over USB or overwritten. -/
def usbChannel : Channel Frame where
  held s := s.pending.toList
  sent := usbFrames
  lost := droppedFrames
  sent_append := fun _ _ => List.filterMap_append
  lost_append := droppedFrames_append

/-- From `s` to `t`, where `input` entered the channel `c`, a front of what it held and was given left it, in order: each item of
that front was sent (mark true) or lost (mark false), and the rest is held. -/
def Flow {α : Type} (c : Channel α) (input : List α) (s t : State) : Prop :=
  ∃ es ls removed, t.trace = s.trace ++ es ∧ t.incidents = s.incidents ++ ls ∧
    c.held s ++ input = removed.map Prod.snd ++ c.held t ∧
    c.sent es = marked true removed ∧ c.lost ls = marked false removed

section Flow

variable {α : Type} {c : Channel α} {s t u : State}

theorem Channel.sent_nil (c : Channel α) : c.sent [] = [] :=
  List.self_eq_append_right.mp (c.sent_append [] [])

theorem Channel.lost_nil (c : Channel α) : c.lost [] = [] :=
  List.self_eq_append_right.mp (c.lost_append [] [])

/-- Nothing enters or leaves the channel. -/
theorem Flow.idle {es : List Event} {ls : List Incident} (htrace : t.trace = s.trace ++ es)
    (hinc : t.incidents = s.incidents ++ ls) (hheld : c.held t = c.held s) (hsent : c.sent es = [])
    (hlost : c.lost ls = []) : Flow c [] s t :=
  ⟨es, ls, [], htrace, hinc, by rw [hheld]; exact List.append_nil _, hsent, hlost⟩

/-- Nothing enters or leaves the channel, and nothing is recorded. -/
theorem Flow.silent (htrace : t.trace = s.trace) (hinc : t.incidents = s.incidents) (hheld : c.held t = c.held s) :
    Flow c [] s t :=
  .idle (es := []) (ls := []) (by simpa) (by simpa) hheld c.sent_nil c.lost_nil

/-- Nothing enters or leaves the channel, and an event of something else is emitted. -/
theorem Flow.emit {e : Event} (htrace : t.trace = s.trace ++ [e]) (hinc : t.incidents = s.incidents)
    (hheld : c.held t = c.held s) (hsent : c.sent [e] = []) : Flow c [] s t :=
  .idle (ls := []) htrace (by simpa) hheld hsent c.lost_nil

/-- The oldest item is sent. -/
theorem Flow.send {x : α} {e : Event} (htrace : t.trace = s.trace ++ [e]) (hinc : t.incidents = s.incidents)
    (hheld : c.held s = x :: c.held t) (hsent : c.sent [e] = [x]) : Flow c [] s t :=
  ⟨[e], [], [(true, x)], htrace, by simpa, by rw [hheld]; exact List.append_nil _, hsent, c.lost_nil⟩

/-- Items enter, and the oldest ones are lost. -/
theorem Flow.enter {input gone : List α} {es : List Event} {ls : List Incident} (htrace : t.trace = s.trace ++ es)
    (hinc : t.incidents = s.incidents ++ ls) (hheld : c.held s ++ input = gone ++ c.held t) (hsent : c.sent es = [])
    (hlost : c.lost ls = gone) : Flow c input s t :=
  ⟨es, ls, gone.map (Prod.mk false), htrace, hinc, by rw [map_snd_pair, hheld], by rw [hsent, marked_true_lost],
    by rw [hlost, marked_same]⟩

/-- Flows compose: what left in the first leaves before what leaves in the second. -/
theorem Flow.trans {x y : List α} (h : Flow c x s t) (k : Flow c y t u) : Flow c (x ++ y) s u := by
  obtain ⟨es, ls, out, htrace, hinc, hheld, hsent, hlost⟩ := h
  obtain ⟨es', ls', out', htrace', hinc', hheld', hsent', hlost'⟩ := k
  refine ⟨es ++ es', ls ++ ls', out ++ out', ?_, ?_, ?_, ?_, ?_⟩
  · rw [htrace', htrace, List.append_assoc]
  · rw [hinc', hinc, List.append_assoc]
  · rw [← List.append_assoc, hheld, List.append_assoc, hheld', List.map_append, List.append_assoc]
  · rw [c.sent_append, hsent, hsent', marked_append]
  · rw [c.lost_append, hlost, hlost', marked_append]

end Flow

/-! ## What S_URX feeds -/

theorem FrameOk.partial_length_lt {s : State} (h : FrameOk s) : s.partialFrame.length < 4 :=
  h.partial_length ▸ s.faCount.isLt

/-- A feed adds its byte to the frame being assembled, or completes it: then the frame is pending, and one that was pending before
is recorded as overwritten. -/
theorem feed_cases {s u : State} {b : Byte} {c : Bool} (h : FrameOk s) (hfeed : s.feed b = .ok (c, u)) :
    SameOutsideFrame s u ∧
    ((u.incidents = s.incidents ∧ u.pending = s.pending ∧ u.partialFrame = s.partialFrame ++ [b] ∧
        u.partialFrame.length < 4) ∨
      ∃ f, f.bytes = s.partialFrame ++ [b] ∧ u.incidents = s.incidents ++ s.pending.toList.map .sfbOverwrite ∧
        u.pending = some f ∧ u.partialFrame = []) := by
  by_cases hc : s.faCount = 3
  · obtain ⟨t, f, ht, hbytes, -, hsame, -, -, -, -, hpend, hpart, hinc⟩ := feed_complete h hc b
    obtain ⟨-, rfl⟩ := Prod.mk.inj (Except.ok.inj (hfeed.symm.trans ht))
    exact ⟨hsame, .inr ⟨f, hbytes, hinc, hpend, hpart⟩⟩
  · obtain ⟨t, ht, hok, hsame, -, -, -, -, hpend, hpart, hinc⟩ := feed_partial h hc b
    obtain ⟨-, rfl⟩ := Prod.mk.inj (Except.ok.inj (hfeed.symm.trans ht))
    exact ⟨hsame, .inl ⟨hinc, hpend, hpart, hok.partial_length_lt⟩⟩

/-! ## USB to serial -/

/-- The bytes that the incidents of one poll event name are those the event pushed out. -/
theorem droppedBytes_eventIncidents {n : Nat} {h : List Byte} (hlen : h.length ≤ n) (ev : UsbEvent) :
    droppedBytes (eventIncidents n h ev) = lose n (h ++ eventBytes ev) := by
  cases ev with
  | packet data =>
    have htrunc : droppedBytes (if fragment data = 0 then [] else [.pktTrunc (fragment data)]) = [] := by
      split <;> rfl
    rw [eventIncidents, droppedBytes_append, droppedBytes_rbOverwrite, htrunc, List.append_nil]
    rfl
  | flowDisable =>
    show [] = lose n (h ++ [])
    rw [List.append_nil, lose_of_le hlen]

/-- The bytes that the incidents of a whole poll name are those the poll pushed out. -/
theorem droppedBytes_pollIncidents {n : Nat} : ∀ {h : List Byte} (evs : List UsbEvent), h.length ≤ n →
    droppedBytes (pollIncidents n h evs) = lose n (h ++ evs.flatMap eventBytes)
  | h, [], hlen => by
    show [] = lose n (h ++ [])
    rw [List.append_nil, lose_of_le hlen]
  | h, ev :: evs, hlen => by
    have hkeep : (keepLast n (h ++ eventBytes ev)).length ≤ n := by
      rw [keepLast, List.length_drop]
      omega
    calc droppedBytes (pollIncidents n h (ev :: evs))
      _ = droppedBytes (eventIncidents n h ev) ++
            droppedBytes (pollIncidents n (keepLast n (h ++ eventBytes ev)) evs) := droppedBytes_append _ _
      _ = lose n (h ++ eventBytes ev) ++ lose n (keepLast n (h ++ eventBytes ev) ++ evs.flatMap eventBytes) := by
        rw [droppedBytes_eventIncidents hlen, droppedBytes_pollIncidents evs hkeep]
      _ = lose n (h ++ (ev :: evs).flatMap eventBytes) := by
        rw [lose_append, List.flatMap_cons, List.append_assoc]

/-- What the events of a poll change, from the state before the poll. -/
theorem poll_delivers {evs : List UsbEvent} {s u : State} (h : RingOk s)
    (hdeliver : (s.emit .usbPoll).deliverAll evs = .ok u) :
    SameOutsideRing (s.emit .usbPoll) u ∧ u.held = keepLast s.cap (s.held ++ evs.flatMap eventBytes) ∧
      u.incidents = s.incidents ++ pollIncidents s.cap s.held evs := by
  have hring : RingOk (s.emit .usbPoll) := h.congr rfl rfl rfl rfl
  obtain ⟨u', hu, -, hsame, -, hheld, hinc, -⟩ := deliverAll_spec evs hring
  obtain rfl := Except.ok.inj (hdeliver.symm.trans hu)
  exact ⟨hsame, hheld, hinc⟩

/-- A poll puts the bytes of its groups into the ring; the oldest bytes leave it where it overflows. -/
theorem poll_uartFlow {evs : List UsbEvent} {s u : State} (h : RingOk s)
    (hdeliver : (s.emit .usbPoll).deliverAll evs = .ok u) :
    Flow uartChannel (evs.flatMap eventBytes) s (u.setPhase 2) := by
  obtain ⟨hsame, hheld, hinc⟩ := poll_delivers h hdeliver
  refine .enter (gone := lose s.cap (s.held ++ evs.flatMap eventBytes)) hsame.trace hinc ?_ rfl
    (droppedBytes_pollIncidents evs h.held_length_le)
  show s.held ++ _ = _ ++ u.held
  rw [hheld, lose_append_keepLast]

/-- Each scheduler operation passes bytes from USB to serial in order: S_POLL enters them, S_UTX sends the oldest. -/
theorem Effect.uartFlow {i : Instr} {s t : State} (h : Inv s) (hi : i.requiredMode = some .core) (he : Effect i s t) :
    Flow uartChannel (pushedBy i) s t := by
  cases i with
  | rbPush | rbPop | dmxPacket | faFeed | sfbStage | sfbTake | reset => cases hi
  | sWdt =>
    obtain ⟨-, -, rfl⟩ := he
    exact .emit (e := .wdtKick) rfl rfl rfl rfl
  | sPoll events =>
    obtain ⟨-, -, -, u, hdeliver, rfl⟩ := he
    exact poll_uartFlow h.ring hdeliver
  | sUtx txReady =>
    obtain ⟨-, -, ⟨-, hne, b, hread, rfl⟩ | ⟨-, rfl⟩⟩ := he
    · obtain ⟨b', hread', hheld⟩ := h.ring.oldest hne
      obtain rfl := Option.some.inj (hread.symm.trans hread')
      exact .send (x := b) rfl rfl (hheld.trans (congrArg _ (skip_held h.ring hne).symm)) rfl
    · exact .silent rfl rfl rfl
  | sFlow =>
    obtain ⟨-, -, ⟨-, rfl⟩ | ⟨-, rfl⟩⟩ := he
    · exact .emit (e := .usbRxEnable) rfl rfl rfl rfl
    · exact .silent rfl rfl rfl
  | sUrx rx =>
    cases rx with
    | none =>
      obtain ⟨-, -, rfl⟩ := he
      exact .silent rfl rfl rfl
    | some b =>
      obtain ⟨-, -, c, u, hfeed, rfl⟩ := he
      obtain ⟨hsame, ⟨hinc, -⟩ | ⟨f, -, hinc, -⟩⟩ := feed_cases h.frame hfeed
      · exact .silent hsame.trace hinc hsame.held
      · exact .idle (hsame.trace.trans (List.append_nil _).symm) hinc hsame.held rfl (droppedBytes_sfbOverwrite _)
  | sUsbtx inReady =>
    obtain ⟨-, -, ⟨-, -, f, -, rfl⟩ | ⟨-, rfl⟩⟩ := he
    · exact .emit (e := .usbTx f) rfl rfl rfl rfl
    · exact .silent rfl rfl rfl

theorem SchedulerRun.uartFlow {is : List Instr} {s t : State} (h : SchedulerRun is s t) :
    Flow uartChannel (is.flatMap pushedBy) s t := by
  induction h with
  | nil _ => exact .silent rfl rfl rfl
  | cons h hi he _ ih => exact (he.uartFlow h hi).trans ih

/-! ## Frames cut out of a byte sequence -/

/-- The trailing bytes of a sequence that do not form a group of four. -/
def unfinished (l : List Byte) : List Byte := l.drop (4 * (l.length / 4))

theorem unfinished_of_short {l : List Byte} (h : l.length < 4) : unfinished l = l := by
  rw [unfinished, Nat.div_eq_of_lt h]
  rfl

theorem groups4_of_short {l : List Byte} (h : l.length < 4) : groups4 l = [] := by
  match l with
  | [] | [_] | [_, _] | [_, _, _] => rfl
  | _ :: _ :: _ :: _ :: _ => simp at h; omega

theorem unfinished_group (a b c d : Byte) (l : List Byte) : unfinished (a :: b :: c :: d :: l) = unfinished l := by
  have hlen : 4 * ((a :: b :: c :: d :: l).length / 4) = 4 * (l.length / 4) + 4 := by
    simp only [List.length_cons]
    omega
  rw [unfinished, hlen]
  rfl

theorem unfinished_bytes (f : Frame) : unfinished f.bytes = [] :=
  (unfinished_group f.f0 f.f1 f.f2 f.f3 []).trans (unfinished_of_short (by decide))

/-- Cutting a sequence into frames can stop anywhere and go on from the unfinished bytes. -/
theorem groups4_append : ∀ l r : List Byte, groups4 (l ++ r) = groups4 l ++ groups4 (unfinished l ++ r)
  | a :: b :: c :: d :: l, r => by
    rw [unfinished_group]
    exact congrArg (⟨a, b, c, d⟩ :: ·) (groups4_append l r)
  | [], r | [_], r | [_, _], r | [_, _, _], r => by
    rw [unfinished_of_short (by simp)]
    rfl

theorem unfinished_append : ∀ l r : List Byte, unfinished (l ++ r) = unfinished (unfinished l ++ r)
  | a :: b :: c :: d :: l, r => by
    rw [unfinished_group]
    exact (unfinished_group a b c d (l ++ r)).trans (unfinished_append l r)
  | [], r | [_], r | [_, _], r | [_, _, _], r =>
    congrArg (fun x => unfinished (x ++ r)) (unfinished_of_short (by simp)).symm

/-! ## Serial to USB -/

/-- From `s` to `t`, where the bytes `bs` were received, the frames they complete enter the channel to USB, and the bytes they leave
over are the partial frame. -/
structure SerialFlow (bs : List Byte) (s t : State) : Prop where
  frames : Flow usbChannel (groups4 (s.partialFrame ++ bs)) s t
  partialFrame : t.partialFrame = unfinished (s.partialFrame ++ bs)

theorem SerialFlow.trans {s t u : State} {x y : List Byte} (h : SerialFlow x s t) (k : SerialFlow y t u) :
    SerialFlow (x ++ y) s u where
  frames := by
    rw [← List.append_assoc, groups4_append, ← h.partialFrame]
    exact h.frames.trans k.frames
  partialFrame := by
    rw [← List.append_assoc, unfinished_append, ← h.partialFrame]
    exact k.partialFrame

/-- Where no byte is received, the partial frame stays. -/
theorem SerialFlow.of_flow {s t : State} (h : FrameOk s) (hflow : Flow usbChannel [] s t)
    (hpart : t.partialFrame = s.partialFrame) : SerialFlow [] s t where
  frames := by
    rw [List.append_nil, groups4_of_short h.partial_length_lt]
    exact hflow
  partialFrame := by
    rw [List.append_nil, unfinished_of_short h.partial_length_lt, hpart]

/-- An operation that leaves the serial-to-USB side alone. -/
theorem SerialFlow.silent {s t : State} (h : FrameOk s) (htrace : t.trace = s.trace) (hinc : t.incidents = s.incidents)
    (hpend : t.pending = s.pending) (hpart : t.partialFrame = s.partialFrame) : SerialFlow [] s t :=
  .of_flow h (.silent htrace hinc (congrArg Option.toList hpend)) hpart

/-- A received byte joins the partial frame, or completes a frame, which takes the place of the pending one. -/
theorem feed_serialFlow {s u : State} {b : Byte} {c : Bool} (h : FrameOk s) (hfeed : s.feed b = .ok (c, u)) :
    SerialFlow [b] s (u.setPhase 5) := by
  obtain ⟨hsame, ⟨hinc, hpend, hpart, hshort⟩ | ⟨f, hbytes, hinc, hpend, hpart⟩⟩ := feed_cases h hfeed
  · refine ⟨?_, ?_⟩ <;> rw [← hpart]
    · rw [groups4_of_short hshort]
      exact .silent hsame.trace hinc (congrArg Option.toList hpend)
    · exact (unfinished_of_short hshort).symm
  · refine ⟨?_, ?_⟩ <;> rw [← hbytes]
    · refine .enter (hsame.trace.trans (List.append_nil _).symm) hinc ?_ rfl (droppedFrames_sfbOverwrite _)
      exact congrArg (s.pending.toList ++ Option.toList ·) hpend.symm
    · exact hpart.trans (unfinished_bytes f).symm

theorem droppedFrames_pollIncidents {n : Nat} : ∀ (h : List Byte) (evs : List UsbEvent),
    droppedFrames (pollIncidents n h evs) = []
  | _, [] => rfl
  | h, ev :: evs => by
    have hev : droppedFrames (eventIncidents n h ev) = [] := by
      cases ev with
      | packet data =>
        rw [eventIncidents, droppedFrames_append, droppedFrames_rbOverwrite]
        split <;> rfl
      | flowDisable => rfl
    rw [pollIncidents, droppedFrames_append, hev, droppedFrames_pollIncidents]
    rfl

/-- Each scheduler operation passes frames from serial to USB in order: S_URX completes them, S_USBTX sends the pending one. -/
theorem Effect.serialFlow {i : Instr} {s t : State} (h : Inv s) (hi : i.requiredMode = some .core) (he : Effect i s t) :
    SerialFlow (receivedBy i) s t := by
  cases i with
  | rbPush | rbPop | dmxPacket | faFeed | sfbStage | sfbTake | reset => cases hi
  | sWdt =>
    obtain ⟨-, -, rfl⟩ := he
    exact .of_flow h.frame (.emit (e := .wdtKick) rfl rfl rfl rfl) rfl
  | sPoll events =>
    obtain ⟨-, -, -, u, hdeliver, rfl⟩ := he
    obtain ⟨hsame, -, hinc⟩ := poll_delivers h.ring hdeliver
    have hpend : u.pending = s.pending := pending_congr hsame.sfbReady hsame.sfbFrame
    exact .of_flow h.frame
      (.idle hsame.trace hinc (congrArg Option.toList hpend) rfl (droppedFrames_pollIncidents _ events))
      (partialFrame_congr hsame.faCount hsame.faStage)
  | sUtx txReady =>
    obtain ⟨-, -, ⟨-, -, b, -, rfl⟩ | ⟨-, rfl⟩⟩ := he
    · exact .of_flow h.frame (.emit (e := .uartTx b) rfl rfl rfl rfl) rfl
    · exact .silent h.frame rfl rfl rfl rfl
  | sFlow =>
    obtain ⟨-, -, ⟨-, rfl⟩ | ⟨-, rfl⟩⟩ := he
    · exact .of_flow h.frame (.emit (e := .usbRxEnable) rfl rfl rfl rfl) rfl
    · exact .silent h.frame rfl rfl rfl rfl
  | sUrx rx =>
    cases rx with
    | none =>
      obtain ⟨-, -, rfl⟩ := he
      exact .silent h.frame rfl rfl rfl rfl
    | some b =>
      obtain ⟨-, -, c, u, hfeed, rfl⟩ := he
      exact feed_serialFlow h.frame hfeed
  | sUsbtx inReady =>
    obtain ⟨-, -, ⟨-, hready, f, hread, rfl⟩ | ⟨-, rfl⟩⟩ := he
    · obtain ⟨f', hread', hpend⟩ := h.frame.pending_of_ready hready
      obtain rfl := Except.ok.inj (hread.symm.trans hread')
      exact .of_flow h.frame (.send (x := f) rfl rfl (congrArg Option.toList hpend) rfl) rfl
    · exact .silent h.frame rfl rfl rfl rfl

theorem SchedulerRun.serialFlow {is : List Instr} {s t : State} (h : SchedulerRun is s t) :
    SerialFlow (is.flatMap receivedBy) s t := by
  induction h with
  | nil h => exact .silent h.frame rfl rfl rfl rfl
  | cons h hi he _ ih => exact (he.serialFlow h hi).trans ih

/-! ## Which operation writes, sets, clears and emits what -/

/-- The one operation of CORE mode that an output event comes from (10_state R31); the results of UNIT operations come from none. -/
def EmittedBy (i : Instr) : Event → Prop
  | .wdtKick => i = .sWdt
  | .usbPoll => ∃ events, i = .sPoll events
  | .uartTx _ => i = .sUtx true
  | .usbRxEnable => i = .sFlow
  | .usbTx _ => i = .sUsbtx true
  | .popResult _ | .feedResult _ | .takeResult _ => False

/-- The storage, the frame, the acceptance flag and the trace change by the operations that own them only (20_memory R60). -/
structure CoreFootprint (i : Instr) (s t : State) : Prop where
  storage : t.rbMem ≠ s.rbMem → ∃ events, i = .sPoll events
  frame : t.sfbFrame ≠ s.sfbFrame → ∃ b, i = .sUrx (some b)
  disabled : s.fcDis = false → t.fcDis = true → ∃ events, i = .sPoll events
  enabled : s.fcDis = true → t.fcDis = false → i = .sFlow
  emitted : ∃ es, t.trace = s.trace ++ es ∧ ∀ e ∈ es, EmittedBy i e

/-- Storage, frame and flag are as they were, and one event at most was emitted. -/
theorem CoreFootprint.of_kept {i : Instr} {s t : State} (e : Option Event) (hmem : t.rbMem = s.rbMem)
    (hframe : t.sfbFrame = s.sfbFrame) (hdis : t.fcDis = s.fcDis) (htrace : t.trace = s.trace ++ e.toList)
    (he : ∀ x ∈ e, EmittedBy i x) : CoreFootprint i s t where
  storage h := absurd hmem h
  frame h := absurd hframe h
  disabled hs ht := absurd (hs.symm.trans (hdis.symm.trans ht)) Bool.false_ne_true
  enabled hs ht := absurd (ht.symm.trans (hdis.trans hs)) Bool.false_ne_true
  emitted := ⟨_, htrace, fun x hx => he x (Option.mem_toList.mp hx)⟩

/-- As `of_kept`, with no event. -/
theorem CoreFootprint.of_unchanged {i : Instr} {s t : State} (hmem : t.rbMem = s.rbMem)
    (hframe : t.sfbFrame = s.sfbFrame) (hdis : t.fcDis = s.fcDis) (htrace : t.trace = s.trace) : CoreFootprint i s t :=
  .of_kept none hmem hframe hdis (htrace.trans (List.append_nil _).symm) (fun _ hx => nomatch hx)

theorem Effect.coreFootprint {i : Instr} {s t : State} (hi : i.requiredMode = some .core) (he : Effect i s t) :
    CoreFootprint i s t := by
  cases i with
  | rbPush | rbPop | dmxPacket | faFeed | sfbStage | sfbTake | reset => cases hi
  | sWdt =>
    obtain ⟨-, -, rfl⟩ := he
    exact .of_kept (some .wdtKick) rfl rfl rfl rfl (by simp [EmittedBy])
  | sPoll events =>
    obtain ⟨-, -, -, u, hdeliver, rfl⟩ := he
    obtain ⟨hsame, hdis, -⟩ := deliverAll_inv hdeliver
    exact {
      storage := fun _ => ⟨events, rfl⟩
      frame := fun h => absurd hsame.sfbFrame h
      disabled := fun _ _ => ⟨events, rfl⟩
      enabled := fun hs ht => absurd (ht.symm.trans (hdis hs)) Bool.false_ne_true
      emitted := ⟨[.usbPoll], hsame.trace, by simp [EmittedBy]⟩ }
  | sUtx txReady =>
    obtain ⟨-, -, ⟨rfl, -, b, -, rfl⟩ | ⟨-, rfl⟩⟩ := he
    · exact .of_kept (some (.uartTx b)) rfl rfl rfl rfl (by simp [EmittedBy])
    · exact .of_unchanged rfl rfl rfl rfl
  | sFlow =>
    obtain ⟨-, -, ⟨-, rfl⟩ | ⟨-, rfl⟩⟩ := he
    · exact {
        storage := fun h => absurd rfl h
        frame := fun h => absurd rfl h
        disabled := fun _ ht => nomatch ht
        enabled := fun _ _ => rfl
        emitted := ⟨[.usbRxEnable], rfl, by simp [EmittedBy]⟩ }
    · exact .of_unchanged rfl rfl rfl rfl
  | sUrx rx =>
    cases rx with
    | none =>
      obtain ⟨-, -, rfl⟩ := he
      exact .of_unchanged rfl rfl rfl rfl
    | some b =>
      obtain ⟨-, -, c, u, hfeed, rfl⟩ := he
      obtain ⟨hsame, -⟩ := feed_inv hfeed
      have hkept : CoreFootprint (.sUrx (some b)) s { u.setPhase 5 with sfbFrame := s.sfbFrame } :=
        .of_unchanged hsame.rbMem rfl hsame.fcDis hsame.trace
      exact { hkept with frame := fun _ => ⟨b, rfl⟩ }
  | sUsbtx inReady =>
    obtain ⟨-, -, ⟨rfl, -, f, -, rfl⟩ | ⟨-, rfl⟩⟩ := he
    · exact .of_kept (some (.usbTx f)) rfl rfl rfl rfl (by simp [EmittedBy])
    · exact .of_unchanged rfl rfl rfl rfl

theorem exec_coreFootprint {i : Instr} {s t : State} (hm : s.cfg.mode = .core) (hreset : isReset i = false)
    (hexec : exec i s = .next t) : CoreFootprint i s t := by
  rcases exec_cases hexec with ⟨v, rfl⟩ | ⟨r, rfl⟩ | heffect
  · exact .of_unchanged rfl rfl rfl rfl
  · exact .of_unchanged rfl rfl rfl rfl
  · exact heffect.coreFootprint (heffect.requiredMode_core hm hreset)

theorem exists_uartTx {es : List Event} (h : uartBytes es ≠ []) : ∃ b, .uartTx b ∈ es := by
  obtain ⟨b, hb⟩ := List.exists_mem_of_ne_nil _ h
  obtain ⟨e, he, heb⟩ := List.mem_filterMap.mp hb
  split at heb
  · exact ⟨_, he⟩
  · cases heb

theorem exists_usbTx {es : List Event} (h : usbFrames es ≠ []) : ∃ f, .usbTx f ∈ es := by
  obtain ⟨f, hf⟩ := List.exists_mem_of_ne_nil _ h
  obtain ⟨e, he, hef⟩ := List.mem_filterMap.mp hf
  split at hef
  · exact ⟨_, he⟩
  · cases hef

/-! ## The statements -/

/-- Settles O45: each operation passes the bytes in order, and flows compose along the run. -/
theorem uartOrder : Obligations.UartOrder :=
  fun _ _ _ h hm hreset hrun href => (schedulerRun_of_runOps h hm hreset hrun href).uartFlow

/-- Settles O46: each operation passes the frames in order, and cutting the received bytes into frames goes on from the partial
frame. -/
theorem usbOrder : Obligations.UsbOrder := by
  intro is s t h hm hreset hrun href
  obtain ⟨⟨es, ls, removed, htrace, hinc, hheld, hsent, hlost⟩, hpart⟩ :=
    (schedulerRun_of_runOps h hm hreset hrun href).serialFlow
  exact ⟨es, ls, removed, htrace, hinc, hheld, hsent, hlost, hpart⟩

/-- Settles O55: the footprint of each scheduler operation; a refusal and a raised fault leave none. -/
theorem singleWriterSingleReader : Obligations.SingleWriterSingleReader := by
  intro i s t hm hreset hexec
  obtain ⟨hstorage, hframe, hdis, hen, es, htrace, hes⟩ := exec_coreFootprint hm hreset hexec
  have emitted : ∀ {es' e}, t.trace = s.trace ++ es' → e ∈ es' → EmittedBy i e := fun h he =>
    hes _ (List.append_cancel_left (htrace.symm.trans h) ▸ he)
  refine ⟨hstorage, fun es' h hb => ?_, hframe, fun es' h hf => ?_, fun _ h he => emitted h he, fun _ h he => emitted h he,
    fun _ h he => emitted h he, hdis, hen⟩
  · obtain ⟨b, hb⟩ := exists_uartTx hb
    exact emitted h hb
  · obtain ⟨f, hf⟩ := exists_usbTx hf
    exact emitted h hf

end Sys2Proof.Machine

/-! PROOFS for 30_encoding.md: that the decoder and the encoder agree (R72 to R76), which bytes are refused and where a refused command
ends (R77, R78), the admission of operations (R71, R77), and that data bytes are carried unchanged (R70). -/

namespace Sys2Proof

/-! ## The header byte (30_encoding R72) -/

/-- A byte is its upper and its lower half. -/
theorem header_halves (h : Byte) : h.extractLsb' 4 4 ++ h.extractLsb' 0 4 = h :=
  (BitVec.extractLsb'_append_extractLsb'_eq_extractLsb' rfl).trans BitVec.extractLsb'_eq_self

theorem reservedOpcode_iff {op : BitVec 4} : reservedOpcode op = true ↔ op = 0x0 ∨ op = 0x7 ∨ op = 0xF := by
  simp [reservedOpcode, or_assoc]

theorem decode_of_reserved {h : Byte} (hop : reservedOpcode (h.extractLsb' 4 4) = true) (bs : List Byte) :
    decode (h :: bs) = .error .reservedOpcode :=
  if_pos hop

theorem decode_of_lowBits {h : Byte} (hop : reservedOpcode (h.extractLsb' 4 4) = false) (hlow : h.extractLsb' 0 4 ≠ 0)
    (bs : List Byte) : decode (h :: bs) = .error .reservedBits :=
  (if_neg (by simp [hop])).trans (if_neg hlow)

theorem decode_of_header {h : Byte} (hop : reservedOpcode (h.extractLsb' 4 4) = false) (hlow : h.extractLsb' 0 4 = 0)
    (bs : List Byte) : decode (h :: bs) = decodeOperands (h.extractLsb' 4 4) bs :=
  (if_neg (by simp [hop])).trans (if_pos hlow)

/-! ## Decoding what was encoded -/

theorem decodeOperands_encode {i : Instr} (rest : List Byte) (h : i.wellFormed = true) :
    decodeOperands i.opcode (encodeOperands i ++ rest) = .ok (i, rest) := by
  cases i with
  | rbPush | rbPop | faFeed | sfbStage | sfbTake | sWdt | sFlow => rfl
  | dmxPacket data =>
    simp [decodeOperands, Instr.opcode, encodeOperands, decodePacket_encode rest (wellFormed_dmxPacket.mp h)]
  | sPoll events =>
    obtain ⟨hn, hw⟩ := wellFormed_sPoll.mp h
    simp [decodeOperands, Instr.opcode, encodeOperands, Nat.mod_eq_of_lt hn, decodeEvents_encode rest hw]
  | sUtx g | sUsbtx g => cases g <;> rfl
  | sUrx rx => cases rx <;> rfl
  | reset cause => cases cause <;> rfl

theorem decode_encode {i : Instr} (rest : List Byte) (h : i.wellFormed = true) : decode (encode i ++ rest) = .ok (i, rest) :=
  (decode_header i _).trans (decodeOperands_encode rest h)

/-! ## Encoding what was decoded -/

theorem takeBytes_eq_some : ∀ {n : Nat} {bs data rest : List Byte}, takeBytes n bs = some (data, rest) →
    data.length = n ∧ bs = data ++ rest
  | 0, bs, data, rest, h => by
    cases h
    exact ⟨rfl, rfl⟩
  | n + 1, b :: bs, data, rest, h => by
    unfold takeBytes at h
    split at h
    · rename_i front rest' htake
      cases h
      obtain ⟨hlen, rfl⟩ := takeBytes_eq_some htake
      exact ⟨congrArg (· + 1) hlen, rfl⟩
    · cases h

theorem encode_of_decodePacket {bs data rest : List Byte} (h : decodePacket bs = .ok (data, rest)) :
    data.length < 65536 ∧ bs = encodePacket data ++ rest := by
  unfold decodePacket at h
  split at h
  · rename_i l0 l1 tail
    split at h
    · rename_i p htake
      cases h
      obtain ⟨hlen, rfl⟩ := takeBytes_eq_some htake
      have hl0 : BitVec.ofNat 8 data.length = l0 := BitVec.eq_of_toNat_eq (by simp; omega)
      have hl1 : BitVec.ofNat 8 (data.length / 256) = l1 := BitVec.eq_of_toNat_eq (by simp; omega)
      exact ⟨by omega, by rw [encodePacket, hl0, hl1]; rfl⟩
    · cases h
  · cases h

theorem encode_of_decodeEvent {bs rest : List Byte} {ev : UsbEvent} (h : decodeEvent bs = .ok (ev, rest)) :
    ev.wellFormed = true ∧ bs = encodeEvent ev ++ rest := by
  unfold decodeEvent at h
  split at h
  · cases h
  · split at h
    · rename_i htag
      split at h
      · rename_i hpacket
        cases h
        obtain ⟨hlen, rfl⟩ := encode_of_decodePacket hpacket
        exact ⟨wellFormed_packet.mpr hlen, congrArg (· :: _) htag⟩
      · cases h
    · split at h
      · rename_i htag
        cases h
        exact ⟨rfl, congrArg (· :: _) htag⟩
      · cases h

theorem encode_of_decodeEvents : ∀ {n : Nat} {bs rest : List Byte} {evs : List UsbEvent},
    decodeEvents n bs = .ok (evs, rest) →
    evs.length = n ∧ evs.all UsbEvent.wellFormed = true ∧ bs = evs.flatMap encodeEvent ++ rest
  | 0, bs, rest, evs, h => by
    cases h
    exact ⟨rfl, rfl, rfl⟩
  | n + 1, bs, rest, evs, h => by
    unfold decodeEvents at h
    split at h
    · cases h
    · rename_i ev tail hev
      split at h
      · cases h
      · rename_i evs' rest' hevs
        cases h
        obtain ⟨hwf, rfl⟩ := encode_of_decodeEvent hev
        obtain ⟨hlen, hall, rfl⟩ := encode_of_decodeEvents hevs
        exact ⟨congrArg (· + 1) hlen, by simp [hwf, hall], by simp⟩

/-- A flag byte that is read has no bit set that is not the flag. -/
theorem encode_of_flagOf {g : Byte} {t : Bool} (h : flagOf g = .ok t) : g = flagByte t := by
  unfold flagOf at h
  split at h
  · rename_i hreserved
    obtain rfl := Except.ok.inj h
    have hshift : g.toNat / 2 % 128 = 0 := by
      simpa [Nat.shiftRight_eq_div_pow] using congrArg BitVec.toNat hreserved
    have hg : g = 0 ∨ g = 1 := by bv_omega
    rcases hg with rfl | rfl <;> rfl
  · cases h

theorem encode_of_decodeByte {make : Byte → Instr} {bs rest : List Byte} {i : Instr}
    (h : decodeByte make bs = .ok (i, rest)) : ∃ b, i = make b ∧ bs = b :: rest := by
  unfold decodeByte at h
  split at h
  · cases h
    exact ⟨_, rfl, rfl⟩
  · cases h

theorem encode_of_decodeFlag {make : Bool → Instr} {bs rest : List Byte} {i : Instr}
    (h : decodeFlag make bs = .ok (i, rest)) : ∃ t, i = make t ∧ bs = flagByte t :: rest := by
  unfold decodeFlag at h
  split at h
  · split at h
    · rename_i hflag
      cases h
      exact ⟨_, rfl, congrArg (· :: _) (encode_of_flagOf hflag)⟩
    · cases h
  · cases h

theorem encode_of_decodeFlagByte {bs rest : List Byte} {rx : Option Byte} (h : decodeFlagByte bs = .ok (rx, rest)) :
    bs = encodeOperands (.sUrx rx) ++ rest := by
  unfold decodeFlagByte at h
  split at h
  · split at h
    · cases h
    · rename_i hflag
      cases h
      rw [encode_of_flagOf hflag]
      rfl
    · rename_i hflag
      split at h
      · rename_i hd
        cases h
        rw [encode_of_flagOf hflag, hd]
        rfl
      · cases h
  · cases h

theorem encode_of_decodeFrame {bs rest : List Byte} {f : Frame} (h : decodeFrame bs = .ok (f, rest)) :
    bs = f.bytes ++ rest := by
  unfold decodeFrame at h
  split at h
  · cases h
    rfl
  · cases h

theorem encodeOperands_reset (g : Bool) : encodeOperands (.reset (causeOf g)) = [flagByte g] := by
  cases g <;> rfl

/-- Operands that are read are those that the encoder writes for the operation; the cases are the opcodes of R73, by format. -/
theorem encode_of_decodeOperands {op : BitVec 4} {bs rest : List Byte} {i : Instr}
    (h : decodeOperands op bs = .ok (i, rest)) :
    op = i.opcode ∧ i.wellFormed = true ∧ bs = encodeOperands i ++ rest := by
  unfold decodeOperands at h
  split at h
  case h_1 | h_4 => -- format B
    obtain ⟨b, rfl, rfl⟩ := encode_of_decodeByte h
    exact ⟨BitVec.eq_of_toNat_eq ‹_›, rfl, rfl⟩
  case h_2 | h_6 | h_7 | h_10 => -- no operands
    cases h
    exact ⟨BitVec.eq_of_toNat_eq ‹_›, rfl, rfl⟩
  case h_3 => -- format P
    split at h
    · rename_i hpacket
      cases h
      obtain ⟨hlen, rfl⟩ := encode_of_decodePacket hpacket
      exact ⟨BitVec.eq_of_toNat_eq ‹_›, wellFormed_dmxPacket.mpr hlen, rfl⟩
    · cases h
  case h_5 => -- format F
    split at h
    · rename_i hframe
      cases h
      obtain rfl := encode_of_decodeFrame hframe
      exact ⟨BitVec.eq_of_toNat_eq ‹_›, rfl, rfl⟩
    · cases h
  case h_8 => -- format EV
    split at h
    · cases h
    · rename_i e bs'
      split at h
      · rename_i hevents
        cases h
        obtain ⟨hlen, hall, rfl⟩ := encode_of_decodeEvents hevents
        have he : BitVec.ofNat 8 _ = e := (congrArg (BitVec.ofNat 8) hlen).trans ((BitVec.ofNat_toNat 8 e).trans e.setWidth_eq)
        exact ⟨BitVec.eq_of_toNat_eq ‹_›, wellFormed_sPoll.mpr ⟨hlen ▸ e.isLt, hall⟩, by rw [encodeOperands, he]; rfl⟩
      · cases h
  case h_9 | h_12 => -- format FLG
    obtain ⟨t, rfl, rfl⟩ := encode_of_decodeFlag h
    exact ⟨BitVec.eq_of_toNat_eq ‹_›, rfl, rfl⟩
  case h_11 => -- format FLGB
    split at h
    · rename_i hflag
      cases h
      exact ⟨BitVec.eq_of_toNat_eq ‹_›, rfl, encode_of_decodeFlagByte hflag⟩
    · cases h
  case h_13 => -- format FLG, of RESET
    obtain ⟨t, rfl, rfl⟩ := encode_of_decodeFlag h
    exact ⟨BitVec.eq_of_toNat_eq ‹_›, rfl, by rw [encodeOperands_reset]; rfl⟩
  case h_14 => -- a reserved opcode
    cases h

/-- The header of a command that is accepted is that of its operation, and its operands are those the encoder writes. -/
theorem encode_of_decode {bs rest : List Byte} {i : Instr} (h : decode bs = .ok (i, rest)) :
    i.wellFormed = true ∧ bs = encode i ++ rest := by
  unfold decode at h
  split at h
  · cases h
  · rename_i hd tail
    split at h
    · cases h
    · split at h
      · rename_i hlow
        obtain ⟨hop, hwf, rfl⟩ := encode_of_decodeOperands h
        have hheader : hd = i.header := by
          rw [header_eq_opcode, ← header_halves hd, hop, hlow]
        exact ⟨hwf, congrArg (· :: _) hheader⟩
      · cases h

/-! ## A stream that ends inside a command (30_encoding R77) -/

/-- A reader that does not run out of bytes reads the same whatever follows: the bytes that follow are left over. -/
def ReadsAhead {α : Type} (read : List Byte → Except Verdict (α × List Byte)) : Prop :=
  ∀ front back, read front = .error .truncated ∨
    (∃ v, read front = .error v ∧ read (front ++ back) = .error v) ∨
    ∃ x rest, read front = .ok (x, rest) ∧ read (front ++ back) = .ok (x, rest ++ back)

theorem takeBytes_append_of_some {n : Nat} {bs data rest : List Byte} (back : List Byte)
    (h : takeBytes n bs = some (data, rest)) : takeBytes n (bs ++ back) = some (data, rest ++ back) := by
  obtain ⟨rfl, rfl⟩ := takeBytes_eq_some h
  rw [List.append_assoc, takeBytes_append]

theorem decodePacket_readsAhead : ReadsAhead decodePacket
  | [], _ | [_], _ => .inl rfl
  | l0 :: l1 :: front, back => by
    cases h : takeBytes (l0.toNat + 256 * l1.toNat) front with
    | none => exact .inl (by simp [decodePacket, h])
    | some p => exact .inr (.inr ⟨p.1, p.2, by simp [decodePacket, h], by simp [decodePacket, takeBytes_append_of_some back h]⟩)

theorem decodeEvent_of_unknown {tag : Byte} (h1 : tag ≠ 0x01) (h2 : tag ≠ 0x02) (bs : List Byte) :
    decodeEvent (tag :: bs) = .error .badEventTag :=
  (if_neg h1).trans (if_neg h2)

theorem decodeEvent_readsAhead : ReadsAhead decodeEvent
  | [], _ => .inl rfl
  | tag :: front, back => by
    by_cases h1 : tag = 0x01
    · subst h1
      rcases decodePacket_readsAhead front back with h | ⟨v, h, k⟩ | ⟨data, rest, h, k⟩ <;> simp [decodeEvent, *]
    · by_cases h2 : tag = 0x02
      · subst h2
        exact .inr (.inr ⟨_, _, rfl, rfl⟩)
      · exact .inr (.inl ⟨_, decodeEvent_of_unknown h1 h2 _, decodeEvent_of_unknown h1 h2 _⟩)

theorem decodeEvents_readsAhead : ∀ n, ReadsAhead (decodeEvents n)
  | 0, _, _ => .inr (.inr ⟨_, _, rfl, rfl⟩)
  | n + 1, front, back => by
    rcases decodeEvent_readsAhead front back with h | ⟨v, h, k⟩ | ⟨ev, rest, h, k⟩
    · exact .inl (by simp [decodeEvents, h])
    · exact .inr (.inl ⟨v, by simp [decodeEvents, h], by simp [decodeEvents, k]⟩)
    · rcases decodeEvents_readsAhead n rest back with h' | ⟨v, h', k'⟩ | ⟨evs, rest', h', k'⟩ <;> simp [decodeEvents, *]

theorem decodeByte_readsAhead (make : Byte → Instr) : ReadsAhead (decodeByte make)
  | [], _ => .inl rfl
  | _ :: _, _ => .inr (.inr ⟨_, _, rfl, rfl⟩)

theorem decodeFlag_readsAhead (make : Bool → Instr) : ReadsAhead (decodeFlag make)
  | [], _ => .inl rfl
  | g :: front, back => .inr (by cases h : flagOf g <;> simp [decodeFlag, h])

theorem decodeFlagByte_readsAhead : ReadsAhead decodeFlagByte
  | [], _ | [_], _ => .inl rfl
  | g :: d :: front, back => by
    rcases h : flagOf g with v | (_ | _)
    · simp [decodeFlagByte, h]
    · by_cases hd : d = 0#8 <;> simp [decodeFlagByte, h, hd]
    · simp [decodeFlagByte, h]

theorem decodeFrame_readsAhead : ReadsAhead decodeFrame
  | [], _ | [_], _ | [_, _], _ | [_, _, _], _ => .inl rfl
  | _ :: _ :: _ :: _ :: _, _ => .inr (.inr ⟨_, _, rfl, rfl⟩)

theorem decodeOperands_readsAhead (op : BitVec 4) : ReadsAhead (decodeOperands op) := by
  intro front back
  unfold decodeOperands
  generalize op.toNat = n
  split
  case h_1 | h_4 => -- format B
    exact decodeByte_readsAhead _ front back
  case h_2 | h_6 | h_7 | h_10 => -- no operands
    exact .inr (.inr ⟨_, _, rfl, rfl⟩)
  case h_9 | h_12 | h_13 => -- format FLG
    exact decodeFlag_readsAhead _ front back
  case h_3 => -- format P
    rcases decodePacket_readsAhead front back with h | ⟨v, h, k⟩ | ⟨data, rest, h, k⟩ <;> simp [*]
  case h_5 => -- format F
    rcases decodeFrame_readsAhead front back with h | ⟨v, h, k⟩ | ⟨f, rest, h, k⟩ <;> simp [*]
  case h_8 => -- format EV
    cases front with
    | nil => exact .inl rfl
    | cons e front =>
      rcases decodeEvents_readsAhead e.toNat front back with h | ⟨v, h, k⟩ | ⟨evs, rest, h, k⟩ <;> simp [*]
  case h_11 => -- format FLGB
    rcases decodeFlagByte_readsAhead front back with h | ⟨v, h, k⟩ | ⟨rx, rest, h, k⟩ <;> simp [*]
  case h_14 => -- a reserved opcode
    exact .inr (.inl ⟨_, rfl, rfl⟩)

theorem decode_readsAhead : ReadsAhead decode
  | [], _ => .inl rfl
  | h :: front, back => by
    rw [List.cons_append]
    cases hop : reservedOpcode (h.extractLsb' 4 4) with
    | true => exact .inr (.inl ⟨_, decode_of_reserved hop _, decode_of_reserved hop _⟩)
    | false =>
      by_cases hlow : h.extractLsb' 0 4 = 0
      · rw [decode_of_header hop hlow, decode_of_header hop hlow]
        exact decodeOperands_readsAhead _ front back
      · exact .inr (.inl ⟨_, decode_of_lowBits hop hlow _, decode_of_lowBits hop hlow _⟩)

/-! ## Reserved bits and unknown tags (30_encoding R77, R78) -/

theorem flagOf_of_reserved {g : Byte} (h : g.extractLsb' 1 7 ≠ 0) : flagOf g = .error .reservedBits :=
  if_neg h

theorem decodeFlag_of_reserved {g : Byte} (h : g.extractLsb' 1 7 ≠ 0) (make : Bool → Instr) (bs : List Byte) :
    decodeFlag make (g :: bs) = .error .reservedBits := by
  simp [decodeFlag, flagOf_of_reserved h]

/-- The operations of format FLG: S_UTX, S_USBTX and RESET. -/
theorem decode_flag_of_reserved {h g : Byte} (hh : h = 0xA0 ∨ h = 0xD0 ∨ h = 0xE0) (hg : g.extractLsb' 1 7 ≠ 0)
    (bs : List Byte) : decode (h :: g :: bs) = .error .reservedBits := by
  rcases hh with rfl | rfl | rfl <;> exact decodeFlag_of_reserved hg _ bs

theorem decodeFlagByte_of_reserved {g d : Byte} (h : g.extractLsb' 1 7 ≠ 0 ∨ (g = 0x00 ∧ d ≠ 0x00)) (bs : List Byte) :
    decodeFlagByte (g :: d :: bs) = .error .reservedBits := by
  rcases h with h | ⟨rfl, hd⟩
  · simp [decodeFlagByte, flagOf_of_reserved h]
  · exact if_neg hd

/-- The operation of format FLGB: S_URX. -/
theorem decode_flagByte_of_reserved {g d : Byte} (h : g.extractLsb' 1 7 ≠ 0 ∨ (g = 0x00 ∧ d ≠ 0x00)) (bs : List Byte) :
    decode (0xC0 :: g :: d :: bs) = .error .reservedBits := by
  rw [decode_of_header rfl rfl]
  simp [decodeOperands, decodeFlagByte_of_reserved h]

theorem decodeEvents_of_unknown {tag : Byte} (h1 : tag ≠ 0x01) (h2 : tag ≠ 0x02) (rest : List Byte) :
    ∀ {n : Nat} {events : List UsbEvent}, events.all UsbEvent.wellFormed = true → events.length < n →
      decodeEvents n (events.flatMap encodeEvent ++ tag :: rest) = .error .badEventTag
  | n + 1, [], _, _ => by
    simp [decodeEvents, decodeEvent_of_unknown h1 h2]
  | n + 1, ev :: events, hwf, hlen => by
    simp only [List.all_cons, Bool.and_eq_true] at hwf
    rw [List.flatMap_cons, List.append_assoc, decodeEvents, decodeEvent_encode _ hwf.1]
    simp only [decodeEvents_of_unknown h1 h2 rest hwf.2 (Nat.lt_of_succ_lt_succ hlen)]

/-! ## Where a command ends (30_encoding R76) -/

theorem flagOf_error {g : Byte} {v : Verdict} (h : flagOf g = .error v) : v = .reservedBits := by
  unfold flagOf at h
  split at h
  · cases h
  · exact (Except.error.inj h).symm

theorem takeBytes_of_decodeByte_error {make : Byte → Instr} {bs : List Byte} {v : Verdict}
    (h : decodeByte make bs = .error v) : takeBytes 1 bs = none := by
  cases bs with
  | nil => rfl
  | cons b bs => cases h

theorem takeBytes_of_decodeFrame_error {bs : List Byte} {v : Verdict} (h : decodeFrame bs = .error v) :
    takeBytes 4 bs = none :=
  match bs, h with
  | [], _ | [_], _ | [_, _], _ | [_, _, _], _ => rfl

theorem takeBytes_of_decodeFlag_error {make : Bool → Instr} {bs : List Byte} {v : Verdict}
    (h : decodeFlag make bs = .error v) (hv : v ≠ .reservedBits) : takeBytes 1 bs = none := by
  unfold decodeFlag at h
  split at h
  · split at h
    · cases h
    · cases h
      exact absurd (flagOf_error ‹_›) hv
  · rfl

theorem decodeFlagByte_error {g d : Byte} {bs : List Byte} {v : Verdict} (h : decodeFlagByte (g :: d :: bs) = .error v) :
    v = .reservedBits := by
  simp only [decodeFlagByte] at h
  split at h
  · cases h
    exact flagOf_error ‹_›
  · cases h
  · split at h
    · cases h
    · exact (Except.error.inj h).symm

theorem takeBytes_of_decodeFlagByte_error {bs : List Byte} {v : Verdict} (h : decodeFlagByte bs = .error v)
    (hv : v ≠ .reservedBits) : takeBytes 2 bs = none :=
  match bs, h with
  | [], _ | [_], _ => rfl
  | _ :: _ :: _, h => absurd (decodeFlagByte_error h) hv

/-- Operands refused for another reason than a reserved bit have no known end. -/
theorem operandsEnd_of_error {op : BitVec 4} {bs : List Byte} {v : Verdict} (h : decodeOperands op bs = .error v)
    (hv : v ≠ .reservedBits) : operandsEnd op bs = none := by
  unfold decodeOperands at h
  unfold operandsEnd
  generalize op.toNat = n at h ⊢
  split at h
  case h_1 | h_4 => -- format B
    simp [takeBytes_of_decodeByte_error h]
  case h_2 | h_6 | h_7 | h_10 => -- no operands
    cases h
  case h_9 | h_12 | h_13 => -- format FLG
    simp [takeBytes_of_decodeFlag_error h hv]
  case h_3 => -- format P
    split at h
    · cases h
    · simp [Except.toOption, *]
  case h_5 => -- format F
    split at h
    · cases h
    · simp [takeBytes_of_decodeFrame_error ‹_›]
  case h_8 => -- format EV
    split at h
    · rfl
    · split at h
      · cases h
      · simp [Except.toOption, *]
  case h_11 => -- format FLGB
    split at h
    · cases h
    · cases h
      simp [takeBytes_of_decodeFlagByte_error ‹_› hv]
  case h_14 => -- a reserved opcode
    simp [*]

theorem operandsEnd_of_reserved {op : BitVec 4} (h : reservedOpcode op = true) (bs : List Byte) : operandsEnd op bs = none := by
  rcases reservedOpcode_iff.mp h with rfl | rfl | rfl <;> rfl

theorem commandEnd_of_error {bs : List Byte} {v : Verdict} (h : decode bs = .error v) (hv : v ≠ .reservedBits) :
    commandEnd bs = none := by
  cases bs with
  | nil => rfl
  | cons hd tail =>
    rw [commandEnd]
    cases hop : reservedOpcode (hd.extractLsb' 4 4) with
    | true => exact operandsEnd_of_reserved hop tail
    | false =>
      by_cases hlow : hd.extractLsb' 0 4 = 0
      · exact operandsEnd_of_error (decode_of_header hop hlow tail ▸ h) hv
      · rw [decode_of_lowBits hop hlow] at h
        exact absurd (Except.error.inj h).symm hv

/-- A command ends behind its operands, whatever the lower half of its header (30_encoding R76). -/
theorem commandEnd_encodeOperands {i : Instr} (low : BitVec 4) (rest : List Byte) (h : i.wellFormed = true) :
    commandEnd ((i.opcode ++ low) :: (encodeOperands i ++ rest)) = some rest := by
  rw [commandEnd, BitVec.extractLsb'_append_eq_left, operandsEnd_encode rest h]

theorem commandEnd_of_ok {bs rest : List Byte} {i : Instr} (h : decode bs = .ok (i, rest)) : commandEnd bs = some rest := by
  obtain ⟨hwf, rfl⟩ := encode_of_decode h
  rw [encode, header_eq_opcode]
  exact commandEnd_encodeOperands 0 rest hwf

end Sys2Proof

namespace Sys2Proof.Machine

/-! ## One step -/

theorem step_of_decode_ok {s : State} {i : Instr} {rest : List Byte} (hf : s.faultMark = none)
    (hd : decode s.stream = .ok (i, rest)) : step s = exec i { s with stream := rest } := by
  cases hs : s.stream with
  | nil => rw [hs] at hd; cases hd
  | cons h bs =>
    rw [hs] at hd
    simp [step, State.fetch, hf, hs, hd]

theorem step_of_decode_error {s : State} {v : Verdict} (hf : s.faultMark = none) (hs : s.stream ≠ [])
    (hd : decode s.stream = .error v) : step s = .next (s.refuseStream v) := by
  obtain ⟨h, bs, hs⟩ := List.exists_cons_of_ne_nil hs
  rw [hs] at hd
  simp [step, State.fetch, hf, hs, hd]

/-- After reserved bits the stream goes on where the command ends (30_encoding R72, R76, R77). -/
theorem step_of_reservedBits {s : State} {bs rest : List Byte} (hf : s.faultMark = none) (hs : s.stream = bs)
    (hd : decode bs = .error .reservedBits) (hend : commandEnd bs = some rest) :
    step s = .next { s with refusals := s.refusals ++ [.reservedBits], stream := rest } := by
  subst hs
  have hne : s.stream ≠ [] := fun h => by rw [h] at hend; cases hend
  rw [step_of_decode_error hf hne hd, State.refuseStream, hend]
  rfl

/-! ## Admission (30_encoding R71, R77) -/

theorem asPhase_of_illegal {s : State} (hm : s.cfg.mode = .core) (hp : 5 < s.phase.toNat) (p : BitVec 3)
    (body : Except Fault State) : s.asPhase p body = .next (s.raise .badPhase) :=
  (if_pos hm).trans (if_pos hp)

/-- The verdicts that the harness gives on a decoded operation (30_encoding R77). -/
def HarnessVerdict (v : Verdict) : Prop :=
  v = .wrongMode ∨ v = .wrongPhase ∨ v = .packetWhileDisabled ∨ v = .noFlowControl

/-- From `s` to `t` no refusal was recorded, or `t` is `s` with a verdict of the harness recorded and nothing else done. -/
def KeepsOrRefuses (s t : State) : Prop :=
  t.refusals = s.refusals ∨ ∃ v, HarnessVerdict v ∧ t = s.refuse v

theorem asUnit_keepsOrRefuses {s t : State} {body : Except Fault State} (h : s.asUnit body = .next t)
    (hbody : body = .ok t → KeepsOrRefuses s t) : KeepsOrRefuses s t := by
  rcases asUnit_cases h with rfl | ⟨-, ⟨r, rfl⟩ | hok⟩
  · exact .inr ⟨_, .inl rfl, rfl⟩
  · exact .inl rfl
  · exact hbody hok

theorem asPhase_keepsOrRefuses {s t : State} {p : BitVec 3} {body : Except Fault State} (h : s.asPhase p body = .next t)
    (hbody : body = .ok t → KeepsOrRefuses s t) : KeepsOrRefuses s t := by
  rcases asPhase_cases h with rfl | rfl | ⟨-, r, rfl⟩ | ⟨-, -, hok⟩
  · exact .inr ⟨_, .inl rfl, rfl⟩
  · exact .inr ⟨_, .inr (.inl rfl), rfl⟩
  · exact .inl rfl
  · exact hbody hok

theorem pollVerdict_harness {flowctlEn : Bool} {v : Verdict} : ∀ {evs : List UsbEvent} {d : Bool},
    pollVerdict flowctlEn d evs = some v → HarnessVerdict v
  | .flowDisable :: evs, d, h => by
    unfold pollVerdict at h
    split at h
    · exact pollVerdict_harness h
    · exact .inr (.inr (.inr (Option.some.inj h).symm))
  | .packet _ :: evs, d, h => by
    unfold pollVerdict at h
    split at h
    · exact .inr (.inr (.inl (Option.some.inj h).symm))
    · exact pollVerdict_harness h

theorem pop_refusals {s t : State} {r : Option Byte} (h : s.pop = .ok (r, t)) : t.refusals = s.refusals := by
  rcases pop_inv h with ⟨rfl, -⟩ | ⟨-, rfl, -⟩ <;> rfl

theorem take_refusals {s t : State} {r : Option Frame} (h : s.take = .ok (r, t)) : t.refusals = s.refusals := by
  rw [(take_inv h).1]

theorem exec_keepsOrRefuses {i : Instr} {s t : State} (h : exec i s = .next t) : KeepsOrRefuses s t := by
  cases i with
  | rbPush b => exact asUnit_keepsOrRefuses h fun hb => .inl (push_inv hb).1.refusals
  | dmxPacket data => exact asUnit_keepsOrRefuses h fun hb => .inl (demux_inv hb).1.refusals
  | sfbStage f => exact asUnit_keepsOrRefuses h fun hb => .inl (stage_inv hb).1.refusals
  | rbPop =>
    refine asUnit_keepsOrRefuses h fun hb => .inl ?_
    split at hb <;> cases hb
    simpa using pop_refusals ‹s.pop = _›
  | faFeed b =>
    refine asUnit_keepsOrRefuses h fun hb => .inl ?_
    split at hb <;> cases hb
    simpa using (feed_inv ‹s.feed _ = _›).1.refusals
  | sfbTake =>
    refine asUnit_keepsOrRefuses h fun hb => .inl ?_
    split at hb <;> cases hb
    simpa using take_refusals ‹s.take = _›
  | sWdt =>
    refine asPhase_keepsOrRefuses h fun hb => .inl ?_
    cases hb
    rfl
  | sPoll events =>
    refine asPhase_keepsOrRefuses h fun hb => ?_
    split at hb
    · exact .inr ⟨_, pollVerdict_harness ‹_›, (Except.ok.inj hb).symm⟩
    · unfold State.poll at hb
      split at hb
      · rename_i hdeliver
        cases hb
        exact .inl (deliverAll_inv hdeliver).1.refusals
      · cases hb
  | sUtx txReady =>
    refine asPhase_keepsOrRefuses h fun hb => .inl ?_
    split at hb
    · split at hb <;> cases hb <;> simpa using pop_refusals ‹s.pop = _›
    · cases hb
      rfl
  | sFlow =>
    refine asPhase_keepsOrRefuses h fun hb => .inl ?_
    split at hb <;> cases hb <;> rfl
  | sUrx rx =>
    refine asPhase_keepsOrRefuses h fun hb => .inl ?_
    split at hb
    · cases hb
      rfl
    · split at hb <;> cases hb
      simpa using (feed_inv ‹s.feed _ = _›).1.refusals
  | sUsbtx inReady =>
    refine asPhase_keepsOrRefuses h fun hb => .inl ?_
    split at hb
    · split at hb <;> cases hb <;> simpa using take_refusals ‹s.take = _›
    · cases hb
      rfl
  | reset cause =>
    cases h
    exact .inl rfl

/-! ## Data bytes are carried unchanged (30_encoding R70) -/

section MapData

variable (g : Byte → Byte)

@[simp] theorem memory_read_map (m : Memory) (i : Nat) : Memory.read (m.map fun c => (c.1, g c.2)) i = (m.read i).map g := by
  induction m with
  | nil => rfl
  | cons c m ih =>
    simp only [List.map_cons, Memory.read, ih]
    split <;> rfl

@[simp] theorem memory_write_map (m : Memory) (i : Nat) (v : Byte) :
    Memory.write (m.map fun c => (c.1, g c.2)) i (g v) = (m.write i v).map fun c => (c.1, g c.2) := by
  induction m with
  | nil => rfl
  | cons c m ih =>
    simp only [List.map_cons, Memory.write, ih]
    split
    · rfl
    · split <;> rfl

@[simp] theorem mapData_set (x : Slots) (i : BitVec 2) (v : Byte) : (x.mapData g).set i (g v) = (x.set i v).mapData g := by
  rcases bitVec2_cases i with rfl | rfl | rfl | rfl <;> rfl

@[simp] theorem mapData_readAll (x : Slots) : (x.mapData g).readAll = x.readAll.map (mapFrame g) := by
  obtain ⟨_ | a, _ | b, _ | c, _ | d⟩ := x <;> rfl

variable (s : State)

@[simp] theorem mapData_cfg : (s.mapData g).cfg = s.cfg := rfl
@[simp] theorem mapData_rbWr : (s.mapData g).rbWr = s.rbWr := rfl
@[simp] theorem mapData_rbRd : (s.mapData g).rbRd = s.rbRd := rfl
@[simp] theorem mapData_faCount : (s.mapData g).faCount = s.faCount := rfl
@[simp] theorem mapData_faStage : (s.mapData g).faStage = s.faStage.mapData g := rfl
@[simp] theorem mapData_sfbFrame : (s.mapData g).sfbFrame = s.sfbFrame.mapData g := rfl
@[simp] theorem mapData_sfbReady : (s.mapData g).sfbReady = s.sfbReady := rfl
@[simp] theorem mapData_fcDis : (s.mapData g).fcDis = s.fcDis := rfl
@[simp] theorem mapData_phase : (s.mapData g).phase = s.phase := rfl

@[simp] theorem mapData_cap : (s.mapData g).cap = s.cap := rfl
@[simp] theorem mapData_occ : (s.mapData g).occ = s.occ := rfl
@[simp] theorem mapData_idx (c : Nat) : (s.mapData g).idx c = s.idx c := rfl
@[simp] theorem mapData_advance (c : Nat) : (s.mapData g).advance c = s.advance c := rfl

@[simp] theorem mapData_memRead (i : Nat) : (s.mapData g).memRead i = (s.memRead i).map g := memory_read_map g s.rbMem i

theorem emit_mapData (e : Event) : (s.mapData g).emit (e.mapData g) = (s.emit e).mapData g := by
  simp [State.mapData, State.emit]

theorem note_mapData (i : Incident) : (s.mapData g).note (i.mapData g) = (s.note i).mapData g := by
  simp [State.mapData, State.note]

theorem append_mapData (b : Byte) : (s.mapData g).append (g b) = (s.append b).mapData g := by
  simp [State.mapData, State.append, State.memWrite, State.idx, State.advance, State.cap]

/-! ### The shared operations -/

theorem dropOldest_mapData : (s.mapData g).dropOldest = s.dropOldest.map (State.mapData g) := by
  simp only [State.dropOldest, mapData_occ, mapData_cap, mapData_rbRd, mapData_idx, mapData_memRead, mapData_advance]
  split
  · cases s.memRead (s.idx s.rbRd) with
    | none => rfl
    | some d =>
      have hnote : (s.mapData g).note (.rbOverwrite (g d)) = _ := note_mapData g s (.rbOverwrite d)
      simp only [Option.map_some, hnote]
      rfl
  · rfl

theorem push_mapData (b : Byte) : (s.mapData g).push (g b) = (s.push b).map (State.mapData g) := by
  rw [State.push, State.push, dropOldest_mapData]
  cases s.dropOldest with
  | error r => rfl
  | ok t => exact congrArg _ (append_mapData g t b)

theorem pushAll_mapData (bs : List Byte) :
    ∀ s : State, (s.mapData g).pushAll (bs.map g) = (s.pushAll bs).map (State.mapData g) := by
  induction bs with
  | nil => intro s; rfl
  | cons b bs ih =>
    intro s
    rw [List.map_cons, State.pushAll, State.pushAll, push_mapData]
    cases s.push b with
    | error r => rfl
    | ok t => exact ih t

theorem pop_mapData : (s.mapData g).pop = s.pop.map (Prod.map (Option.map g) (State.mapData g)) := by
  simp only [State.pop, mapData_rbWr, mapData_rbRd, mapData_idx, mapData_memRead, mapData_advance]
  split
  · rfl
  · cases s.memRead (s.idx s.rbRd) <;> rfl

theorem stage_mapData (f : Frame) : (s.mapData g).stage (mapFrame g f) = (s.stage f).map (State.mapData g) := by
  simp only [State.stage, mapData_sfbReady, mapData_sfbFrame, mapData_readAll]
  split
  · cases s.sfbFrame.readAll with
    | error r => rfl
    | ok old =>
      have hnote : (s.mapData g).note (.sfbOverwrite (mapFrame g old)) = _ := note_mapData g s (.sfbOverwrite old)
      simp only [Except.map, hnote]
      rfl
  · rfl

theorem take_mapData : (s.mapData g).take = s.take.map (Prod.map (Option.map (mapFrame g)) (State.mapData g)) := by
  simp only [State.take, mapData_sfbReady, mapData_sfbFrame, mapData_readAll]
  split
  · cases s.sfbFrame.readAll <;> rfl
  · rfl

/-- The state in which FA_FEED looks at its count: the byte is in its slot (42_frame_assembler R120). -/
def State.store (s : State) (b : Byte) : State := { s with faStage := s.faStage.set s.faCount b }

theorem feed_eq (b : Byte) : s.feed b =
    if s.faCount = 3 then
      (s.store b).faStage.readAll.bind fun f => ((s.store b).stage f).map fun t => (true, { t with faCount := 0 })
    else .ok (false, { s.store b with faCount := s.faCount + 1 }) := by
  refine if_congr Iff.rfl ?_ rfl
  simp only [State.store, Except.bind, Except.map]
  cases (s.faStage.set s.faCount b).readAll with
  | error r => rfl
  | ok f =>
    dsimp only
    cases State.stage { s with faStage := s.faStage.set s.faCount b } f <;> rfl

theorem store_mapData (b : Byte) : (s.mapData g).store (g b) = (s.store b).mapData g := by
  simp [State.store, State.mapData]

theorem feed_mapData (b : Byte) : (s.mapData g).feed (g b) = (s.feed b).map (Prod.map id (State.mapData g)) := by
  rw [feed_eq, feed_eq, store_mapData, mapData_faCount, mapData_faStage, mapData_readAll]
  split
  · cases (s.store b).faStage.readAll with
    | error r => rfl
    | ok f =>
      simp only [Except.map, Except.bind, stage_mapData]
      cases (s.store b).stage f <;> rfl
  · rfl

theorem groupBytes_map (data : List Byte) : groupBytes (data.map g) = (groupBytes data).map g := by
  simp [groupBytes, List.map_take]

theorem demux_mapData (data : List Byte) : (s.mapData g).demux (data.map g) = (s.demux data).map (State.mapData g) := by
  have hfragment : fragment (data.map g) = fragment data := by simp [fragment]
  rw [State.demux, State.demux, groupBytes_map, pushAll_mapData, hfragment]
  cases s.pushAll (groupBytes data) with
  | error r => rfl
  | ok t =>
    simp only [Except.map]
    split
    · rfl
    · exact congrArg _ (note_mapData g t (.pktTrunc (fragment data)))

theorem deliver_mapData (ev : UsbEvent) : (s.mapData g).deliver (mapEvent g ev) = (s.deliver ev).map (State.mapData g) := by
  cases ev with
  | packet data => exact demux_mapData g s data
  | flowDisable => rfl

theorem deliverAll_mapData (evs : List UsbEvent) :
    ∀ s : State, (s.mapData g).deliverAll (evs.map (mapEvent g)) = (s.deliverAll evs).map (State.mapData g) := by
  induction evs with
  | nil => intro s; rfl
  | cons ev evs ih =>
    intro s
    rw [List.map_cons, State.deliverAll, State.deliverAll, deliver_mapData]
    cases s.deliver ev with
    | error r => rfl
    | ok t => exact ih t

theorem pollVerdict_map (flowctlEn : Bool) : ∀ (d : Bool) (evs : List UsbEvent),
    pollVerdict flowctlEn d (evs.map (mapEvent g)) = pollVerdict flowctlEn d evs
  | _, [] => rfl
  | d, .flowDisable :: evs => by
    simp [mapEvent, pollVerdict, pollVerdict_map flowctlEn true evs]
  | d, .packet data :: evs => by
    simp [mapEvent, pollVerdict, pollVerdict_map flowctlEn d evs]

theorem poll_mapData (evs : List UsbEvent) :
    (s.mapData g).poll (evs.map (mapEvent g)) = (s.poll evs).map (State.mapData g) := by
  have hemit : (s.mapData g).emit .usbPoll = (s.emit .usbPoll).mapData g := emit_mapData g s .usbPoll
  rw [State.poll, State.poll, hemit, deliverAll_mapData]
  cases (s.emit .usbPoll).deliverAll evs <;> rfl

/-! ### Every operation -/

theorem emit_setPhase_mapData (e : Event) (p : BitVec 3) :
    ((s.mapData g).emit (e.mapData g)).setPhase p = ((s.emit e).setPhase p).mapData g :=
  congrArg (State.setPhase · p) (emit_mapData g s e)

theorem settle_mapData (body : Except Fault State) :
    (s.mapData g).settle (body.map (State.mapData g)) = mapOutcome g (s.settle body) := by
  cases body <;> rfl

theorem asUnit_mapData {body body' : Except Fault State} (h : body' = body.map (State.mapData g)) :
    (s.mapData g).asUnit body' = mapOutcome g (s.asUnit body) := by
  rw [h, State.asUnit, State.asUnit, mapData_cfg, settle_mapData]
  split <;> rfl

theorem asPhase_mapData {p : BitVec 3} {body body' : Except Fault State} (h : body' = body.map (State.mapData g)) :
    (s.mapData g).asPhase p body' = mapOutcome g (s.asPhase p body) := by
  rw [h, State.asPhase, State.asPhase, mapData_cfg, mapData_phase, settle_mapData]
  split
  · split
    · rfl
    · split <;> rfl
  · rfl

end MapData

/-- Renaming the data bytes commutes with every operation, in every state. -/
theorem exec_mapData (g : Byte → Byte) (i : Instr) (s : State) :
    exec (mapInstr g i) (s.mapData g) = mapOutcome g (exec i s) := by
  cases i with
  | rbPush b => exact asUnit_mapData g s (push_mapData g s b)
  | dmxPacket data => exact asUnit_mapData g s (demux_mapData g s data)
  | sfbStage f => exact asUnit_mapData g s (stage_mapData g s f)
  | rbPop =>
    refine asUnit_mapData g s ?_
    rw [pop_mapData]
    cases s.pop with
    | error r => rfl
    | ok p => exact congrArg _ (emit_mapData g p.2 (.popResult p.1))
  | faFeed b =>
    refine asUnit_mapData g s ?_
    rw [feed_mapData]
    cases s.feed b with
    | error r => rfl
    | ok p => exact congrArg _ (emit_mapData g p.2 (.feedResult p.1))
  | sfbTake =>
    refine asUnit_mapData g s ?_
    rw [take_mapData]
    cases s.take with
    | error r => rfl
    | ok p => exact congrArg _ (emit_mapData g p.2 (.takeResult p.1))
  | sWdt => exact asPhase_mapData g s (congrArg _ (emit_setPhase_mapData g s .wdtKick 1))
  | sPoll events =>
    refine asPhase_mapData g s ?_
    simp only [mapData_cfg, mapData_fcDis, pollVerdict_map, poll_mapData]
    split <;> rfl
  | sUtx txReady =>
    refine asPhase_mapData g s ((if_congr Iff.rfl ?_ ?_).trans (apply_ite _ _ _ _).symm)
    · rw [pop_mapData]
      rcases s.pop with r | ⟨_ | b, t⟩
      · rfl
      · rfl
      · exact congrArg _ (emit_setPhase_mapData g t (.uartTx b) 3)
    · rfl
  | sFlow =>
    refine asPhase_mapData g s ((if_congr Iff.rfl ?_ ?_).trans (apply_ite _ _ _ _).symm)
    · exact congrArg _ (emit_setPhase_mapData g { s with fcDis := false } .usbRxEnable 4)
    · rfl
  | sUrx rx =>
    refine asPhase_mapData g s ?_
    cases rx with
    | none => rfl
    | some b =>
      simp only [Option.map_some, feed_mapData]
      cases s.feed b <;> rfl
  | sUsbtx inReady =>
    refine asPhase_mapData g s ((if_congr Iff.rfl ?_ ?_).trans (apply_ite _ _ _ _).symm)
    · rw [take_mapData]
      rcases s.take with r | ⟨_ | f, t⟩
      · rfl
      · rfl
      · exact congrArg _ (emit_setPhase_mapData g t (.usbTx f) 0)
    · rfl
  | reset cause =>
    have hnote : (s.mapData g).note (resetIncident cause) = (s.note (resetIncident cause)).mapData g := by
      cases cause
      · exact note_mapData g s .extReset
      · exact note_mapData g s .wdtReset
    exact congrArg (fun t : State => Host.Outcome.next t.resetElements) hnote

/-! ## The statements -/

/-- Settles O2: the header selects the format, and each format reads back what the encoder wrote. -/
theorem decodeOfEncode : Obligations.DecodeOfEncode :=
  fun _ => decode_encode

/-- Settles O3: each format reads only what the encoder writes, and the header has no bit besides the opcode. -/
theorem encodeOfDecode : Obligations.EncodeOfDecode :=
  fun _ _ _ => encode_of_decode

/-- Settles O54: renaming the data bytes commutes with each shared operation, and so with each instruction. -/
theorem dataNeverExamined : Obligations.DataNeverExamined :=
  exec_mapData

/-- Settles O4: the header is judged before the operands, and a flag byte by its reserved bits. -/
theorem reservedEncodingsRefused : Obligations.ReservedEncodingsRefused :=
  ⟨fun _ bs hop => decode_of_reserved (reservedOpcode_iff.mpr hop) bs,
    fun _ bs hop hlow => decode_of_lowBits (Bool.eq_false_iff.mpr (mt reservedOpcode_iff.mp hop)) hlow bs,
    fun _ _ bs hh hg => decode_flag_of_reserved hh hg bs,
    fun _ _ bs hg => decode_flagByte_of_reserved (.inl hg) bs,
    fun _ bs hd => decode_flagByte_of_reserved (.inr ⟨rfl, hd⟩) bs⟩

/-- Settles O5: had the decoder not run out of bytes in the front part, it would read the whole command the same way and leave the
back part over, but nothing is left over. -/
theorem truncatedCommandsRefused : Obligations.TruncatedCommandsRefused := by
  intro i front back hwf hcut hback
  have hwhole : decode (front ++ back) = .ok (i, []) := by
    rw [← hcut, ← List.append_nil (encode i)]
    exact decode_encode [] hwf
  rcases decode_readsAhead front back with h | ⟨v, -, h⟩ | ⟨j, rest, -, h⟩
  · exact h
  · cases hwhole.symm.trans h
  · have hleft := (Prod.mk.inj (Except.ok.inj (hwhole.symm.trans h))).2
    exact absurd (List.append_eq_nil_iff.mp hleft.symm).2 hback

/-- Settles O6: the events before the unknown tag are read, and the tag is refused when it is reached. -/
theorem unknownEventTagsRefused : Obligations.UnknownEventTagsRefused := by
  intro e tag events rest hwf hlen h1 h2
  have hall := (Bool.and_eq_true_iff.mp hwf).2
  rw [List.cons_append, List.cons_append, decode_of_header rfl rfl]
  simp [decodeOperands, decodeEvents_of_unknown h1 h2 rest hall hlen]

/-- Settles O12: each scheduler operation runs under the guard of its phase. -/
theorem wrongPhaseRefused : Obligations.WrongPhaseRefused := by
  intro i s p hm hlegal hreq hp
  obtain ⟨body, hexec⟩ := exec_eq_asPhase hreq s
  exact hexec.trans (asPhase_of_other hm hp hlegal body)

/-- Settles O13: the guard of every phase finds the illegal phase before it compares it with its own. -/
theorem badPhaseFaults : Obligations.BadPhaseFaults := by
  intro i s hm hillegal hreq
  obtain ⟨p, hp⟩ := Option.ne_none_iff_exists'.mp hreq
  obtain ⟨body, hexec⟩ := exec_eq_asPhase hp s
  exact ⟨hexec.trans (asPhase_of_illegal hm hillegal p body), step_of_faulted rfl⟩

/-- Settles O14: only the two guards and the admission of a poll record a refusal, and they do nothing else. -/
theorem refusalPerformsNothing : Obligations.RefusalPerformsNothing :=
  fun _ _ _ hexec hchanged => (exec_keepsOrRefuses hexec).resolve_left hchanged

/-- Settles O56: an accepted command is the encoder's, whose operands have a known end; a refused one has none unless its reserved
bits are the reason. -/
theorem commandEndIsWhereDecodingEnds : Obligations.CommandEndIsWhereDecodingEnds :=
  ⟨fun _ _ _ => commandEnd_of_ok, fun _ _ => commandEnd_of_error⟩

/-- Settles O57: in each of the three forms the decoder answers reserved bits and the command has a known end. -/
theorem decodingGoesOnAfterReservedBits : Obligations.DecodingGoesOnAfterReservedBits := by
  refine ⟨fun s i low rest hf hwf hlow hs => ?_, fun s h g rest hf hh hg hs => ?_, fun s g d rest hf hgd hs => ?_⟩
  · refine step_of_reservedBits hf hs (decode_of_lowBits ?_ ?_ _) (commandEnd_encodeOperands low rest hwf)
    · rw [BitVec.extractLsb'_append_eq_left]
      exact opcode_not_reserved i
    · rw [BitVec.extractLsb'_append_eq_right]
      exact hlow
  · refine step_of_reservedBits hf hs (decode_flag_of_reserved hh hg rest) ?_
    rcases hh with rfl | rfl | rfl <;> rfl
  · exact step_of_reservedBits hf hs (decode_flagByte_of_reserved hgd rest) rfl

/-- Settles O1: the decoder evaluates on each word. -/
theorem specWordsDecode : Obligations.SpecWordsDecode :=
  ⟨rfl, rfl, rfl, rfl, rfl, rfl, rfl, rfl, rfl, rfl, rfl, rfl, rfl, rfl, rfl⟩

/-- Settles O7: the assembler evaluates on each text. -/
theorem specTextsAssemble : Obligations.SpecTextsAssemble := by
  unfold Obligations.SpecTextsAssemble
  decide

/-- Settles O8: the fetch decodes the front of the stream. -/
theorem stepRunsDecodedInstruction : Obligations.StepRunsDecodedInstruction :=
  fun _ _ _ => step_of_decode_ok

/-- Settles O9: the fetch refuses what the decoder refuses. -/
theorem stepRefusesUndecodableBytes : Obligations.StepRefusesUndecodableBytes :=
  fun _ _ => step_of_decode_error

end Sys2Proof.Machine

/-! PROOFS for 40_ring_buffer.md: what a push and a pop do (R100, R101), the order in which bytes leave the ring (R102), which
bytes an overflow drops (R103), and how many the ring holds (R104). -/

namespace Sys2Proof.Machine

/-! ## RB_PUSH and RB_POP as operations (40_ring_buffer R100, R101) -/

section Admitted

variable {s : State} (hm : s.cfg.mode = .unit)
include hm

theorem exec_rbPush_of_push {t : State} {b : Byte} (hpush : s.push b = .ok t) : exec (.rbPush b) s = .next t :=
  (asUnit_of_unit hm _).trans (by rw [hpush, settle_ok])

theorem exec_rbPop_of_pop {t : State} {r : Option Byte} (hpop : s.pop = .ok (r, t)) :
    exec .rbPop s = .next (t.emit (.popResult r)) :=
  (asUnit_of_unit hm _).trans (by simp only [hpop, settle_ok])

/-- RB_PUSH in one statement. -/
theorem exec_rbPush_spec (h : RingOk s) (b : Byte) :
    ∃ t, exec (.rbPush b) s = .next t ∧ RingOk t ∧ SameOutsideRing s t ∧ t.held = keepLast s.cap (s.held ++ [b]) ∧
      t.incidents = s.incidents ++ (lose s.cap (s.held ++ [b])).map .rbOverwrite := by
  obtain ⟨t, hpush, hring, hsame, -, hheld, hinc, -⟩ := push_spec h b
  exact ⟨t, exec_rbPush_of_push hm hpush, hring, hsame, hheld, hinc⟩

/-- RB_POP in one statement. -/
theorem exec_rbPop_spec (h : RingOk s) :
    ∃ t, exec .rbPop s = .next t ∧ RingOk t ∧ t.cfg = s.cfg ∧ t.held = s.held.tail ∧ t.incidents = s.incidents ∧
      t.trace = s.trace ++ [.popResult s.held.head?] := by
  obtain ⟨t, hpop, hring, hsame, -, hheld, hinc, -⟩ := pop_spec h
  exact ⟨_, exec_rbPop_of_pop hm hpop, hring.congr rfl rfl rfl rfl, hsame.cfg, hheld, hinc, by rw [emit_trace, hsame.trace]⟩

/-- Pushing a sequence is running its RB_PUSH operations. -/
theorem runOps_rbPush_of_pushAll {t : State} {bs : List Byte} (hpush : s.pushAll bs = .ok t) :
    runOps (bs.map .rbPush) s = .next t := by
  induction bs generalizing s with
  | nil => exact congrArg _ (Except.ok.inj hpush)
  | cons b bs ih =>
    unfold State.pushAll at hpush
    split at hpush
    · rename_i u hu
      simp only [List.map_cons, runOps, exec_rbPush_of_push hm hu]
      exact ih ((push_inv hu).1.cfg ▸ hm) hpush
    · cases hpush

/-- One pop for each byte held returns them in order, and one more returns `none` (40_ring_buffer R103). -/
theorem runOps_rbPop_drains {held : List Byte} (h : RingOk s) (hheld : s.held = held) :
    ∃ u, runOps (List.replicate (held.length + 1) .rbPop) s = .next u ∧
      u.trace = s.trace ++ held.map (fun b => .popResult (some b)) ++ [.popResult none] := by
  induction held generalizing s with
  | nil =>
    obtain ⟨t, hexec, -, -, -, -, htrace⟩ := exec_rbPop_spec hm h
    exact ⟨t, by simp [runOps, hexec], by simp [htrace, hheld]⟩
  | cons b bs ih =>
    obtain ⟨t, hexec, hring, hcfg, htail, -, htrace⟩ := exec_rbPop_spec hm h
    obtain ⟨u, hrun, hu⟩ := ih (hcfg ▸ hm) hring (by rw [htail, hheld, List.tail_cons])
    refine ⟨u, ?_, by simp [hu, htrace, hheld]⟩
    rw [List.length_cons, List.replicate_succ, runOps, hexec]
    exact hrun

end Admitted

/-! ## The order in which bytes leave the ring (40_ring_buffer R102) -/

/-- The ring buffer under its own two operations: bytes leave it popped or overwritten. -/
def ringChannel : Channel Byte where
  held := State.held
  sent := poppedBytes
  lost := droppedBytes
  sent_append := fun _ _ => List.filterMap_append
  lost_append := droppedBytes_append

/-- From `s` to `t`, where the bytes `input` were pushed, bytes left the ring in order, and nothing but overwrites was logged. -/
structure RingFlow (input : List Byte) (s t : State) : Prop where
  flow : Flow ringChannel input s t
  overwrites : ∃ gone : List Byte, t.incidents = s.incidents ++ gone.map .rbOverwrite

theorem RingFlow.refl (s : State) : RingFlow [] s s :=
  ⟨.silent rfl rfl rfl, [], (List.append_nil _).symm⟩

theorem RingFlow.trans {s t u : State} {x y : List Byte} (h : RingFlow x s t) (k : RingFlow y t u) :
    RingFlow (x ++ y) s u := by
  obtain ⟨hflow, gone, hgone⟩ := h
  obtain ⟨kflow, gone', hgone'⟩ := k
  exact ⟨hflow.trans kflow, gone ++ gone', by rw [hgone', hgone, List.map_append, List.append_assoc]⟩

/-- A push enters its byte and loses the oldest where the ring overflows; a pop sends the oldest. -/
theorem exec_ringOp {s : State} (hm : s.cfg.mode = .unit) (h : RingOk s) (op : Option Byte) :
    ∃ t, exec (ringOp op) s = .next t ∧ RingOk t ∧ t.cfg = s.cfg ∧ RingFlow op.toList s t := by
  cases op with
  | some b =>
    obtain ⟨t, hexec, hring, hsame, hheld, hinc⟩ := exec_rbPush_spec hm h b
    have hsplit : s.held ++ [b] = lose s.cap (s.held ++ [b]) ++ t.held := by rw [hheld, lose_append_keepLast]
    have hflow : Flow ringChannel [b] s t :=
      .enter (hsame.trace.trans (List.append_nil _).symm) hinc hsplit rfl (droppedBytes_rbOverwrite _)
    exact ⟨t, hexec, hring, hsame.cfg, hflow, _, hinc⟩
  | none =>
    obtain ⟨t, hexec, hring, hcfg, hheld, hinc, htrace⟩ := exec_rbPop_spec hm h
    refine ⟨t, hexec, hring, hcfg, ?_, [], by simpa using hinc⟩
    cases hs : s.held with
    | nil =>
      rw [hs] at hheld htrace
      exact .emit htrace hinc (hheld.trans hs.symm) rfl
    | cons b bs =>
      rw [hs] at hheld htrace
      exact .send (x := b) htrace hinc (hs.trans (congrArg _ hheld.symm)) rfl

theorem runOps_ringOps {s : State} (hm : s.cfg.mode = .unit) (h : RingOk s) (ops : List (Option Byte)) :
    ∃ t, runOps (ops.map ringOp) s = .next t ∧ RingFlow (ops.filterMap id) s t := by
  induction ops generalizing s with
  | nil => exact ⟨s, rfl, .refl s⟩
  | cons op ops ih =>
    obtain ⟨t, hexec, hring, hcfg, hflow⟩ := exec_ringOp hm h op
    obtain ⟨u, hrun, hrest⟩ := ih (hcfg ▸ hm) hring
    have hinput : (op :: ops).filterMap id = op.toList ++ ops.filterMap id := by cases op <;> rfl
    exact ⟨u, by rw [List.map_cons, runOps, hexec]; exact hrun, hinput ▸ hflow.trans hrest⟩

/-- If nothing is marked as lost, everything is marked as sent. -/
theorem marked_true_of_none_lost {α : Type} {l : List (Bool × α)} (h : marked false l = []) :
    marked true l = l.map Prod.snd := by
  simp only [marked, List.map_eq_nil_iff, List.filter_eq_nil_iff, beq_false, Bool.not_eq_true'] at h
  rw [marked, List.filter_eq_self.mpr fun x hx => by simpa using h x hx]

/-! ## Which operations move a cursor (40_ring_buffer R104) -/

/-- The operations that may move `RB.wr` or `RB.rd`. -/
def MovesCursor (i : Instr) : Prop :=
  (∃ b, i = .rbPush b) ∨ i = .rbPop ∨ (∃ d, i = .dmxPacket d) ∨ (∃ evs, i = .sPoll evs) ∨ i = .sUtx true ∨ ∃ c, i = .reset c

theorem Effect.movesCursor {i : Instr} {s t : State} (h : Effect i s t) (hmoved : t.rbWr ≠ s.rbWr ∨ t.rbRd ≠ s.rbRd) :
    MovesCursor i := by
  have kept : t.rbWr = s.rbWr → t.rbRd = s.rbRd → MovesCursor i := fun hw hr =>
    hmoved.elim (absurd hw) (absurd hr)
  cases i with
  | rbPush | rbPop | dmxPacket | sPoll | reset => simp [MovesCursor]
  | faFeed b =>
    obtain ⟨-, c, u, hfeed, rfl⟩ := h
    obtain ⟨hsame, -⟩ := feed_inv hfeed
    exact kept hsame.rbWr hsame.rbRd
  | sfbStage f =>
    obtain ⟨-, hstage⟩ := h
    obtain ⟨hsame, -⟩ := stage_inv hstage
    exact kept hsame.rbWr hsame.rbRd
  | sfbTake =>
    obtain ⟨-, r, u, htake, rfl⟩ := h
    obtain ⟨rfl, -⟩ := take_inv htake
    exact kept rfl rfl
  | sWdt =>
    obtain ⟨-, -, rfl⟩ := h
    exact kept rfl rfl
  | sUtx txReady =>
    obtain ⟨-, -, ⟨rfl, -⟩ | ⟨-, rfl⟩⟩ := h
    · simp [MovesCursor]
    · exact kept rfl rfl
  | sFlow =>
    obtain ⟨-, -, ⟨-, rfl⟩ | ⟨-, rfl⟩⟩ := h <;> exact kept rfl rfl
  | sUrx rx =>
    cases rx with
    | none =>
      obtain ⟨-, -, rfl⟩ := h
      exact kept rfl rfl
    | some b =>
      obtain ⟨-, -, c, u, hfeed, rfl⟩ := h
      obtain ⟨hsame, -⟩ := feed_inv hfeed
      exact kept hsame.rbWr hsame.rbRd
  | sUsbtx inReady =>
    obtain ⟨-, -, ⟨-, -, f, -, rfl⟩ | ⟨-, rfl⟩⟩ := h <;> exact kept rfl rfl

/-- An operation that moved a cursor had its effect, since a refusal and a raised fault move none. -/
theorem exec_movesCursor {i : Instr} {s t : State} (hexec : exec i s = .next t)
    (hmoved : t.rbWr ≠ s.rbWr ∨ t.rbRd ≠ s.rbRd) : Effect i s t ∧ MovesCursor i := by
  rcases exec_cases hexec with ⟨v, rfl⟩ | ⟨r, rfl⟩ | heffect
  · simp at hmoved
  · simp at hmoved
  · exact ⟨heffect, heffect.movesCursor hmoved⟩

/-- In CORE mode the component operations have no effect, which leaves S_POLL, S_UTX and RESET (40_ring_buffer R101). -/
theorem core_movesCursor {i : Instr} {s t : State} (hm : s.cfg.mode = .core) (hexec : exec i s = .next t)
    (hmoved : t.rbWr ≠ s.rbWr ∨ t.rbRd ≠ s.rbRd) :
    i = .sUtx true ∨ (∃ events, i = .sPoll events) ∨ ∃ c, i = .reset c := by
  obtain ⟨heffect, hmoves⟩ := exec_movesCursor hexec hmoved
  have notUnit : i.requiredMode ≠ some .unit := fun hi => Mode.noConfusion (hm.symm.trans (heffect.mode_eq hi))
  rcases hmoves with ⟨b, rfl⟩ | rfl | ⟨d, rfl⟩ | hpoll | hutx | hreset
  · exact absurd rfl notUnit
  · exact absurd rfl notUnit
  · exact absurd rfl notUnit
  · exact .inr (.inl hpoll)
  · exact .inl hutx
  · exact .inr (.inr hreset)

/-! ## The occupancy (40_ring_buffer R104) -/

theorem keepLast_length (n : Nat) (l : List Byte) : (keepLast n l).length = min l.length n := by
  rw [keepLast, List.length_drop]
  omega

theorem exec_rbPush_occ {s t : State} {b : Byte} (hm : s.cfg.mode = .unit) (h : RingOk s)
    (hexec : exec (.rbPush b) s = .next t) : t.occ = min (s.occ + 1) s.cap ∧ t.occ ≤ t.cap := by
  obtain ⟨u, hu, hring, -, hheld, -⟩ := exec_rbPush_spec hm h b
  obtain rfl := Host.Outcome.next.inj (hu.symm.trans hexec)
  refine ⟨?_, hring.occLe⟩
  rw [← hring.held_length, hheld, keepLast_length, List.length_append, h.held_length]
  rfl

theorem exec_rbPop_occ {s t : State} (hm : s.cfg.mode = .unit) (h : RingOk s) (hexec : exec .rbPop s = .next t) :
    t.occ = s.occ - 1 ∧ t.occ ≤ t.cap := by
  obtain ⟨u, hu, hring, -, hheld, -⟩ := exec_rbPop_spec hm h
  obtain rfl := Host.Outcome.next.inj (hu.symm.trans hexec)
  refine ⟨?_, hring.occLe⟩
  rw [← hring.held_length, hheld, List.length_tail, h.held_length]

/-! ## The statements -/

/-- Settles O17: each push and each pop is a first-in first-out flow through the ring, and flows compose along the run. -/
theorem ringFifoOrder : Obligations.RingFifoOrder := by
  intro s ops h hm
  obtain ⟨t, hrun, ⟨es, ls, removed, htrace, hinc, hheld, hsent, hlost⟩, gone, hgone⟩ := runOps_ringOps hm h.ring ops
  obtain rfl : ls = gone.map .rbOverwrite := List.append_cancel_left (hinc.symm.trans hgone)
  obtain rfl : gone = marked false removed := (droppedBytes_rbOverwrite gone).symm.trans hlost
  refine ⟨t, es, _, removed, hrun, htrace, hinc, hheld, hsent, rfl, fun hkept => ?_⟩
  have hnone : marked false removed = [] :=
    List.map_eq_nil_iff.mp (List.self_eq_append_right.mp (hkept.symm.trans hinc))
  exact hheld.trans (congrArg (· ++ t.held) ((marked_true_of_none_lost hnone).symm.trans hsent.symm))

/-- Settles O15: a push appends where there is room, and into a full ring appends after it dropped the oldest byte. -/
theorem rbPushEffect : Obligations.RbPushEffect := by
  refine fun s b h hm => ⟨fun hroom => exec_rbPush_of_push hm (push_room hroom b), fun hfull => ?_⟩
  obtain ⟨d, hread, hheld, hpush⟩ := push_full h.ring hfull b
  exact ⟨d, s.held.tail, hheld, hread, exec_rbPush_of_push hm hpush⟩

/-- Settles O16: a pop reads the oldest slot and moves `RB.rd` past it; of the operations that move a cursor, the CORE mode admits
three. -/
theorem rbPopEffect : Obligations.RbPopEffect := by
  refine ⟨fun rest => decode_encode (i := .rbPop) rest rfl, fun s t hm hexec => ?_,
    fun s h hm => ⟨fun hempty => ?_, fun hne => ?_⟩, fun i s t hm hexec hmoved => core_movesCursor hm hexec (.inr hmoved)⟩
  · obtain rfl := Host.Outcome.next.inj ((asUnit_of_core hm _).symm.trans hexec)
    rfl
  · exact exec_rbPop_of_pop hm (if_pos hempty)
  · obtain ⟨b, hread, hheld⟩ := h.ring.oldest hne
    exact ⟨b, s.held.tail, hheld, hread, exec_rbPop_of_pop (t := s.skip) hm (by simp [State.pop, hne, hread, State.skip])⟩

/-- Settles O18: the pushes keep the last N bytes of what was pushed, and the pops drain the ring. -/
theorem ringOverwritePolicy : Obligations.RingOverwritePolicy := by
  intro s bs h hm hempty
  obtain ⟨t, hpush, hring, hsame, -, hheld, hinc, -⟩ := pushAll_spec bs h.ring
  rw [held_eq_nil_of_occ hempty, List.nil_append] at hheld hinc
  have hlen : t.held.length = min bs.length s.cap := by rw [hheld, keepLast_length]
  refine ⟨t, runOps_rbPush_of_pushAll hm hpush, hring.held_length ▸ hlen, hheld, hinc, fun hmore => ?_⟩
  obtain ⟨u, hrun, htrace⟩ := runOps_rbPop_drains (hsame.cfg ▸ hm) hring rfl
  rw [hlen, Nat.min_eq_right hmore.le] at hrun
  rw [hheld] at htrace
  exact ⟨u, hrun, htrace⟩

/-- Settles O19: `occ` counts the bytes held, of which a push adds one up to N and a pop removes one; no other effect than those of
the operations named writes a cursor. -/
theorem occupancyLaw : Obligations.OccupancyLaw :=
  ⟨fun _ _ _ h hm => exec_rbPush_occ hm h.ring, fun _ _ h hm => exec_rbPop_occ hm h.ring,
    fun _ _ _ hexec hmoved => (exec_movesCursor hexec hmoved).2⟩

end Sys2Proof.Machine

/-! PROOFS for 41_demux.md: what DMX_PACKET pushes and records, and which operation does the same in CORE mode (R110), and that it
is a sequence of RB_PUSH operations followed by the record of the fragment (R111). -/

namespace Sys2Proof.Machine

/-! ## DMX_PACKET as an operation (41_demux R110) -/

/-- The length of a transfer is read from the two bytes in front of it (30_encoding R74, format P). -/
theorem decode_dmxPacket {l0 l1 : Byte} {data : List Byte} (hlen : data.length = l0.toNat + 256 * l1.toNat)
    (rest : List Byte) : decode (0x30 :: l0 :: l1 :: data ++ rest) = .ok (.dmxPacket data, rest) := by
  have hpacket : decodePacket (l0 :: l1 :: (data ++ rest)) = .ok (data, rest) := by
    rw [decodePacket, ← hlen, takeBytes_append]
  obtain ⟨hlt, hbytes⟩ := encode_of_decodePacket hpacket
  show decode (0x30 :: l0 :: l1 :: (data ++ rest)) = _
  rw [hbytes]
  exact decode_encode (i := .dmxPacket data) rest (wellFormed_dmxPacket.mpr hlt)

/-- The mode's guard lets DMX_PACKET through in UNIT mode (30_encoding R77). -/
theorem exec_dmxPacket_of_demux {s t : State} {data : List Byte} (hm : s.cfg.mode = .unit) (hdemux : s.demux data = .ok t) :
    exec (.dmxPacket data) s = .next t :=
  (asUnit_of_unit hm _).trans (by rw [hdemux, settle_ok])

/-- Demultiplexing is pushing the complete groups and then recording the fragment. -/
theorem demux_of_pushAll {s u : State} {data : List Byte} (hpush : s.pushAll (groupBytes data) = .ok u) :
    s.demux data = .ok { u with
      incidents := u.incidents ++ if fragment data = 0 then [] else [.pktTrunc (fragment data)] } := by
  simp only [State.demux, hpush]
  split
  · rw [List.append_nil]
  · rfl

/-- An operation that keeps what is outside the ring changes the cursors, the storage and the incidents only. -/
theorem SameOutsideRing.eq_with_ring {s t : State} (h : SameOutsideRing s t) (hfc : t.fcDis = s.fcDis) :
    t = { s with rbWr := t.rbWr, rbRd := t.rbRd, rbMem := t.rbMem, incidents := t.incidents } := by
  rw [← h.refusals, ← h.faultMark]
  exact h.eq_with hfc

/-- Demultiplexing in the terms of R110: the bytes pushed and the fragment written as parts of the transfer. -/
theorem demux_effect {s : State} (h : RingOk s) (data : List Byte) :
    ∃ t, s.demux data = .ok t ∧
      t = { s with rbWr := (s.rbWr + 4 * (data.length / 4)) % (2 * s.cap), rbRd := t.rbRd, rbMem := t.rbMem,
                   incidents := t.incidents } ∧
      t.held = keepLast s.cap (s.held ++ data.take (4 * (data.length / 4))) ∧
      t.incidents = s.incidents ++ (lose s.cap (s.held ++ data.take (4 * (data.length / 4)))).map .rbOverwrite ++
        (if data.length % 4 = 0 then [] else [.pktTrunc (data.length % 4)]) := by
  obtain ⟨t, hdemux, -, hsame, hfc, hheld, hinc, hwr, -⟩ := demux_spec data h
  rw [groupBytes_length] at hwr
  exact ⟨t, hdemux, hwr ▸ hsame.eq_with_ring hfc, hheld, hinc.trans (List.append_assoc ..).symm⟩

/-! ## The same through S_POLL (41_demux R110, 44_scheduler R143) -/

/-- S_UTX reads the ring and moves `RB.rd` alone. -/
theorem exec_sUtx_rbWr {s t : State} {ready : Bool} (hexec : exec (.sUtx ready) s = .next t) : t.rbWr = s.rbWr := by
  rcases exec_cases hexec with ⟨v, rfl⟩ | ⟨r, rfl⟩ | ⟨-, -, ⟨-, -, b, -, rfl⟩ | ⟨-, rfl⟩⟩ <;> rfl

/-- Of the operations that move a cursor in CORE mode, S_POLL and RESET write `RB.wr`. -/
theorem core_movesWr {i : Instr} {s t : State} (hm : s.cfg.mode = .core) (hexec : exec i s = .next t)
    (hmoved : t.rbWr ≠ s.rbWr) : (∃ events, i = .sPoll events) ∨ ∃ c, i = .reset c := by
  rcases core_movesCursor hm hexec (.inl hmoved) with rfl | hmoves
  · exact absurd (exec_sUtx_rbWr hexec) hmoved
  · exact hmoves

/-- An admitted poll delivers its events after the UsbPoll and moves on to phase 2. -/
theorem exec_sPoll_of_deliverAll {s u : State} {events : List UsbEvent} (hm : s.cfg.mode = .core) (hp : s.phase = 1)
    (hadmitted : pollVerdict s.cfg.flowctlEn s.fcDis events = none)
    (hdeliver : (s.emit .usbPoll).deliverAll events = .ok u) : exec (.sPoll events) s = .next (u.setPhase 2) :=
  (asPhase_of_phase hm hp (by decide) _).trans (by simp only [hadmitted, State.poll, hdeliver, settle_ok])

/-- Delivering one packet is demultiplexing it. -/
theorem deliverAll_packet (s : State) (data : List Byte) : s.deliverAll [.packet data] = s.demux data := by
  simp only [State.deliverAll, State.deliver]
  cases s.demux data <;> rfl

/-! ## The statements -/

/-- Settles O21: DMX_PACKET demultiplexes its transfer in UNIT mode and is refused in CORE mode, where S_POLL demultiplexes each
packet it delivers. -/
theorem dmxPacketEffect : Obligations.DmxPacketEffect := by
  refine ⟨fun l0 l1 data rest hlen => decode_dmxPacket hlen rest, fun s t data hm hexec => ?_, fun s data h hm => ?_,
    fun i s t hm hexec hmoved => core_movesWr hm hexec hmoved, fun s data h hm hp hdis => ?_⟩
  · obtain rfl := Host.Outcome.next.inj ((asUnit_of_core hm _).symm.trans hexec)
    rfl
  · obtain ⟨t, hdemux, heffect⟩ := demux_effect h.ring data
    exact ⟨t, exec_dmxPacket_of_demux hm hdemux, heffect⟩
  · obtain ⟨t, hdemux, heq, hheld, hinc⟩ := demux_effect (h.emit .usbPoll).ring data
    have hadmitted : pollVerdict s.cfg.flowctlEn s.fcDis [.packet data] = none := by simp [pollVerdict, hdis]
    exact ⟨_, exec_sPoll_of_deliverAll hm hp hadmitted ((deliverAll_packet _ data).trans hdemux), congrArg State.rbWr heq,
      hheld, hinc⟩

/-- Settles O22: the pushes of the complete groups run as RB_PUSH operations, and the record of the fragment follows them. -/
theorem dmxPacketIsItsPushes : Obligations.DmxPacketIsItsPushes := by
  intro s data h hm
  obtain ⟨u, hpush, -⟩ := pushAll_spec (groupBytes data) h.ring
  exact ⟨u, runOps_rbPush_of_pushAll hm hpush, exec_dmxPacket_of_demux hm (demux_of_pushAll hpush)⟩

end Sys2Proof.Machine

/-! PROOFS for 42_frame_assembler.md: what a feed stores and stages (R120), which frames a sequence of feeds completes (R121, R123),
and that the boundaries between them depend on the count alone (R122). -/

namespace Sys2Proof.Machine

/-! ## One feed (42_frame_assembler R120) -/

/-- Below three a feed stores its byte and advances the count. -/
theorem feed_of_below {s : State} (hc : s.faCount ≠ 3) (b : Byte) :
    s.feed b = .ok (false, { s with faStage := s.faStage.set s.faCount b, faCount := s.faCount + 1 }) :=
  (feed_eq s b).trans (if_neg hc)

/-- At three the slots below the one being written hold the partial frame. -/
theorem FrameOk.faStage_of_three {s : State} (h : FrameOk s) (hc : s.faCount = 3) :
    ∃ f0 f1 f2, s.partialFrame = [f0, f1, f2] ∧
      ∀ b, s.faStage.set s.faCount b = ⟨some f0, some f1, some f2, some b⟩ := by
  obtain ⟨f0, h0⟩ := Option.isSome_iff_exists.mp (h.stageWritten 0 (by rw [hc]; decide))
  obtain ⟨f1, h1⟩ := Option.isSome_iff_exists.mp (h.stageWritten 1 (by rw [hc]; decide))
  obtain ⟨f2, h2⟩ := Option.isSome_iff_exists.mp (h.stageWritten 2 (by rw [hc]; decide))
  change s.faStage.s0 = some f0 at h0
  change s.faStage.s1 = some f1 at h1
  change s.faStage.s2 = some f2 at h2
  refine ⟨f0, f1, f2, by simp [State.partialFrame, hc, h0, h1, h2], fun b => ?_⟩
  rw [hc, ← h0, ← h1, ← h2]
  rfl

/-- At three a feed stages the partial frame with its byte added, and starts again. -/
theorem feed_of_three {s : State} (h : FrameOk s) (hc : s.faCount = 3) (b : Byte) :
    ∃ f0 f1 f2, s.partialFrame = [f0, f1, f2] ∧ s.feed b = .ok (true, { s with
      faStage := ⟨some f0, some f1, some f2, some b⟩, faCount := 0,
      sfbFrame := ⟨some f0, some f1, some f2, some b⟩, sfbReady := true,
      incidents := s.incidents ++ s.pending.toList.map .sfbOverwrite }) := by
  obtain ⟨f0, f1, f2, hpart, hset⟩ := h.faStage_of_three hc
  obtain ⟨t, f, hfeed, hbytes, -, hsame, hcount, hstage, hframe, hready, -, -, hinc⟩ := feed_complete h hc b
  obtain rfl : f = ⟨f0, f1, f2, b⟩ := by
    rw [hpart] at hbytes
    cases f
    simpa [Frame.bytes] using hbytes
  refine ⟨f0, f1, f2, hpart, ?_⟩
  rw [hfeed, hsame.eq_with, hcount, hstage, hset, hframe, hready, hinc]
  rfl

/-- The mode's guard lets FA_FEED through in UNIT mode (30_encoding R77). -/
theorem exec_faFeed_of_feed {s u : State} {b : Byte} {c : Bool} (hm : s.cfg.mode = .unit) (hfeed : s.feed b = .ok (c, u)) :
    exec (.faFeed b) s = .next (u.emit (.feedResult c)) :=
  (asUnit_of_unit hm _).trans (by simp only [hfeed, settle_ok])

/-- In its phase S_URX feeds the byte it received, and the feed's result adds nothing to the ready flag (44_scheduler R146). -/
theorem exec_sUrx_of_feed {s u : State} {b : Byte} {c : Bool} (hm : s.cfg.mode = .core) (hp : s.phase = 4)
    (hfeed : s.feed b = .ok (c, u)) : exec (.sUrx (some b)) s = .next (u.setPhase 5) :=
  (asPhase_of_phase hm hp (by decide) _).trans (by simp only [hfeed, readyOr_of_feed hfeed, settle_ok])

/-! ## Which operations touch a partial frame (42_frame_assembler R120) -/

/-- The operations that may write the count or a staging slot. -/
def TouchesPartial (i : Instr) : Prop :=
  (∃ b, i = .faFeed b) ∨ (∃ b, i = .sUrx (some b)) ∨ ∃ c, i = .reset c

theorem Effect.touchesPartial {i : Instr} {s t : State} (h : Effect i s t)
    (htouched : t.faCount ≠ s.faCount ∨ t.faStage ≠ s.faStage) : TouchesPartial i := by
  have kept : t.faCount = s.faCount → t.faStage = s.faStage → TouchesPartial i := fun hcount hstage =>
    htouched.elim (absurd hcount) (absurd hstage)
  cases i with
  | faFeed b => exact .inl ⟨b, rfl⟩
  | reset cause => exact .inr (.inr ⟨cause, rfl⟩)
  | rbPush b =>
    obtain ⟨-, hpush⟩ := h
    obtain ⟨hsame, -⟩ := push_inv hpush
    exact kept hsame.faCount hsame.faStage
  | rbPop =>
    obtain ⟨-, r, u, hpop, rfl⟩ := h
    rcases pop_inv hpop with ⟨rfl, -⟩ | ⟨-, rfl, -⟩ <;> exact kept rfl rfl
  | dmxPacket data =>
    obtain ⟨-, hdemux⟩ := h
    obtain ⟨hsame, -⟩ := demux_inv hdemux
    exact kept hsame.faCount hsame.faStage
  | sfbStage f =>
    obtain ⟨-, hstage⟩ := h
    obtain ⟨-, hcount, hslots, -⟩ := stage_inv hstage
    exact kept hcount hslots
  | sfbTake =>
    obtain ⟨-, r, u, htake, rfl⟩ := h
    obtain ⟨rfl, -⟩ := take_inv htake
    exact kept rfl rfl
  | sWdt =>
    obtain ⟨-, -, rfl⟩ := h
    exact kept rfl rfl
  | sPoll events =>
    obtain ⟨-, -, -, u, hdeliver, rfl⟩ := h
    obtain ⟨hsame, -⟩ := deliverAll_inv hdeliver
    exact kept hsame.faCount hsame.faStage
  | sUtx txReady =>
    obtain ⟨-, -, ⟨-, -, b, -, rfl⟩ | ⟨-, rfl⟩⟩ := h <;> exact kept rfl rfl
  | sFlow =>
    obtain ⟨-, -, ⟨-, rfl⟩ | ⟨-, rfl⟩⟩ := h <;> exact kept rfl rfl
  | sUrx rx =>
    cases rx with
    | none =>
      obtain ⟨-, -, rfl⟩ := h
      exact kept rfl rfl
    | some b => exact .inr (.inl ⟨b, rfl⟩)
  | sUsbtx inReady =>
    obtain ⟨-, -, ⟨-, -, f, -, rfl⟩ | ⟨-, rfl⟩⟩ := h <;> exact kept rfl rfl

/-- An operation that touched a partial frame had its effect, since a refusal and a raised fault touch none. -/
theorem exec_touchesPartial {i : Instr} {s t : State} (hexec : exec i s = .next t)
    (htouched : t.faCount ≠ s.faCount ∨ t.faStage ≠ s.faStage) : Effect i s t ∧ TouchesPartial i := by
  rcases exec_cases hexec with ⟨v, rfl⟩ | ⟨r, rfl⟩ | heffect
  · simp at htouched
  · simp at htouched
  · exact ⟨heffect, heffect.touchesPartial htouched⟩

/-! ## The results of a sequence of feeds (42_frame_assembler R121) -/

/-- The results of `m` feeds from count `n`: a frame is completed where the count of bytes reaches a multiple of four. -/
def feedResults (n m : Nat) : List Event :=
  (List.range m).map fun k => .feedResult ((n + k + 1) % 4 == 0)

theorem feedResults_one : ∀ c : BitVec 2, feedResults c.toNat 1 = [.feedResult (decide (c = 3))] := by decide

theorem feedResults_mod (n m : Nat) : feedResults (n % 4) m = feedResults n m := by
  refine List.map_congr_left fun k _ => ?_
  rw [Nat.add_assoc, Nat.mod_add_mod, ← Nat.add_assoc]

theorem feedResults_add (n m k : Nat) : feedResults n (m + k) = feedResults n m ++ feedResults (n + m) k := by
  simp only [feedResults, List.range_add, List.map_append, List.map_map, Function.comp_def, Nat.add_assoc]

/-! ## The last of a sequence, and all but the last -/

theorem getLast?_toList {α : Type} (o : Option α) : o.toList.getLast? = o := by
  cases o <;> rfl

theorem dropLast_toList {α : Type} (o : Option α) : o.toList.dropLast = [] := by
  cases o <;> rfl

/-- Of the front of a sequence only its last element can be the last of all. -/
theorem getLast?_append_last {α : Type} (l r : List α) : (l.getLast?.toList ++ r).getLast? = (l ++ r).getLast? := by
  rw [List.getLast?_append, List.getLast?_append]
  cases l.getLast? <;> rfl

/-- What a sequence has before its last element can be taken in two parts. -/
theorem dropLast_append_last {α : Type} (l r : List α) :
    l.dropLast ++ (l.getLast?.toList ++ r).dropLast = (l ++ r).dropLast := by
  rcases List.eq_nil_or_concat l with rfl | ⟨front, a, rfl⟩
  · rfl
  · simp [List.dropLast_append_of_ne_nil]

/-! ## The frames of a sequence of feeds (42_frame_assembler R121, R123) -/

/-- The frame pending in `s` and those that feeding `bs` completes, in the order in which each takes the place of the one before. -/
def framesAfter (s : State) (bs : List Byte) : List Frame :=
  s.pending.toList ++ groups4 (s.partialFrame ++ bs)

/-- From `s` to `t` the bytes `bs` were fed: each complete group of four is a frame, the last frame is pending and each earlier one
was overwritten, and the bytes left over are the partial frame. -/
structure Fed (bs : List Byte) (s t : State) : Prop where
  count : t.faCount.toNat = (s.faCount.toNat + bs.length) % 4
  results : t.trace = s.trace ++ feedResults s.faCount.toNat bs.length
  partialFrame : t.partialFrame = unfinished (s.partialFrame ++ bs)
  pending : t.pending = (framesAfter s bs).getLast?
  overwritten : t.incidents = s.incidents ++ (framesAfter s bs).dropLast.map .sfbOverwrite

theorem framesAfter_of_short {s : State} {bs : List Byte} (h : (s.partialFrame ++ bs).length < 4) :
    framesAfter s bs = s.pending.toList := by
  rw [framesAfter, groups4_of_short h, List.append_nil]

theorem Fed.refl {s : State} (h : FrameOk s) : Fed [] s s := by
  have hshort : (s.partialFrame ++ []).length < 4 := by simpa using h.partial_length_lt
  have hframes := framesAfter_of_short hshort
  refine ⟨(Nat.mod_eq_of_lt s.faCount.isLt).symm, (List.append_nil _).symm, ?_, ?_, ?_⟩
  · rw [unfinished_of_short hshort, List.append_nil]
  · rw [hframes, getLast?_toList]
  · rw [hframes, dropLast_toList]
    exact (List.append_nil _).symm

/-- The frames of a longer feed: those of its first part, then those of the rest, cut from where the first part left off. -/
theorem Fed.framesAfter_append {s t : State} {x : List Byte} (h : Fed x s t) (y : List Byte) :
    framesAfter s (x ++ y) = framesAfter s x ++ groups4 (t.partialFrame ++ y) := by
  rw [framesAfter, ← List.append_assoc s.partialFrame, groups4_append, ← h.partialFrame, ← List.append_assoc, framesAfter]

theorem Fed.trans {s t u : State} {x y : List Byte} (h : Fed x s t) (k : Fed y t u) : Fed (x ++ y) s u := by
  have hframes : framesAfter t y = (framesAfter s x).getLast?.toList ++ groups4 (t.partialFrame ++ y) := by
    rw [← h.pending, framesAfter]
  refine ⟨?_, ?_, ?_, ?_, ?_⟩
  · rw [k.count, h.count, Nat.mod_add_mod, List.length_append, Nat.add_assoc]
  · rw [k.results, h.results, h.count, feedResults_mod, List.length_append, feedResults_add, List.append_assoc]
  · rw [k.partialFrame, h.partialFrame, ← unfinished_append, List.append_assoc]
  · rw [k.pending, hframes, getLast?_append_last, ← h.framesAfter_append]
  · rw [k.overwritten, h.overwritten, List.append_assoc, ← List.map_append, hframes, dropLast_append_last,
      ← h.framesAfter_append]

/-- FA_FEED in one statement. -/
theorem exec_faFeed_spec {s : State} (hm : s.cfg.mode = .unit) (h : FrameOk s) (b : Byte) :
    ∃ t, exec (.faFeed b) s = .next t ∧ FrameOk t ∧ t.cfg = s.cfg ∧ Fed [b] s t := by
  by_cases hc : s.faCount = 3
  · obtain ⟨t, f, hfeed, hbytes, hframe, hsame, hcount, -, -, -, hpend, hpart, hinc⟩ := feed_complete h hc b
    have hframes : framesAfter s [b] = s.pending.toList ++ [f] := by rw [framesAfter, ← hbytes]; rfl
    refine ⟨_, exec_faFeed_of_feed hm hfeed, hframe.congr rfl rfl rfl rfl, hsame.cfg, ?_, ?_, ?_, ?_, ?_⟩
    · rw [emit_faCount, hcount, hc, List.length_singleton]
      rfl
    · rw [emit_trace, hsame.trace, List.length_singleton, feedResults_one, decide_eq_true hc]
    · rw [← hbytes, unfinished_bytes]
      exact hpart
    · rw [hframes, List.getLast?_concat]
      exact hpend
    · rw [hframes, List.dropLast_concat]
      exact hinc
  · obtain ⟨t, hfeed, hframe, hsame, hcount, -, -, -, hpend, hpart, hinc⟩ := feed_partial h hc b
    have hshort : (s.partialFrame ++ [b]).length < 4 := hpart ▸ hframe.partial_length_lt
    have hframes := framesAfter_of_short hshort
    refine ⟨_, exec_faFeed_of_feed hm hfeed, hframe.congr rfl rfl rfl rfl, hsame.cfg, ?_, ?_, ?_, ?_, ?_⟩
    · rw [emit_faCount, hcount]
      exact BitVec.toNat_add ..
    · rw [emit_trace, hsame.trace, List.length_singleton, feedResults_one, decide_eq_false hc]
    · rw [unfinished_of_short hshort]
      exact hpart
    · rw [hframes, getLast?_toList]
      exact hpend
    · rw [hframes, dropLast_toList]
      exact hinc.trans (List.append_nil _).symm

/-- A sequence of feeds in one statement. -/
theorem runOps_faFeed {s : State} (hm : s.cfg.mode = .unit) (h : FrameOk s) (bs : List Byte) :
    ∃ t, runOps (bs.map .faFeed) s = .next t ∧ Fed bs s t := by
  induction bs generalizing s with
  | nil => exact ⟨s, rfl, .refl h⟩
  | cons b bs ih =>
    obtain ⟨t, hexec, hframe, hcfg, hfed⟩ := exec_faFeed_spec hm h b
    obtain ⟨u, hrun, hrest⟩ := ih (hcfg ▸ hm) hframe
    exact ⟨u, by rw [List.map_cons, runOps, hexec]; exact hrun, hfed.trans hrest⟩

/-- As `runOps_faFeed`, for the state that a run gave. -/
theorem fed_of_runOps {s t : State} {bs : List Byte} (h : Inv s) (hm : s.cfg.mode = .unit)
    (hrun : runOps (bs.map .faFeed) s = .next t) : Fed bs s t := by
  obtain ⟨u, hrun', hfed⟩ := runOps_faFeed hm h.frame bs
  exact Host.Outcome.next.inj (hrun'.symm.trans hrun) ▸ hfed

/-! ## The statements -/

/-- Settles O24: feeds compose (`Fed.trans`), so a sequence of them cuts the bytes fed into groups of four. -/
theorem frameIntegrity : Obligations.FrameIntegrity := by
  intro s bs h hm
  obtain ⟨t, hrun, hfed⟩ := runOps_faFeed hm h.frame bs
  refine ⟨t, hrun, hfed.count, hfed.results, ?_, hfed.pending, hfed.overwritten⟩
  rw [hfed.partialFrame, unfinished, List.length_append, h.frame.partial_length]

/-- Settles O23: the two forms of a feed, and the operations that had an effect on the count or the staging slots. -/
theorem faFeedEffect : Obligations.FaFeedEffect := by
  refine ⟨fun b rest => decode_encode (i := .faFeed b) rest rfl, fun s t b hm hexec => ?_,
    fun s b h hm => ⟨fun hc => ?_, fun hc => ?_⟩, fun i s t hexec htouched => ?_⟩
  · obtain rfl := Host.Outcome.next.inj ((asUnit_of_core hm _).symm.trans hexec)
    rfl
  · exact exec_faFeed_of_feed hm (feed_of_below hc b)
  · obtain ⟨f0, f1, f2, hpart, hfeed⟩ := feed_of_three h.frame hc b
    exact ⟨f0, f1, f2, hpart, exec_faFeed_of_feed hm hfeed⟩
  · obtain ⟨heffect, ⟨b, rfl⟩ | ⟨b, rfl⟩ | hreset⟩ := exec_touchesPartial hexec htouched
    · exact .inl ⟨heffect.mode_eq rfl, b, rfl⟩
    · exact .inr (.inl ⟨heffect.mode_eq rfl, b, rfl⟩)
    · exact .inr (.inr hreset)

/-- Settles O25: the results of a sequence of feeds are a function of the count and of how many they are; a byte received in CORE mode
is one feed. -/
theorem frameBoundaryIgnoresContent : Obligations.FrameBoundaryIgnoresContent := by
  refine ⟨fun s s' t t' bs bs' h h' hm hm' hcount hlen hrun hrun' => ?_, fun s b h hm hp => ?_⟩
  · have hfed := fed_of_runOps h hm hrun
    have hfed' := fed_of_runOps h' hm' hrun'
    refine ⟨BitVec.eq_of_toNat_eq ?_, _, hfed.results, ?_⟩
    · rw [hfed.count, hfed'.count, hcount, hlen]
    · rw [hfed'.results, hcount, hlen]
  · by_cases hc : s.faCount = 3
    · obtain ⟨f0, f1, f2, hpart, hfeed⟩ := feed_of_three h.frame hc b
      exact ⟨_, exec_sUrx_of_feed hm hp hfeed, by rw [hc]; rfl, absurd hc, fun _ => ⟨f0, f1, f2, hpart, rfl⟩⟩
    · exact ⟨_, exec_sUrx_of_feed hm hp (feed_of_below hc b), rfl, fun _ => rfl, fun h3 => absurd h3 hc⟩

end Sys2Proof.Machine

/-! PROOFS for 43_frame_buffer.md: what a staging and a take do (R130, R131), which operations do the same in CORE mode, and what
becomes of the frames staged between two takes (R132). -/

namespace Sys2Proof.Machine

/-! ## Staging and taking (43_frame_buffer R130, R131) -/

/-- Slots that can be read at once hold the frame read. -/
theorem ofFrame_of_readAll {x : Slots} {f : Frame} (h : x.readAll = .ok f) : x = Slots.ofFrame f := by
  obtain ⟨s0, s1, s2, s3⟩ := x
  unfold Slots.readAll at h
  split at h
  · rename_i h0 h1 h2 h3
    obtain rfl := Except.ok.inj h
    exact (Slots.mk.injEq ..).mpr ⟨h0, h1, h2, h3⟩
  · cases h

/-- While the ready flag is set the four slots hold the pending frame. -/
theorem FrameOk.sfbFrame_of_ready {s : State} (h : FrameOk s) (hr : s.sfbReady = true) : ∃ f, s.sfbFrame = Slots.ofFrame f := by
  obtain ⟨f, hread, -⟩ := h.pending_of_ready hr
  exact ⟨f, ofFrame_of_readAll hread⟩

theorem stage_of_free {s : State} (hr : s.sfbReady = false) (f : Frame) :
    s.stage f = .ok { s with sfbFrame := Slots.ofFrame f, sfbReady := true } := by
  simp [State.stage, hr]

theorem stage_of_pending {s : State} {old : Frame} (hr : s.sfbReady = true) (hold : s.sfbFrame = Slots.ofFrame old) (f : Frame) :
    s.stage f = .ok { s.note (.sfbOverwrite old) with sfbFrame := Slots.ofFrame f, sfbReady := true } := by
  simp [State.stage, hr, hold]

theorem take_of_free {s : State} (hr : s.sfbReady = false) : s.take = .ok (none, s) := by
  simp [State.take, hr]

theorem take_of_pending {s : State} {f : Frame} (hr : s.sfbReady = true) (hf : s.sfbFrame = Slots.ofFrame f) :
    s.take = .ok (some f, { s with sfbReady := false }) := by
  simp [State.take, hr, hf]

/-! ## SFB_STAGE and SFB_TAKE as operations -/

section Admitted

variable {s : State} (hm : s.cfg.mode = .unit)
include hm

theorem exec_sfbStage_of_stage {t : State} {f : Frame} (hstage : s.stage f = .ok t) : exec (.sfbStage f) s = .next t :=
  (asUnit_of_unit hm _).trans (by rw [hstage, settle_ok])

theorem exec_sfbTake_of_take {t : State} {r : Option Frame} (htake : s.take = .ok (r, t)) :
    exec .sfbTake s = .next (t.emit (.takeResult r)) :=
  (asUnit_of_unit hm _).trans (by simp only [htake, settle_ok])

/-- SFB_TAKE in one statement. -/
theorem exec_sfbTake_spec (h : FrameOk s) :
    ∃ t, exec .sfbTake s = .next t ∧ FrameOk t ∧ t.cfg = s.cfg ∧ t.pending = none ∧ t.incidents = s.incidents ∧
      t.trace = s.trace ++ [.takeResult s.pending] := by
  obtain ⟨t, htake, hframe, hsame, -, -, -, -, hpend, hinc⟩ := take_spec h
  exact ⟨_, exec_sfbTake_of_take hm htake, hframe.congr rfl rfl rfl rfl, hsame.cfg, hpend, hinc, by rw [emit_trace, hsame.trace]⟩

/-- Of the frames staged in a row the last is pending, and each staging records the frame that it replaced. -/
theorem runOps_sfbStage (h : FrameOk s) (fs : List Frame) (last : Frame) :
    ∃ t, runOps ((fs ++ [last]).map .sfbStage) s = .next t ∧ FrameOk t ∧ t.cfg = s.cfg ∧ t.trace = s.trace ∧
      t.pending = some last ∧ t.incidents = s.incidents ++ (s.pending.toList ++ fs).map .sfbOverwrite := by
  induction fs generalizing s with
  | nil =>
    obtain ⟨t, hstage, hframe, hsame, -, -, -, -, hpend, hinc⟩ := stage_spec h last
    refine ⟨t, ?_, hframe, hsame.cfg, hsame.trace, hpend, by rw [hinc, List.append_nil]⟩
    simp only [List.nil_append, List.map_cons, List.map_nil, runOps, exec_sfbStage_of_stage hm hstage]
  | cons f fs ih =>
    obtain ⟨t, hstage, hframe, hsame, -, -, -, -, hpend, hinc⟩ := stage_spec h f
    obtain ⟨u, hrun, hframe', hcfg, htrace, hlast, hinc'⟩ := ih (hsame.cfg ▸ hm) hframe
    refine ⟨u, ?_, hframe', hcfg.trans hsame.cfg, htrace.trans hsame.trace, hlast, ?_⟩
    · simpa only [List.cons_append, List.map_cons, runOps, exec_sfbStage_of_stage hm hstage] using hrun
    · simp [hinc', hpend, hinc]

/-- The first of two takes returns the pending frame, the second finds none. -/
theorem runOps_sfbTake_twice (h : FrameOk s) :
    ∃ t, runOps [.sfbTake, .sfbTake] s = .next t ∧ t.trace = s.trace ++ [.takeResult s.pending, .takeResult none] ∧
      t.incidents = s.incidents ∧ t.pending = none := by
  obtain ⟨t, hfirst, hframe, hcfg, hnone, hinc, htrace⟩ := exec_sfbTake_spec hm h
  obtain ⟨u, hsecond, -, -, hpend, hinc', htrace'⟩ := exec_sfbTake_spec (hcfg ▸ hm) hframe
  refine ⟨u, by simp only [runOps, hfirst, hsecond], ?_, hinc'.trans hinc, hpend⟩
  rw [htrace', htrace, hnone, List.append_assoc, List.singleton_append]

end Admitted

/-- A run that gave a next state goes on from there. -/
theorem runOps_append {is : List Instr} {s t : State} (h : runOps is s = .next t) (js : List Instr) :
    runOps (is ++ js) s = runOps js t := by
  induction is generalizing s with
  | nil => rw [Host.Outcome.next.inj h, List.nil_append]
  | cons i is ih =>
    obtain ⟨u, hexec, hrun⟩ := runOps_cons h
    rw [List.cons_append, runOps, hexec]
    exact ih hrun

/-! ## Which operations write the frame and the ready flag in CORE mode (43_frame_buffer R130, R131) -/

/-- Of the scheduler operations, one that changed the ready flag is S_URX, which set it, or S_USBTX, which cleared it. -/
theorem Effect.readyChanged {i : Instr} {s t : State} (hi : i.requiredMode = some .core) (h : Effect i s t)
    (hchanged : t.sfbReady ≠ s.sfbReady) :
    (t.sfbReady = true ∧ ∃ b, i = .sUrx (some b)) ∨ (t.sfbReady = false ∧ i = .sUsbtx true) := by
  cases i with
  | rbPush | rbPop | dmxPacket | faFeed | sfbStage | sfbTake | reset => cases hi
  | sWdt =>
    obtain ⟨-, -, rfl⟩ := h
    exact absurd rfl hchanged
  | sPoll events =>
    obtain ⟨-, -, -, u, hdeliver, rfl⟩ := h
    obtain ⟨hsame, -⟩ := deliverAll_inv hdeliver
    exact absurd hsame.sfbReady hchanged
  | sUtx txReady =>
    obtain ⟨-, -, ⟨-, -, b, -, rfl⟩ | ⟨-, rfl⟩⟩ := h <;> exact absurd rfl hchanged
  | sFlow =>
    obtain ⟨-, -, ⟨-, rfl⟩ | ⟨-, rfl⟩⟩ := h <;> exact absurd rfl hchanged
  | sUrx rx =>
    cases rx with
    | none =>
      obtain ⟨-, -, rfl⟩ := h
      exact absurd rfl hchanged
    | some b =>
      obtain ⟨-, -, c, u, hfeed, rfl⟩ := h
      obtain ⟨-, hkept, -⟩ := feed_inv hfeed
      refine .inl ⟨?_, b, rfl⟩
      cases hr : s.sfbReady with
      | true => exact hkept hr
      | false => exact Bool.eq_true_of_not_eq_false (hr ▸ hchanged)
  | sUsbtx inReady =>
    obtain ⟨-, -, ⟨rfl, -, f, -, rfl⟩ | ⟨-, rfl⟩⟩ := h
    · exact .inr ⟨rfl, rfl⟩
    · exact absurd rfl hchanged

theorem isReset_eq_false_or (i : Instr) : isReset i = false ∨ ∃ c, i = .reset c := by
  cases i with
  | reset cause => exact .inr ⟨cause, rfl⟩
  | _ => exact .inl rfl

section Core

variable {i : Instr} {s t : State} (hm : s.cfg.mode = .core) (hexec : exec i s = .next t)
include hm hexec

/-- A refusal and a raised fault leave the ready flag, so what changed it and is no reset had a scheduler operation's effect. -/
theorem core_readyChanged (hreset : isReset i = false) (hchanged : t.sfbReady ≠ s.sfbReady) :
    (t.sfbReady = true ∧ ∃ b, i = .sUrx (some b)) ∨ (t.sfbReady = false ∧ i = .sUsbtx true) := by
  rcases exec_cases hexec with ⟨v, rfl⟩ | ⟨r, rfl⟩ | heffect
  · exact absurd rfl hchanged
  · exact absurd rfl hchanged
  · exact heffect.readyChanged (heffect.requiredMode_core hm hreset) hchanged

theorem core_setsReady (hreset : isReset i = false) (hs : s.sfbReady = false) (ht : t.sfbReady = true) :
    ∃ b, i = .sUrx (some b) := by
  rcases core_readyChanged hm hexec hreset (by simp [hs, ht]) with ⟨-, hurx⟩ | ⟨hcleared, -⟩
  · exact hurx
  · exact absurd (ht.symm.trans hcleared) Bool.noConfusion

theorem core_clearsReady (hreset : isReset i = false) (hs : s.sfbReady = true) (ht : t.sfbReady = false) :
    i = .sUsbtx true := by
  rcases core_readyChanged hm hexec hreset (by simp [hs, ht]) with ⟨hset, -⟩ | ⟨-, husbtx⟩
  · exact absurd (ht.symm.trans hset) Bool.noConfusion
  · exact husbtx

end Core

/-! ## The statements -/

/-- Settles O28: the stagings leave the last frame pending and the others recorded, the first take empties the buffer. -/
theorem stagingLaw : Obligations.StagingLaw := by
  intro s fs last h hm
  obtain ⟨t, hstaged, hframe, hcfg, htrace, hpend, hinc⟩ := runOps_sfbStage hm h.frame fs last
  obtain ⟨u, htaken, htrace', hinc', hnone⟩ := runOps_sfbTake_twice (hcfg ▸ hm) hframe
  exact ⟨u, (runOps_append hstaged _).trans htaken, by rw [htrace', htrace, hpend], hinc'.trans hinc, hnone⟩

/-- Settles O26: the two forms of a staging; in CORE mode the frame is in S_URX's footprint alone, and S_URX alone sets the flag. -/
theorem sfbStageEffect : Obligations.SfbStageEffect := by
  refine ⟨fun a b c d rest => decode_encode (i := .sfbStage ⟨a, b, c, d⟩) rest rfl, fun s t f hm hexec => ?_,
    fun s f h hm => ⟨fun hr => ?_, fun hr => ?_⟩, fun i s t hm hexec hwritten => ?_⟩
  · obtain rfl := Host.Outcome.next.inj ((asUnit_of_core hm _).symm.trans hexec)
    rfl
  · exact exec_sfbStage_of_stage hm (stage_of_free hr f)
  · obtain ⟨old, hold⟩ := h.frame.sfbFrame_of_ready hr
    exact ⟨old, hold, exec_sfbStage_of_stage hm (stage_of_pending hr hold f)⟩
  · refine (isReset_eq_false_or i).imp_left fun hreset => ?_
    rcases hwritten with hframe | ⟨hs, ht⟩
    · exact (exec_coreFootprint hm hreset hexec).frame hframe
    · exact core_setsReady hm hexec hreset hs ht

/-- Settles O27: the two forms of a take, of which only one clears the flag; in CORE mode S_USBTX alone clears it. -/
theorem sfbTakeEffect : Obligations.SfbTakeEffect := by
  refine ⟨fun rest => decode_encode (i := .sfbTake) rest rfl, fun s t hm hexec => ?_,
    fun s h hm => ⟨fun hr => ?_, fun hr => ?_⟩, fun i s t hm hexec hs ht => ?_⟩
  · obtain rfl := Host.Outcome.next.inj ((asUnit_of_core hm _).symm.trans hexec)
    rfl
  · exact exec_sfbTake_of_take hm (take_of_free hr)
  · obtain ⟨f, hf⟩ := h.frame.sfbFrame_of_ready hr
    exact ⟨f, hf, exec_sfbTake_of_take hm (take_of_pending hr hf)⟩
  · exact (isReset_eq_false_or i).imp_left fun hreset => core_clearsReady hm hexec hreset hs ht

end Sys2Proof.Machine

/-! PROOFS for 44_scheduler.md: what each phase operation and RESET do (R142 to R148), which polls are admitted (R143), what the phase
operations leave unchanged, and what an iteration of the loop does as a whole (R149 to R152). -/

namespace Sys2Proof.Machine

/-! ## Which polls are admitted (44_scheduler R143, 30_encoding R77) -/

/-- An admitted poll is a number of packets followed by a number of disables. -/
theorem pollVerdict_eq_none_iff {en : Bool} {events : List UsbEvent} : ∀ {dis : Bool}, pollVerdict en dis events = none ↔
    ∃ packets n, events = packets.map UsbEvent.packet ++ List.replicate n .flowDisable ∧ (dis = true → packets = []) ∧
      (en = false → n = 0) := by
  induction events with
  | nil => exact fun {_} => ⟨fun _ => ⟨[], 0, rfl, fun _ => rfl, fun _ => rfl⟩, fun _ => rfl⟩
  | cons ev events ih =>
    intro dis
    cases ev with
    | flowDisable =>
      constructor
      · intro h
        cases en with
        | false => cases h
        | true =>
          obtain ⟨packets, n, rfl, hnone, -⟩ := ih.mp h
          obtain rfl := hnone rfl
          exact ⟨[], n + 1, rfl, fun _ => rfl, Bool.noConfusion⟩
      · rintro ⟨_ | ⟨data, packets⟩, _ | n, heq, -, hen⟩
        · cases heq
        · cases en with
          | false => cases hen rfl
          | true => exact ih.mpr ⟨[], n, (List.cons.inj heq).2, fun _ => rfl, Bool.noConfusion⟩
        · cases heq
        · cases heq
    | packet data =>
      constructor
      · intro h
        cases dis with
        | true => cases h
        | false =>
          obtain ⟨packets, n, rfl, -, hen⟩ := ih.mp h
          exact ⟨data :: packets, n, rfl, Bool.noConfusion, hen⟩
      · rintro ⟨_ | ⟨data', packets⟩, n, heq, hdis, hen⟩
        · cases n <;> cases heq
        · cases dis with
          | true => cases hdis rfl
          | false => exact ih.mpr ⟨packets, n, (List.cons.inj heq).2, Bool.noConfusion, hen⟩

theorem any_isFlowDisable_iff {events : List UsbEvent} : events.any isFlowDisable = true ↔ .flowDisable ∈ events := by
  rw [List.any_eq_true]
  constructor
  · rintro ⟨_ | _, hmem, hev⟩
    · cases hev
    · exact hmem
  · exact fun hmem => ⟨_, hmem, rfl⟩

/-- After an admitted front the admission goes on with the acceptance that the front leaves. -/
theorem pollVerdict_append {en : Bool} {before : List UsbEvent} (after : List UsbEvent) : ∀ {dis : Bool},
    pollVerdict en dis before = none →
    pollVerdict en dis (before ++ after) = pollVerdict en (dis || before.any isFlowDisable) after := by
  induction before with
  | nil => intro dis _; simp
  | cons ev before ih =>
    intro dis h
    cases ev with
    | flowDisable =>
      cases en with
      | false => cases h
      | true => simpa [pollVerdict, isFlowDisable] using ih h
    | packet data =>
      cases dis with
      | true => cases h
      | false => simpa [pollVerdict, isFlowDisable] using ih h

/-- While acceptance is disabled an admitted poll pushes nothing. -/
theorem eventBytes_of_disabled {en : Bool} {events : List UsbEvent} (h : pollVerdict en true events = none) :
    events.flatMap eventBytes = [] := by
  obtain ⟨packets, n, rfl, hnone, -⟩ := pollVerdict_eq_none_iff.mp h
  obtain rfl := hnone rfl
  exact List.flatMap_eq_nil_iff.mpr fun ev hev => by rw [List.eq_of_mem_replicate hev]; rfl

/-! ## What each operation does in its phase (44_scheduler R142 to R147) -/

/-- What is the same outside the ring stays so when both states move to the same phase. -/
theorem SameOutsideRing.setPhase {s t : State} (h : SameOutsideRing s t) (p : BitVec 3) :
    SameOutsideRing (s.setPhase p) (t.setPhase p) :=
  { h with phase := rfl }

/-- What a delivery changes: the ring, the acceptance flag and the incidents. -/
theorem SameOutsideRing.eq_with_acceptance {s t : State} (h : SameOutsideRing s t) :
    t = { s with rbWr := t.rbWr, rbRd := t.rbRd, rbMem := t.rbMem, fcDis := t.fcDis, incidents := t.incidents } :=
  SameOutsideRing.eq_with_ring (s := { s with fcDis := t.fcDis }) { h with } rfl

section Admitted

variable {s : State} (hm : s.cfg.mode = .core)
include hm

theorem exec_sWdt (hp : s.phase = 0) : exec .sWdt s = .next ((s.emit .wdtKick).setPhase 1) :=
  asPhase_of_phase hm hp (by decide) _

/-- A poll that is not admitted records its verdict and does nothing else. -/
theorem exec_sPoll_of_refused (hp : s.phase = 1) {events : List UsbEvent} {v : Verdict}
    (hv : pollVerdict s.cfg.flowctlEn s.fcDis events = some v) : exec (.sPoll events) s = .next (s.refuse v) :=
  (asPhase_of_phase hm hp (by decide) _).trans (by simp only [hv, settle_ok])

/-- An admitted S_POLL in one statement. -/
theorem exec_sPoll_spec (hp : s.phase = 1) (h : RingOk s) {events : List UsbEvent}
    (hadmitted : pollVerdict s.cfg.flowctlEn s.fcDis events = none) :
    ∃ t, exec (.sPoll events) s = .next t ∧ RingOk t ∧ SameOutsideRing ((s.emit .usbPoll).setPhase 2) t ∧
      t.fcDis = (s.fcDis || events.any isFlowDisable) ∧
      t.rbWr = (s.rbWr + (events.flatMap eventBytes).length) % (2 * s.cap) ∧
      t.held = keepLast s.cap (s.held ++ events.flatMap eventBytes) ∧
      t.incidents = s.incidents ++ pollIncidents s.cap s.held events := by
  have hring : RingOk (s.emit .usbPoll) := h.congr rfl rfl rfl rfl
  obtain ⟨u, hdeliver, hok, hsame, hfc, hheld, hinc, hwr, -⟩ := deliverAll_spec events hring
  exact ⟨_, exec_sPoll_of_deliverAll hm hp hadmitted hdeliver, hok.congr rfl rfl rfl rfl, hsame.setPhase 2, hfc, hwr, hheld, hinc⟩

theorem exec_sUtx_of_idle (hp : s.phase = 2) {ready : Bool} (hidle : ready = false ∨ s.rbWr = s.rbRd) :
    exec (.sUtx ready) s = .next (s.setPhase 3) :=
  (asPhase_of_phase hm hp (by decide) _).trans (by
    rcases hidle with rfl | hempty
    · rfl
    · simp [hempty])

/-- With the UART ready the oldest byte held is sent. -/
theorem exec_sUtx_of_held (hp : s.phase = 2) (h : RingOk s) (hne : s.rbWr ≠ s.rbRd) :
    ∃ b rest, s.held = b :: rest ∧ s.memRead (s.idx s.rbRd) = some b ∧
      exec (.sUtx true) s = .next ((s.skip.emit (.uartTx b)).setPhase 3) := by
  obtain ⟨b, hread, hheld⟩ := h.oldest hne
  have hpop : s.pop = .ok (some b, s.skip) := by simp [State.pop, hne, hread, State.skip]
  exact ⟨b, _, hheld, hread, (asPhase_of_phase hm hp (by decide) _).trans (by simp [hne, hpop])⟩

theorem exec_sFlow_of_reenables (hp : s.phase = 3) (hr : s.reenables = true) :
    exec .sFlow s = .next (({ s with fcDis := false }.emit .usbRxEnable).setPhase 4) :=
  (asPhase_of_phase hm hp (by decide) _).trans (by rw [if_pos hr, settle_ok])

theorem exec_sFlow_of_not_reenables (hp : s.phase = 3) (hr : s.reenables = false) : exec .sFlow s = .next (s.setPhase 4) :=
  (asPhase_of_phase hm hp (by decide) _).trans (by rw [hr]; rfl)

theorem exec_sUrx_of_none (hp : s.phase = 4) : exec (.sUrx none) s = .next (s.setPhase 5) :=
  asPhase_of_phase hm hp (by decide) _

/-- The fourth byte of a frame stages it. -/
theorem exec_sUrx_of_three (hp : s.phase = 4) (h : FrameOk s) (hc : s.faCount = 3) (b : Byte) :
    ∃ f0 f1 f2, s.partialFrame = [f0, f1, f2] ∧ exec (.sUrx (some b)) s = .next { s with
      faStage := ⟨some f0, some f1, some f2, some b⟩, faCount := 0, sfbFrame := ⟨some f0, some f1, some f2, some b⟩,
      sfbReady := true, incidents := s.incidents ++ s.pending.toList.map .sfbOverwrite, phase := 5 } := by
  obtain ⟨f0, f1, f2, hpart, hfeed⟩ := feed_of_three h hc b
  exact ⟨f0, f1, f2, hpart, exec_sUrx_of_feed hm hp hfeed⟩

theorem exec_sUsbtx_of_idle (hp : s.phase = 5) {ready : Bool} (hidle : ready = false ∨ s.sfbReady = false) :
    exec (.sUsbtx ready) s = .next (s.setPhase 0) :=
  (asPhase_of_phase hm hp (by decide) _).trans (by
    rcases hidle with rfl | hfree
    · rfl
    · simp [hfree])

/-- With the endpoint ready the pending frame is sent. -/
theorem exec_sUsbtx_of_pending (hp : s.phase = 5) (hr : s.sfbReady = true) {f : Frame} (hf : s.sfbFrame = Slots.ofFrame f) :
    exec (.sUsbtx true) s = .next (({ s with sfbReady := false }.emit (.usbTx f)).setPhase 0) :=
  (asPhase_of_phase hm hp (by decide) _).trans (by simp [hr, take_of_pending hr hf])

end Admitted

/-- S_FLOW re-enables acceptance under the three conditions of R145. -/
theorem reenables_iff (s : State) :
    s.reenables = true ↔ s.cfg.flowctlEn = true ∧ s.fcDis = true ∧ s.occ < s.cap - s.cfg.maxPkt := by
  rw [State.reenables, Bool.and_eq_true, Bool.and_eq_true, decide_eq_true_iff, and_assoc]
  rfl

/-! ## Runs that complete (44_scheduler R140, R141, R150) -/

/-- The operations `is` ran from `s` to `t` in CORE mode with no refusal and no fault, emitted `es` and ended in phase `p`. -/
structure Completes (is : List Instr) (es : List Event) (p : BitVec 3) (s t : State) : Prop where
  run : runOps is s = .next t
  inv : Inv t
  mode : t.cfg.mode = .core
  phase : t.phase = p
  refusals : t.refusals = s.refusals
  trace : t.trace = s.trace ++ es

theorem Completes.trans {is js : List Instr} {es fs : List Event} {p q : BitVec 3} {s t u : State}
    (h : Completes is es p s t) (k : Completes js fs q t u) : Completes (is ++ js) (es ++ fs) q s u where
  run := (runOps_append h.run js).trans k.run
  inv := k.inv
  mode := k.mode
  phase := k.phase
  refusals := k.refusals.trans h.refusals
  trace := by rw [k.trace, h.trace, List.append_assoc]

/-- An operation that completed in phase `q` and ended in the phase after it moved on, without refusal or fault. -/
theorem Completes.advances {i : Instr} {es : List Event} {p : BitVec 3} {s t : State} (h : Completes [i] es p s t)
    {q : BitVec 3} (hp : s.phase = q) (hnext : p.toNat = (q.toNat + 1) % 6) :
    ∃ t, exec i s = .next t ∧ t.phase.toNat = (s.phase.toNat + 1) % 6 ∧ t.refusals = s.refusals ∧ t.faultMark = none := by
  obtain ⟨u, hexec, hrun⟩ := runOps_cons h.run
  obtain rfl := Host.Outcome.next.inj hrun
  exact ⟨u, hexec, by rw [h.phase, hp, hnext], h.refusals, h.inv.notFaulted⟩

section Completes

variable {s : State} (h : Inv s) (hm : s.cfg.mode = .core)
include h hm

theorem completes_of_exec {i : Instr} {es : List Event} {p : BitVec 3} {t : State} (hexec : exec i s = .next t)
    (hphase : t.phase = p) (href : t.refusals = s.refusals) (htrace : t.trace = s.trace ++ es) : Completes [i] es p s t where
  run := by simp only [runOps, hexec]
  inv := exec_keeps_inv h hexec
  mode := (exec_recordsGrow hexec).cfg ▸ hm
  phase := hphase
  refusals := href
  trace := htrace

/-- An operation that only moves to the next phase. -/
theorem completes_of_setPhase {i : Instr} {p : BitVec 3} (hexec : exec i s = .next (s.setPhase p)) :
    Completes [i] [] p s (s.setPhase p) :=
  completes_of_exec h hm hexec rfl rfl (List.append_nil _).symm

theorem sWdt_completes (hp : s.phase = 0) : Completes [.sWdt] [.wdtKick] 1 s ((s.emit .wdtKick).setPhase 1) :=
  completes_of_exec h hm (exec_sWdt hm hp) rfl rfl rfl

theorem sPoll_completes (hp : s.phase = 1) {events : List UsbEvent}
    (hadmitted : pollVerdict s.cfg.flowctlEn s.fcDis events = none) : ∃ t, Completes [.sPoll events] [.usbPoll] 2 s t := by
  obtain ⟨t, hexec, -, hsame, -⟩ := exec_sPoll_spec hm hp h.ring hadmitted
  exact ⟨t, completes_of_exec h hm hexec hsame.phase hsame.refusals hsame.trace⟩

theorem sUtx_completes (hp : s.phase = 2) (ready : Bool) :
    ∃ t, ∃ sent : Option Byte, Completes [.sUtx ready] (sent.toList.map .uartTx) 3 s t := by
  by_cases hidle : ready = false ∨ s.rbWr = s.rbRd
  · exact ⟨_, none, completes_of_setPhase h hm (exec_sUtx_of_idle hm hp hidle)⟩
  · obtain ⟨hready, hne⟩ := not_or.mp hidle
    obtain rfl := Bool.eq_true_of_not_eq_false hready
    obtain ⟨b, rest, -, -, hexec⟩ := exec_sUtx_of_held hm hp h.ring hne
    exact ⟨_, some b, completes_of_exec h hm hexec rfl rfl rfl⟩

theorem sFlow_completes (hp : s.phase = 3) :
    ∃ t, ∃ enabled : Bool, Completes [.sFlow] (if enabled = true then [.usbRxEnable] else []) 4 s t := by
  cases hr : s.reenables with
  | true => exact ⟨_, true, completes_of_exec h hm (exec_sFlow_of_reenables hm hp hr) rfl rfl rfl⟩
  | false => exact ⟨_, false, completes_of_setPhase h hm (exec_sFlow_of_not_reenables hm hp hr)⟩

theorem sUrx_completes (hp : s.phase = 4) (rx : Option Byte) : ∃ t, Completes [.sUrx rx] [] 5 s t := by
  cases rx with
  | none => exact ⟨_, completes_of_setPhase h hm (exec_sUrx_of_none hm hp)⟩
  | some b =>
    obtain ⟨c, u, hfeed, -⟩ := feed_keeps_inv h b
    obtain ⟨hsame, -⟩ := feed_inv hfeed
    exact ⟨_, completes_of_exec h hm (exec_sUrx_of_feed hm hp hfeed) rfl hsame.refusals
      (hsame.trace.trans (List.append_nil _).symm)⟩

theorem sUsbtx_completes (hp : s.phase = 5) (ready : Bool) :
    ∃ t, ∃ frame : Option Frame, Completes [.sUsbtx ready] (frame.toList.map .usbTx) 0 s t := by
  by_cases hidle : ready = false ∨ s.sfbReady = false
  · exact ⟨_, none, completes_of_setPhase h hm (exec_sUsbtx_of_idle hm hp hidle)⟩
  · obtain ⟨hready, hr⟩ := not_or.mp hidle
    obtain rfl := Bool.eq_true_of_not_eq_false hready
    have hpending := Bool.eq_true_of_not_eq_false hr
    obtain ⟨f, hf⟩ := h.frame.sfbFrame_of_ready hpending
    exact ⟨_, some f, completes_of_exec h hm (exec_sUsbtx_of_pending hm hp hpending hf) rfl rfl rfl⟩

end Completes

/-! ## What the phase operations leave unchanged (10_state R21 to R27) -/

theorem execSWdt_frame {s t : State} (h : exec .sWdt s = .next t) :
    t = { s with trace := t.trace, phase := t.phase, refusals := t.refusals, faultMark := t.faultMark } ∧
    ∀ a, t.memRead a = s.memRead a := by
  rcases exec_cases h with ⟨v, rfl⟩ | ⟨r, rfl⟩ | ⟨-, -, rfl⟩ <;> exact ⟨rfl, fun _ => rfl⟩

theorem execSPoll_frame {s t : State} {events : List UsbEvent} (h : exec (.sPoll events) s = .next t) :
    t = { s with rbWr := t.rbWr, rbRd := t.rbRd, rbMem := t.rbMem, fcDis := t.fcDis, phase := t.phase, trace := t.trace,
                 incidents := t.incidents, refusals := t.refusals, faultMark := t.faultMark } ∧
    ∀ a, (∀ k, k < (events.flatMap eventBytes).length → a ≠ (s.rbWr + k) % s.cap) → t.memRead a = s.memRead a := by
  rcases exec_cases h with ⟨v, rfl⟩ | ⟨r, rfl⟩ | ⟨-, -, -, u, hdeliver, rfl⟩
  · exact ⟨rfl, fun _ _ => rfl⟩
  · exact ⟨rfl, fun _ _ => rfl⟩
  · obtain ⟨hsame, -, -, -, -, hmem⟩ := deliverAll_inv hdeliver
    refine ⟨?_, hmem⟩
    rw [hsame.eq_with_acceptance]
    rfl

theorem execSUtx_frame {s t : State} {ready : Bool} (h : exec (.sUtx ready) s = .next t) :
    t = { s with rbRd := t.rbRd, trace := t.trace, phase := t.phase, refusals := t.refusals, faultMark := t.faultMark } ∧
    ∀ a, t.memRead a = s.memRead a := by
  rcases exec_cases h with ⟨v, rfl⟩ | ⟨r, rfl⟩ | ⟨-, -, ⟨-, -, b, -, rfl⟩ | ⟨-, rfl⟩⟩ <;> exact ⟨rfl, fun _ => rfl⟩

theorem execSFlow_frame {s t : State} (h : exec .sFlow s = .next t) :
    t = { s with fcDis := t.fcDis, trace := t.trace, phase := t.phase, refusals := t.refusals, faultMark := t.faultMark } ∧
    ∀ a, t.memRead a = s.memRead a := by
  rcases exec_cases h with ⟨v, rfl⟩ | ⟨r, rfl⟩ | ⟨-, -, ⟨-, rfl⟩ | ⟨-, rfl⟩⟩ <;> exact ⟨rfl, fun _ => rfl⟩

theorem execSUrx_frame {s t : State} {rx : Option Byte} (h : exec (.sUrx rx) s = .next t) :
    t = { s with faCount := t.faCount, faStage := t.faStage, sfbFrame := t.sfbFrame, sfbReady := t.sfbReady, phase := t.phase,
                 incidents := t.incidents, refusals := t.refusals, faultMark := t.faultMark } ∧
    ∀ a, t.memRead a = s.memRead a := by
  rcases exec_cases h with ⟨v, rfl⟩ | ⟨r, rfl⟩ | heffect
  · exact ⟨rfl, fun _ => rfl⟩
  · exact ⟨rfl, fun _ => rfl⟩
  · cases rx with
    | none =>
      obtain ⟨-, -, rfl⟩ := heffect
      exact ⟨rfl, fun _ => rfl⟩
    | some b =>
      obtain ⟨-, -, c, u, hfeed, rfl⟩ := heffect
      rw [(feed_inv hfeed).1.eq_with]
      exact ⟨rfl, fun _ => rfl⟩

theorem execSUsbtx_frame {s t : State} {ready : Bool} (h : exec (.sUsbtx ready) s = .next t) :
    t = { s with sfbReady := t.sfbReady, trace := t.trace, phase := t.phase, refusals := t.refusals, faultMark := t.faultMark } ∧
    ∀ a, t.memRead a = s.memRead a := by
  rcases exec_cases h with ⟨v, rfl⟩ | ⟨r, rfl⟩ | ⟨-, -, ⟨-, -, f, -, rfl⟩ | ⟨-, rfl⟩⟩ <;> exact ⟨rfl, fun _ => rfl⟩

/-! ## Same-iteration forwarding (44_scheduler R151) -/

theorem runOps_pair {i j : Instr} {s t u : State} (hi : exec i s = .next t) (hj : exec j t = .next u) :
    runOps [i, j] s = .next u := by
  simp only [runOps, hi, hj]

theorem groupBytes_cons {b : Byte} {data : List Byte} (hlen : 3 ≤ data.length) :
    ∃ rest, groupBytes (b :: data) = b :: rest := by
  obtain ⟨n, hn⟩ : ∃ n, 4 * ((b :: data).length / 4) = n + 1 :=
    Nat.exists_eq_succ_of_ne_zero (by rw [List.length_cons]; omega)
  exact ⟨data.take n, by rw [groupBytes, hn, List.take_succ_cons]⟩

/-- A packet that the empty ring has room for is held whole, but for its trailing fragment. -/
theorem exec_sPoll_fits {s : State} {data : List Byte} (h : Inv s) (hm : s.cfg.mode = .core) (hp : s.phase = 1)
    (hdis : s.fcDis = false) (hempty : s.occ = 0) (hlen : data.length ≤ s.cap) :
    ∃ t, exec (.sPoll [.packet data]) s = .next t ∧ RingOk t ∧ SameOutsideRing ((s.emit .usbPoll).setPhase 2) t ∧
      t.held = groupBytes data := by
  have hadmitted : pollVerdict s.cfg.flowctlEn s.fcDis [.packet data] = none := by simp [pollVerdict, hdis]
  obtain ⟨t, hexec, hring, hsame, -, -, hheld, -⟩ := exec_sPoll_spec hm hp h.ring hadmitted
  refine ⟨t, hexec, hring, hsame, ?_⟩
  have hfits : (groupBytes data).length ≤ s.cap := by rw [groupBytes_length]; omega
  simpa [held_eq_nil_of_occ hempty, eventBytes, keepLast_of_le hfits] using hheld

theorem byte_forwarded {s : State} {data : List Byte} {b : Byte} (h : Inv s) (hm : s.cfg.mode = .core) (hp : s.phase = 1)
    (hdis : s.fcDis = false) (hempty : s.occ = 0) (hlen : 3 ≤ data.length) (hroom : data.length < s.cap) :
    ∃ t, runOps [.sPoll [.packet (b :: data)], .sUtx true] s = .next t ∧ t.trace = s.trace ++ [.usbPoll, .uartTx b] := by
  obtain ⟨t, hpoll, hring, hsame, hheld⟩ := exec_sPoll_fits (data := b :: data) h hm hp hdis hempty hroom
  obtain ⟨rest, hfirst⟩ := groupBytes_cons (b := b) hlen
  rw [hfirst] at hheld
  have hne : t.rbWr ≠ t.rbRd := fun he => by simp [hring.held_eq_nil_iff.mpr he] at hheld
  obtain ⟨b', rest', hheld', -, hutx⟩ := exec_sUtx_of_held (hsame.cfg ▸ hm) hsame.phase hring hne
  obtain rfl := (List.cons.inj (hheld.symm.trans hheld')).1
  refine ⟨_, runOps_pair hpoll hutx, ?_⟩
  show t.trace ++ [.uartTx b] = _
  simp [hsame.trace]

theorem frame_forwarded {s : State} (b : Byte) (h : Inv s) (hm : s.cfg.mode = .core) (hp : s.phase = 4) (hc : s.faCount = 3) :
    ∃ t f0 f1 f2, s.partialFrame = [f0, f1, f2] ∧ runOps [.sUrx (some b), .sUsbtx true] s = .next t ∧
      t.trace = s.trace ++ [.usbTx ⟨f0, f1, f2, b⟩] ∧ t.pending = none := by
  obtain ⟨f0, f1, f2, hpart, hurx⟩ := exec_sUrx_of_three hm hp h.frame hc b
  refine ⟨_, f0, f1, f2, hpart, runOps_pair hurx (exec_sUsbtx_of_pending (f := ⟨f0, f1, f2, b⟩) ?_ rfl rfl rfl), rfl, rfl⟩
  exact hm

theorem frame_waits {s : State} (b : Byte) (h : Inv s) (hm : s.cfg.mode = .core) (hp : s.phase = 4) (hc : s.faCount = 3) :
    ∃ t f0 f1 f2, s.partialFrame = [f0, f1, f2] ∧ runOps [.sUrx (some b), .sUsbtx false] s = .next t ∧
      t.trace = s.trace ∧ t.pending = some ⟨f0, f1, f2, b⟩ ∧ t.phase = 0 := by
  obtain ⟨f0, f1, f2, hpart, hurx⟩ := exec_sUrx_of_three hm hp h.frame hc b
  refine ⟨_, f0, f1, f2, hpart, runOps_pair hurx (exec_sUsbtx_of_idle ?_ rfl (.inl rfl)), rfl, rfl, rfl⟩
  exact hm

/-- At the low-water mark itself one byte sent is enough to re-enable acceptance. -/
theorem pop_counts_for_lowWater {s : State} (h : Inv s) (hm : s.cfg.mode = .core) (hp : s.phase = 2)
    (hbuilt : s.cfg.flowctlEn = true) (hdis : s.fcDis = true) (hocc : s.occ = s.cap - s.cfg.maxPkt) :
    ∃ t b, runOps [.sUtx true, .sFlow] s = .next t ∧ t.fcDis = false ∧ t.trace = s.trace ++ [.uartTx b, .usbRxEnable] := by
  have hmaxPkt : s.cfg.maxPkt < s.cap := h.cfgOk.2.2
  have hne : s.rbWr ≠ s.rbRd := fun he => by
    have := (occ_eq_zero_iff h.ring.wrRange h.ring.rdRange).mpr he
    omega
  obtain ⟨b, rest, -, -, hutx⟩ := exec_sUtx_of_held hm hp h.ring hne
  have hbelow : s.skip.occ < s.cap - s.cfg.maxPkt := by
    have := skip_occ h.ring hne
    omega
  have hreenables : ((s.skip.emit (.uartTx b)).setPhase 3).reenables = true := (reenables_iff _).mpr ⟨hbuilt, hdis, hbelow⟩
  exact ⟨_, b, runOps_pair hutx (exec_sFlow_of_reenables hm rfl hreenables), rfl, List.append_assoc ..⟩

/-! ## Flow-control persistence (44_scheduler R152) -/

/-- What an operation other than RESET may do while acceptance is disabled. -/
structure KeepsDisabled (i : Instr) (s t : State) : Prop where
  acceptance : t.fcDis = true ∨ (i = .sFlow ∧ s.occ < s.cap - s.cfg.maxPkt)
  rbWr : t.rbWr = s.rbWr
  occ : t.occ = s.occ ∨ (i = .sUtx true ∧ t.occ + 1 = s.occ)

/-- Neither the ring's cursors nor the acceptance flag changed. -/
theorem KeepsDisabled.of_kept {i : Instr} {s t : State} (hdis : s.fcDis = true) (hcfg : t.cfg = s.cfg) (hfc : t.fcDis = s.fcDis)
    (hwr : t.rbWr = s.rbWr) (hrd : t.rbRd = s.rbRd) : KeepsDisabled i s t :=
  ⟨.inl (hfc.trans hdis), hwr, .inl (occ_congr hcfg hwr hrd)⟩

theorem Effect.keepsDisabled {i : Instr} {s t : State} (h : RingOk s) (hi : i.requiredMode = some .core) (hdis : s.fcDis = true)
    (he : Effect i s t) : KeepsDisabled i s t := by
  cases i with
  | rbPush | rbPop | dmxPacket | faFeed | sfbStage | sfbTake | reset => cases hi
  | sWdt =>
    obtain ⟨-, -, rfl⟩ := he
    exact .of_kept hdis rfl rfl rfl rfl
  | sPoll events =>
    obtain ⟨-, -, hadmitted, u, hdeliver, rfl⟩ := he
    obtain ⟨hsame, hkept, -, hnothing, -⟩ := deliverAll_inv hdeliver
    obtain ⟨hrd, hwr, -⟩ := hnothing (eventBytes_of_disabled (hdis ▸ hadmitted))
    exact .of_kept hdis hsame.cfg ((hkept hdis).trans hdis.symm) hwr hrd
  | sUtx txReady =>
    obtain ⟨-, -, ⟨rfl, hne, b, -, rfl⟩ | ⟨-, rfl⟩⟩ := he
    · exact ⟨.inl hdis, rfl, .inr ⟨rfl, skip_occ h hne⟩⟩
    · exact .of_kept hdis rfl rfl rfl rfl
  | sFlow =>
    obtain ⟨-, -, ⟨hr, rfl⟩ | ⟨-, rfl⟩⟩ := he
    · obtain ⟨-, -, hbelow⟩ := (reenables_iff s).mp hr
      exact ⟨.inr ⟨rfl, hbelow⟩, rfl, .inl rfl⟩
    · exact .of_kept hdis rfl rfl rfl rfl
  | sUrx rx =>
    cases rx with
    | none =>
      obtain ⟨-, -, rfl⟩ := he
      exact .of_kept hdis rfl rfl rfl rfl
    | some b =>
      obtain ⟨-, -, c, u, hfeed, rfl⟩ := he
      obtain ⟨hsame, -⟩ := feed_inv hfeed
      exact .of_kept hdis hsame.cfg hsame.fcDis hsame.rbWr hsame.rbRd
  | sUsbtx inReady =>
    obtain ⟨-, -, ⟨-, -, f, -, rfl⟩ | ⟨-, rfl⟩⟩ := he <;> exact .of_kept hdis rfl rfl rfl rfl

theorem exec_keepsDisabled {i : Instr} {s t : State} (h : RingOk s) (hm : s.cfg.mode = .core) (hdis : s.fcDis = true)
    (hreset : isReset i = false) (hexec : exec i s = .next t) : KeepsDisabled i s t := by
  rcases exec_cases hexec with ⟨v, rfl⟩ | ⟨r, rfl⟩ | heffect
  · exact .of_kept hdis rfl rfl rfl rfl
  · exact .of_kept hdis rfl rfl rfl rfl
  · exact heffect.keepsDisabled h (heffect.requiredMode_core hm hreset) hdis

/-! ## The statements -/

/-- Settles O31: delivering the events after the UsbPoll changes the ring, the acceptance flag and the incidents as
`deliverAll_spec` says. -/
theorem sPollDelivers : Obligations.SPollDelivers := by
  intro s events h hm hp hadmitted
  obtain ⟨t, hexec, -, hsame, hfc, hwr, hheld, hinc⟩ := exec_sPoll_spec hm hp h.ring hadmitted
  refine ⟨t, hexec, hwr ▸ hsame.eq_with_acceptance, ?_, hheld, hinc⟩
  rw [hfc, Bool.or_eq_true, any_isFlowDisable_iff]

/-- Settles O32: the admitted polls by their form; after an admitted front the next event is judged by the acceptance that the front
leaves. -/
theorem pollAdmission : Obligations.PollAdmission := by
  refine ⟨fun packets n en dis hpackets hn => pollVerdict_eq_none_iff.mpr ⟨packets, n, rfl, hpackets, hn⟩,
    fun events en dis => pollVerdict_eq_none_iff.mp, fun s before after data hm hp hbefore hdisabled => ?_,
    fun s before after hm hp hbuilt hbefore => ?_⟩
  · refine exec_sPoll_of_refused hm hp ?_
    have hrunning : (s.fcDis || before.any isFlowDisable) = true := by
      rwa [Bool.or_eq_true, any_isFlowDisable_iff]
    rw [pollVerdict_append _ hbefore, hrunning]
    rfl
  · refine exec_sPoll_of_refused hm hp ?_
    rw [pollVerdict_append _ hbefore, hbuilt]
    rfl

/-- Settles O33: S_UTX pops only when the UART is ready and a byte is held, and then the oldest. -/
theorem sUtxEffect : Obligations.SUtxEffect :=
  ⟨fun rest => ⟨decode_encode (i := .sUtx false) rest rfl, decode_encode (i := .sUtx true) rest rfl⟩,
    fun _ h hm hp => ⟨exec_sUtx_of_idle hm hp (.inl rfl), fun hempty => exec_sUtx_of_idle hm hp (.inr hempty),
      exec_sUtx_of_held hm hp h.ring⟩⟩

/-- Settles O35: the two forms of a feed, and no feed where no byte is available. -/
theorem sUrxEffect : Obligations.SUrxEffect :=
  ⟨fun rest => decode_encode (i := .sUrx none) rest rfl, fun b rest => decode_encode (i := .sUrx (some b)) rest rfl,
    fun _ b h hm hp => ⟨exec_sUrx_of_none hm hp, fun hc => exec_sUrx_of_feed hm hp (feed_of_below hc b),
      fun hc => exec_sUrx_of_three hm hp h.frame hc b⟩⟩

/-- Settles O36: S_USBTX takes the pending frame only when the endpoint is ready. -/
theorem sUsbtxEffect : Obligations.SUsbtxEffect := by
  refine ⟨fun rest => ⟨decode_encode (i := .sUsbtx false) rest rfl, decode_encode (i := .sUsbtx true) rest rfl⟩,
    fun s h hm hp => ⟨exec_sUsbtx_of_idle hm hp (.inl rfl), fun hfree => exec_sUsbtx_of_idle hm hp (.inr hfree), fun hr => ?_⟩⟩
  obtain ⟨f, hf⟩ := h.frame.sfbFrame_of_ready hr
  exact ⟨f, hf, exec_sUsbtx_of_pending hm hp hr hf⟩

/-- Settles O39: each operation completes in its own phase, whatever its draws. -/
theorem phaseOperationCompletes : Obligations.PhaseOperationCompletes := by
  intro s i h hm hreq hadmitted
  have current : ∀ {p}, i.requiredPhase = some p → s.phase = p := fun hi => Option.some.inj (hreq.symm.trans hi)
  cases i with
  | rbPush | rbPop | dmxPacket | faFeed | sfbStage | sfbTake | reset => cases hreq
  | sWdt => exact (sWdt_completes h hm (current rfl)).advances (current rfl) rfl
  | sPoll events =>
    obtain ⟨t, hdone⟩ := sPoll_completes h hm (current rfl) (hadmitted events rfl)
    exact hdone.advances (current rfl) rfl
  | sUtx txReady =>
    obtain ⟨t, sent, hdone⟩ := sUtx_completes h hm (current rfl) txReady
    exact hdone.advances (current rfl) rfl
  | sFlow =>
    obtain ⟨t, enabled, hdone⟩ := sFlow_completes h hm (current rfl)
    exact hdone.advances (current rfl) rfl
  | sUrx rx =>
    obtain ⟨t, hdone⟩ := sUrx_completes h hm (current rfl) rx
    exact hdone.advances (current rfl) rfl
  | sUsbtx inReady =>
    obtain ⟨t, frame, hdone⟩ := sUsbtx_completes h hm (current rfl) inReady
    exact hdone.advances (current rfl) rfl

/-- Settles O40: none of the five operations' effects writes more. -/
theorem schedulerFrames : Obligations.SchedulerFrames :=
  ⟨fun _ _ => execSWdt_frame, fun _ _ _ => execSUtx_frame, fun _ _ => execSFlow_frame, fun _ _ _ => execSUrx_frame,
    fun _ _ _ => execSUsbtx_frame⟩

/-- Settles O41: the deliveries store where `deliverAll_inv` says. -/
theorem pollFrame : Obligations.PollFrame :=
  fun _ _ _ => execSPoll_frame

/-- Settles O42: the six operations complete one after the other, each in the phase the one before leaves. -/
theorem iterationBounds : Obligations.IterationBounds := by
  intro s events tx inReady rx h hm hp hadmitted
  have hwdt := sWdt_completes h hm hp
  obtain ⟨t1, hpoll⟩ := sPoll_completes hwdt.inv hwdt.mode hwdt.phase (events := events) hadmitted
  obtain ⟨t2, sent, hutx⟩ := sUtx_completes hpoll.inv hpoll.mode hpoll.phase tx
  obtain ⟨t3, enabled, hflow⟩ := sFlow_completes hutx.inv hutx.mode hutx.phase
  obtain ⟨t4, hurx⟩ := sUrx_completes hflow.inv hflow.mode hflow.phase rx
  obtain ⟨t5, frame, husbtx⟩ := sUsbtx_completes hurx.inv hurx.mode hurx.phase inReady
  have hall := ((((hwdt.trans hpoll).trans hutx).trans hflow).trans hurx).trans husbtx
  exact ⟨t5, sent, enabled, frame, hall.run, hall.phase, hall.refusals, by simp [hall.trace]⟩

/-- Settles O43: each pair of operations runs from the state that the first leaves. -/
theorem sameIterationForwarding : Obligations.SameIterationForwarding :=
  ⟨fun _ _ _ => byte_forwarded, fun _ => frame_forwarded, fun _ => pop_counts_for_lowWater, fun _ => frame_waits⟩

/-- Settles O44: an admitted poll has no packet while acceptance is disabled, S_UTX pops at most one byte, and S_FLOW alone clears the
flag. -/
theorem flowControlPersistence : Obligations.FlowControlPersistence := by
  intro i s t h hm hdis hreset hexec
  obtain ⟨hacceptance, hwr, hocc⟩ := exec_keepsDisabled h.ring hm hdis hreset hexec
  exact ⟨hacceptance, hwr, hocc⟩

/-- Settles O30: the kick is the one effect of S_WDT besides the phase. -/
theorem sWdtEffect : Obligations.SWdtEffect :=
  ⟨fun rest => decode_encode (i := .sWdt) rest rfl, fun _ => exec_sWdt⟩

/-- Settles O34: the condition of R145 is the one S_FLOW computes. -/
theorem sFlowEffect : Obligations.SFlowEffect :=
  ⟨fun rest => decode_encode (i := .sFlow) rest rfl, fun s hm hp =>
    ⟨fun hcond => exec_sFlow_of_reenables hm hp ((reenables_iff s).mpr hcond),
      fun hcond => exec_sFlow_of_not_reenables hm hp (Bool.eq_false_iff.mpr (mt (reenables_iff s).mp hcond))⟩⟩

/-- Settles O37: RESET writes the reset value of every element and records its cause. -/
theorem resetEffect : Obligations.ResetEffect :=
  fun _ => ⟨rfl, rfl⟩

end Sys2Proof.Machine

/-! PROOFS for 60_exceptions.md: that no operation raises a fault (R180), and that without an incident of code 1, 2 or 3 no data is lost
in either direction (R181). -/

namespace Sys2Proof.Machine

/-! ## When the step faults (60_exceptions R180) -/

/-- Only the fault mark of an earlier step makes a step fault: an operation always gives a next state. -/
theorem faultMark_of_step_fault {s : State} {r : Fault} (h : step s = .fault r) : s.faultMark = some r := by
  cases hf : s.faultMark with
  | some r' => exact congrArg some (Host.Outcome.fault.inj ((step_of_faulted hf).symm.trans h))
  | none =>
    by_cases hs : s.stream = []
    · cases (step_of_idle hf hs).symm.trans h
    · cases hd : decode s.stream with
      | error v => cases (step_of_decode_error hf hs hd).symm.trans h
      | ok p =>
        obtain ⟨t, hexec⟩ := exec_next p.1 { s with stream := p.2 }
        cases hexec.symm.trans ((step_of_decode_ok hf hd).symm.trans h)

/-! ## What a lossless log does not name (60_exceptions R181) -/

theorem lossless_append (a b : List Incident) : lossless (a ++ b) = true ↔ lossless a = true ∧ lossless b = true := by
  simp [lossless]

/-- A lossless log has no incident that carries dropped data, so what is read off such incidents only is empty. -/
theorem filterMap_of_lossless {α : Type} {carried : Incident → Option α} {ls : List Incident} (h : lossless ls = true)
    (hcarried : ∀ i : Incident, 3 < i.code → carried i = none) : ls.filterMap carried = [] :=
  List.filterMap_eq_nil_iff.mpr fun i hi => hcarried i (of_decide_eq_true (List.all_eq_true.mp h i hi))

theorem droppedBytes_of_lossless {ls : List Incident} (h : lossless ls = true) : droppedBytes ls = [] :=
  filterMap_of_lossless h fun
    | .rbOverwrite _, hcode => absurd hcode (of_decide_eq_false rfl)
    | .sfbOverwrite _, _ | .pktTrunc _, _ | .wdtReset, _ | .extReset, _ => rfl

theorem droppedFrames_of_lossless {ls : List Incident} (h : lossless ls = true) : droppedFrames ls = [] :=
  filterMap_of_lossless h fun
    | .sfbOverwrite _, hcode => absurd hcode (of_decide_eq_false rfl)
    | .rbOverwrite _, _ | .pktTrunc _, _ | .wdtReset, _ | .extReset, _ => rfl

/-! ## A poll without a truncation pushes whole packets (41_demux R110) -/

theorem groupBytes_of_no_fragment {data : List Byte} (h : fragment data = 0) : groupBytes data = data :=
  List.take_of_length_le (Nat.mul_div_cancel' (Nat.dvd_of_mod_eq_zero h)).ge

theorem fragment_eq_zero_of_lossless {n : Nat} {held data : List Byte}
    (h : lossless (eventIncidents n held (.packet data)) = true) : fragment data = 0 := by
  by_contra hfrag
  rw [eventIncidents, if_neg hfrag, lossless_append] at h
  cases h.2

theorem pushedBy_sPoll_of_lossless {n : Nat} : ∀ {held : List Byte} {events : List UsbEvent},
    lossless (pollIncidents n held events) = true → pushedBy (.sPoll events) = deliveredBy (.sPoll events)
  | _, [], _ => rfl
  | held, ev :: events, h => by
    obtain ⟨hev, hrest⟩ := (lossless_append ..).mp h
    have ih := pushedBy_sPoll_of_lossless hrest
    cases ev with
    | packet data =>
      exact congrArg₂ (· ++ ·) (groupBytes_of_no_fragment (fragment_eq_zero_of_lossless hev)) ih
    | flowDisable => exact ih

/-! ## Runs without an incident of code 1, 2 or 3 -/

/-- Only a poll is handed packets, and it pushes them whole unless it records a truncation. -/
theorem Effect.pushedBy_of_lossless {i : Instr} {s t : State} {ls : List Incident} (h : RingOk s) (he : Effect i s t)
    (hinc : t.incidents = s.incidents ++ ls) (hls : lossless ls = true) : pushedBy i = deliveredBy i := by
  cases i with
  | sPoll events =>
    obtain ⟨-, -, -, u, hdeliver, rfl⟩ := he
    obtain ⟨-, -, hpoll⟩ := poll_delivers h hdeliver
    obtain rfl := List.append_cancel_left (hinc.symm.trans hpoll)
    exact pushedBy_sPoll_of_lossless hls
  | _ => rfl

theorem SchedulerRun.pushedBy_of_lossless {is : List Instr} {s t : State} (h : SchedulerRun is s t) :
    ∀ {ls : List Incident}, t.incidents = s.incidents ++ ls → lossless ls = true →
      is.flatMap pushedBy = is.flatMap deliveredBy := by
  induction h with
  | nil _ => exact fun _ _ => rfl
  | cons h hi he hrun ih =>
    intro ls hinc hls
    obtain ⟨-, first, -, -, hfirst, -⟩ := he.uartFlow h hi
    obtain ⟨-, rest, -, -, hrest, -⟩ := hrun.uartFlow
    obtain rfl : ls = first ++ rest :=
      List.append_cancel_left (hinc.symm.trans (by rw [hrest, hfirst, List.append_assoc]))
    obtain ⟨hfirstls, hrestls⟩ := (lossless_append ..).mp hls
    rw [List.flatMap_cons, List.flatMap_cons, he.pushedBy_of_lossless h.ring hfirst hfirstls, ih hrest hrestls]

/-- A flow whose log names none of its items sends all that it does not hold. -/
theorem Flow.all_sent {α : Type} {c : Channel α} {input : List α} {s t : State} {es : List Event} {ls : List Incident}
    (h : Flow c input s t) (htrace : t.trace = s.trace ++ es) (hinc : t.incidents = s.incidents ++ ls)
    (hlost : c.lost ls = []) : c.held s ++ input = c.sent es ++ c.held t := by
  obtain ⟨es', ls', removed, htrace', hinc', hheld, hsent, hremoved⟩ := h
  obtain rfl := List.append_cancel_left (htrace.symm.trans htrace')
  obtain rfl := List.append_cancel_left (hinc.symm.trans hinc')
  rw [hheld, hsent, marked_true_of_none_lost (hremoved.symm.trans hlost)]

/-! ## The statements -/

/-- Settles O47: a lossless log names no dropped byte and no dropped frame, so both flows of the run send all that they do not hold; it
records no truncation either, so the bytes pushed are those delivered. -/
theorem noIncidentNoLoss : Obligations.NoIncidentNoLoss := by
  intro is s t h hm hreset hexec href
  have hrun := schedulerRun_of_runOps h hm hreset hexec href
  obtain ⟨es, ls, -, htrace, hinc, -⟩ := hrun.uartFlow
  refine ⟨es, ls, htrace, hinc, fun hls => ⟨?_, ?_⟩⟩
  · rw [← hrun.pushedBy_of_lossless hinc hls]
    exact hrun.uartFlow.all_sent htrace hinc (droppedBytes_of_lossless hls)
  · exact hrun.serialFlow.frames.all_sent htrace hinc (droppedFrames_of_lossless hls)

/-- Settles O51: the invariant, which every operation keeps, has no fault raised, and without one no step faults. -/
theorem noOperationFaults : Obligations.NoOperationFaults := by
  refine ⟨exec_next, fun _ _ _ h hexec => (exec_keeps_inv h hexec).notFaulted, fun _ _ h hstep => ?_⟩
  cases h.notFaulted.symm.trans (faultMark_of_step_fault hstep)

end Sys2Proof.Machine

/-! PROOFS for 70_reset_and_hazards.md: that the unobservable part of the state is irrelevant (R202), and when a completed frame is lost
(R207). -/

namespace Sys2Proof.Machine

/-! ## States that no output tells apart (70_reset R202) -/

section ObsEq

variable {s s' : State} (h : ObsEq s s')
include h

theorem ObsEq.cap : s.cap = s'.cap := cap_congr h.cfg

/-! Changes of elements that an observer sees. -/

theorem ObsEq.emit (e : Event) : ObsEq (s.emit e) (s'.emit e) :=
  { h with trace := congrArg (· ++ [e]) h.trace }

theorem ObsEq.note (i : Incident) : ObsEq (s.note i) (s'.note i) :=
  { h with incidents := congrArg (· ++ [i]) h.incidents }

theorem ObsEq.refuse (v : Verdict) : ObsEq (s.refuse v) (s'.refuse v) :=
  { h with refusals := congrArg (· ++ [v]) h.refusals }

theorem ObsEq.raise (r : Fault) : ObsEq (s.raise r) (s'.raise r) :=
  { h with faultMark := rfl }

theorem ObsEq.setPhase (p : BitVec 3) : ObsEq (s.setPhase p) (s'.setPhase p) :=
  { h with phase := rfl }

theorem ObsEq.withStream (bs : List Byte) : ObsEq { s with stream := bs } { s' with stream := bs } :=
  { h with stream := rfl }

theorem ObsEq.refuseStream (v : Verdict) : ObsEq (s.refuseStream v) (s'.refuseStream v) :=
  { h.refuse v with stream := congrArg (fun bs => (commandEnd bs).getD []) h.stream }

theorem ObsEq.acceptanceEnabled : ObsEq { s with fcDis := false } { s' with fcDis := false } :=
  { h with fcDis := rfl }

/-- RESET leaves the same elements whatever they were (10_state R29). -/
theorem ObsEq.resetElements : ObsEq s.resetElements s'.resetElements :=
  ⟨h.cfg, held_congr h.cfg rfl rfl rfl, rfl, rfl, rfl, rfl, rfl, h.stream, h.trace, h.incidents, h.refusals, h.faultMark⟩

/-! The changes of one side of the machine: what an observer sees of the other side stays. -/

theorem ObsEq.of_sameOutsideRing {t t' : State} (ht : SameOutsideRing s t) (ht' : SameOutsideRing s' t')
    (hheld : t.held = t'.held) (hfc : t.fcDis = t'.fcDis) (hinc : t.incidents = t'.incidents) : ObsEq t t' where
  cfg := by rw [ht.cfg, ht'.cfg, h.cfg]
  held := hheld
  faCount := by rw [ht.faCount, ht'.faCount, h.faCount]
  partialFrame := by
    rw [partialFrame_congr ht.faCount ht.faStage, partialFrame_congr ht'.faCount ht'.faStage, h.partialFrame]
  pending := by
    rw [pending_congr ht.sfbReady ht.sfbFrame, pending_congr ht'.sfbReady ht'.sfbFrame, h.pending]
  fcDis := hfc
  phase := by rw [ht.phase, ht'.phase, h.phase]
  stream := by rw [ht.stream, ht'.stream, h.stream]
  trace := by rw [ht.trace, ht'.trace, h.trace]
  incidents := hinc
  refusals := by rw [ht.refusals, ht'.refusals, h.refusals]
  faultMark := by rw [ht.faultMark, ht'.faultMark, h.faultMark]

theorem ObsEq.of_sameOutsideFrame {t t' : State} (ht : SameOutsideFrame s t) (ht' : SameOutsideFrame s' t')
    (hcount : t.faCount = t'.faCount) (hpart : t.partialFrame = t'.partialFrame) (hpend : t.pending = t'.pending)
    (hinc : t.incidents = t'.incidents) : ObsEq t t' where
  cfg := by rw [ht.cfg, ht'.cfg, h.cfg]
  held := by rw [ht.held, ht'.held, h.held]
  faCount := hcount
  partialFrame := hpart
  pending := hpend
  fcDis := by rw [ht.fcDis, ht'.fcDis, h.fcDis]
  phase := by rw [ht.phase, ht'.phase, h.phase]
  stream := by rw [ht.stream, ht'.stream, h.stream]
  trace := by rw [ht.trace, ht'.trace, h.trace]
  incidents := hinc
  refusals := by rw [ht.refusals, ht'.refusals, h.refusals]
  faultMark := by rw [ht.faultMark, ht'.faultMark, h.faultMark]

/-! What the operations decide on is observable. -/

theorem ObsEq.empty_iff (hr : RingOk s) (hr' : RingOk s') : s.rbWr = s.rbRd ↔ s'.rbWr = s'.rbRd := by
  rw [← hr.held_eq_nil_iff, ← hr'.held_eq_nil_iff, h.held]

theorem ObsEq.occ (hr : RingOk s) (hr' : RingOk s') : s.occ = s'.occ := by
  rw [← hr.held_length, ← hr'.held_length, h.held]

theorem ObsEq.reenables (hr : RingOk s) (hr' : RingOk s') : s.reenables = s'.reenables := by
  rw [State.reenables, State.reenables, State.lowWater, State.lowWater, h.cfg, h.fcDis, h.occ hr hr', h.cap]

theorem ObsEq.sfbReady (hf : FrameOk s) (hf' : FrameOk s') : s.sfbReady = s'.sfbReady := by
  rw [← hf.pending_isSome, ← hf'.pending_isSome, h.pending]

end ObsEq

/-! ## Operations that no output tells apart -/

/-- Both bodies succeed, in states that no output tells apart. -/
def Alike (x x' : Except Fault State) : Prop :=
  ∃ t t', x = .ok t ∧ x' = .ok t' ∧ ObsEq t t'

/-- Both bodies succeed with the same result, in states that no output tells apart. -/
def SameResult {α : Type} (x x' : Except Fault (α × State)) : Prop :=
  ∃ r t t', x = .ok (r, t) ∧ x' = .ok (r, t') ∧ ObsEq t t'

/-- Both outcomes are next states, which no output tells apart. -/
def AlikeNext (o o' : Host.Outcome State Fault Refusal) : Prop :=
  ∃ t t', o = .next t ∧ o' = .next t' ∧ ObsEq t t'

theorem Alike.of_ok {t t' : State} (h : ObsEq t t') : Alike (.ok t) (.ok t') :=
  ⟨t, t', rfl, rfl, h⟩

theorem AlikeNext.of_next {t t' : State} (h : ObsEq t t') : AlikeNext (.next t) (.next t') :=
  ⟨t, t', rfl, rfl, h⟩

theorem Alike.settle {x x' : Except Fault State} (h : Alike x x') (s s' : State) : AlikeNext (s.settle x) (s'.settle x') := by
  obtain ⟨t, t', rfl, rfl, ht⟩ := h
  exact .of_next ht

theorem frame_eq_of_bytes {f f' : Frame} (h : f.bytes = f'.bytes) : f = f' :=
  List.head_eq_of_cons_eq (congrArg groups4 h)

section Alike

variable {s s' : State} (h : ObsEq s s')
include h

/-- The mode that admits a component operation is observable. -/
theorem alike_asUnit {body body' : Except Fault State} (hbody : Alike body body') :
    AlikeNext (s.asUnit body) (s'.asUnit body') := by
  unfold State.asUnit
  rw [← h.cfg]
  split
  · exact hbody.settle s s'
  · exact .of_next (h.refuse _)

/-- The mode and the phase that admit a scheduler operation are observable. -/
theorem alike_asPhase {p : BitVec 3} {body body' : Except Fault State} (hbody : Alike body body') :
    AlikeNext (s.asPhase p body) (s'.asPhase p body') := by
  unfold State.asPhase
  rw [← h.cfg, ← h.phase]
  split
  · split
    · exact .of_next (h.raise _)
    · split
      · exact hbody.settle s s'
      · exact .of_next (h.refuse _)
  · exact .of_next (h.refuse _)

/-! ### The ring side: what a push, a pop and a poll do is told in terms of the bytes held -/

theorem alike_push (hr : RingOk s) (hr' : RingOk s') (b : Byte) : Alike (s.push b) (s'.push b) := by
  obtain ⟨t, ht, -, hsame, hfc, hheld, hinc, -⟩ := push_spec hr b
  obtain ⟨t', ht', -, hsame', hfc', hheld', hinc', -⟩ := push_spec hr' b
  refine ⟨t, t', ht, ht', h.of_sameOutsideRing hsame hsame' ?_ ?_ ?_⟩
  · rw [hheld, hheld', h.held, h.cap]
  · rw [hfc, hfc', h.fcDis]
  · rw [hinc, hinc', h.incidents, h.held, h.cap]

theorem alike_pop (hr : RingOk s) (hr' : RingOk s') : SameResult s.pop s'.pop := by
  obtain ⟨t, ht, -, hsame, hfc, hheld, hinc, -⟩ := pop_spec hr
  obtain ⟨t', ht', -, hsame', hfc', hheld', hinc', -⟩ := pop_spec hr'
  refine ⟨s.held.head?, t, t', ht, h.held ▸ ht', h.of_sameOutsideRing hsame hsame' ?_ ?_ ?_⟩
  · rw [hheld, hheld', h.held]
  · rw [hfc, hfc', h.fcDis]
  · rw [hinc, hinc', h.incidents]

theorem alike_deliverAll (hr : RingOk s) (hr' : RingOk s') (events : List UsbEvent) :
    Alike (s.deliverAll events) (s'.deliverAll events) := by
  obtain ⟨t, ht, -, hsame, hfc, hheld, hinc, -⟩ := deliverAll_spec events hr
  obtain ⟨t', ht', -, hsame', hfc', hheld', hinc', -⟩ := deliverAll_spec events hr'
  refine ⟨t, t', ht, ht', h.of_sameOutsideRing hsame hsame' ?_ ?_ ?_⟩
  · rw [hheld, hheld', h.held, h.cap]
  · rw [hfc, hfc', h.fcDis]
  · rw [hinc, hinc', h.incidents, h.held, h.cap]

/-- DMX_PACKET does what a poll with its packet does (41_demux R110). -/
theorem alike_demux (hr : RingOk s) (hr' : RingOk s') (data : List Byte) : Alike (s.demux data) (s'.demux data) := by
  rw [← deliverAll_packet, ← deliverAll_packet]
  exact alike_deliverAll h hr hr' _

/-! ### The serial side: what a staging, a take and a feed do is told in terms of the pending and the partial frame -/

theorem alike_stage (hf : FrameOk s) (hf' : FrameOk s') (f : Frame) : Alike (s.stage f) (s'.stage f) := by
  obtain ⟨t, ht, -, hsame, hcount, hstage, -, -, hpend, hinc⟩ := stage_spec hf f
  obtain ⟨t', ht', -, hsame', hcount', hstage', -, -, hpend', hinc'⟩ := stage_spec hf' f
  refine ⟨t, t', ht, ht', h.of_sameOutsideFrame hsame hsame' ?_ ?_ ?_ ?_⟩
  · rw [hcount, hcount', h.faCount]
  · rw [partialFrame_congr hcount hstage, partialFrame_congr hcount' hstage', h.partialFrame]
  · rw [hpend, hpend']
  · rw [hinc, hinc', h.incidents, h.pending]

theorem alike_take (hf : FrameOk s) (hf' : FrameOk s') : SameResult s.take s'.take := by
  obtain ⟨t, ht, -, hsame, hcount, hstage, -, -, hpend, hinc⟩ := take_spec hf
  obtain ⟨t', ht', -, hsame', hcount', hstage', -, -, hpend', hinc'⟩ := take_spec hf'
  refine ⟨s.pending, t, t', ht, h.pending ▸ ht', h.of_sameOutsideFrame hsame hsame' ?_ ?_ ?_ ?_⟩
  · rw [hcount, hcount', h.faCount]
  · rw [partialFrame_congr hcount hstage, partialFrame_congr hcount' hstage', h.partialFrame]
  · rw [hpend, hpend']
  · rw [hinc, hinc', h.incidents]

/-- The frame a feed completes is the observable partial frame and the byte fed. -/
theorem alike_feed (hf : FrameOk s) (hf' : FrameOk s') (b : Byte) : SameResult (s.feed b) (s'.feed b) := by
  by_cases hc : s.faCount = 3
  · obtain ⟨t, f, ht, hbytes, -, hsame, hcount, -, -, -, hpend, hpart, hinc⟩ := feed_complete hf hc b
    obtain ⟨t', f', ht', hbytes', -, hsame', hcount', -, -, -, hpend', hpart', hinc'⟩ :=
      feed_complete hf' (h.faCount ▸ hc) b
    obtain rfl : f = f' := frame_eq_of_bytes (by rw [hbytes, hbytes', h.partialFrame])
    refine ⟨true, t, t', ht, ht', h.of_sameOutsideFrame hsame hsame' ?_ ?_ ?_ ?_⟩
    · rw [hcount, hcount']
    · rw [hpart, hpart']
    · rw [hpend, hpend']
    · rw [hinc, hinc', h.incidents, h.pending]
  · obtain ⟨t, ht, -, hsame, hcount, -, -, -, hpend, hpart, hinc⟩ := feed_partial hf hc b
    obtain ⟨t', ht', -, hsame', hcount', -, -, -, hpend', hpart', hinc'⟩ := feed_partial hf' (h.faCount ▸ hc) b
    refine ⟨false, t, t', ht, ht', h.of_sameOutsideFrame hsame hsame' ?_ ?_ ?_ ?_⟩
    · rw [hcount, hcount', h.faCount]
    · rw [hpart, hpart', h.partialFrame]
    · rw [hpend, hpend', h.pending]
    · rw [hinc, hinc', h.incidents]

/-! ### The bodies of the scheduler operations -/

theorem alike_execSPoll (hr : RingOk s) (hr' : RingOk s') (events : List UsbEvent) :
    AlikeNext (execSPoll events s) (execSPoll events s') := by
  refine alike_asPhase h ?_
  rw [← h.cfg, ← h.fcDis]
  split
  · exact .of_ok (h.refuse _)
  · obtain ⟨t, t', ht, ht', hobs⟩ :=
      alike_deliverAll (h.emit .usbPoll) (hr.congr rfl rfl rfl rfl) (hr'.congr rfl rfl rfl rfl) events
    simp only [State.poll, ht, ht']
    exact .of_ok (hobs.setPhase 2)

theorem alike_execSUtx (hr : RingOk s) (hr' : RingOk s') (ready : Bool) :
    AlikeNext (execSUtx ready s) (execSUtx ready s') := by
  refine alike_asPhase h ?_
  simp only [ne_eq, h.empty_iff hr hr']
  split
  · obtain ⟨r, t, t', ht, ht', hobs⟩ := alike_pop h hr hr'
    rw [ht, ht']
    cases r with
    | none => exact .of_ok (hobs.setPhase 3)
    | some b => exact .of_ok ((hobs.emit (.uartTx b)).setPhase 3)
  · exact .of_ok (h.setPhase 3)

theorem alike_execSFlow (hr : RingOk s) (hr' : RingOk s') : AlikeNext (execSFlow s) (execSFlow s') := by
  refine alike_asPhase h ?_
  rw [h.reenables hr hr']
  split
  · exact .of_ok ((h.acceptanceEnabled.emit .usbRxEnable).setPhase 4)
  · exact .of_ok (h.setPhase 4)

theorem alike_execSUrx (hf : FrameOk s) (hf' : FrameOk s') (rx : Option Byte) :
    AlikeNext (execSUrx rx s) (execSUrx rx s') := by
  refine alike_asPhase h ?_
  cases rx with
  | none => exact .of_ok (h.setPhase 5)
  | some b =>
    obtain ⟨c, t, t', ht, ht', hobs⟩ := alike_feed h hf hf' b
    simp only [ht, ht', readyOr_of_feed ht, readyOr_of_feed ht']
    exact .of_ok (hobs.setPhase 5)

theorem alike_execSUsbtx (hf : FrameOk s) (hf' : FrameOk s') (ready : Bool) :
    AlikeNext (execSUsbtx ready s) (execSUsbtx ready s') := by
  refine alike_asPhase h ?_
  rw [h.sfbReady hf hf']
  split
  · obtain ⟨r, t, t', ht, ht', hobs⟩ := alike_take h hf hf'
    rw [ht, ht']
    cases r with
    | none => exact .of_ok (hobs.setPhase 0)
    | some f => exact .of_ok ((hobs.emit (.usbTx f)).setPhase 0)
  · exact .of_ok (h.setPhase 0)

/-- Every operation, admitted or refused, keeps states alike. -/
theorem alike_exec (hs : Inv s) (hs' : Inv s') (i : Instr) : AlikeNext (exec i s) (exec i s') := by
  cases i with
  | rbPush b => exact alike_asUnit h (alike_push h hs.ring hs'.ring b)
  | rbPop =>
    obtain ⟨r, t, t', ht, ht', hobs⟩ := alike_pop h hs.ring hs'.ring
    refine alike_asUnit h ?_
    rw [ht, ht']
    exact .of_ok (hobs.emit (.popResult r))
  | dmxPacket data => exact alike_asUnit h (alike_demux h hs.ring hs'.ring data)
  | faFeed b =>
    obtain ⟨c, t, t', ht, ht', hobs⟩ := alike_feed h hs.frame hs'.frame b
    refine alike_asUnit h ?_
    rw [ht, ht']
    exact .of_ok (hobs.emit (.feedResult c))
  | sfbStage f => exact alike_asUnit h (alike_stage h hs.frame hs'.frame f)
  | sfbTake =>
    obtain ⟨r, t, t', ht, ht', hobs⟩ := alike_take h hs.frame hs'.frame
    refine alike_asUnit h ?_
    rw [ht, ht']
    exact .of_ok (hobs.emit (.takeResult r))
  | sWdt => exact alike_asPhase h (.of_ok ((h.emit .wdtKick).setPhase 1))
  | sPoll events => exact alike_execSPoll h hs.ring hs'.ring events
  | sUtx ready => exact alike_execSUtx h hs.ring hs'.ring ready
  | sFlow => exact alike_execSFlow h hs.ring hs'.ring
  | sUrx rx => exact alike_execSUrx h hs.frame hs'.frame rx
  | sUsbtx ready => exact alike_execSUsbtx h hs.frame hs'.frame ready
  | reset cause => exact .of_next (h.note (resetIncident cause)).resetElements

/-- While the stream lasts, the step decodes the same from both states. -/
theorem alike_step (hs : Inv s) (hs' : Inv s') (hstream : s.stream ≠ []) : AlikeNext (step s) (step s') := by
  cases hd : decode s.stream with
  | error v =>
    rw [step_of_decode_error hs.notFaulted hstream hd,
      step_of_decode_error hs'.notFaulted (h.stream ▸ hstream) (h.stream ▸ hd)]
    exact .of_next (h.refuseStream v)
  | ok p =>
    rw [step_of_decode_ok hs.notFaulted hd, step_of_decode_ok hs'.notFaulted (h.stream ▸ hd)]
    exact alike_exec (h.withStream p.2) (hs.withRecords ..) (hs'.withRecords ..) p.1

end Alike

/-! ## What an iteration does to the serial side (44_scheduler R146, R147) -/

/-- The partial frame, the pending frame and the frames recorded as lost are the same in both states. -/
structure SerialKept (s t : State) : Prop where
  partialFrame : t.partialFrame = s.partialFrame
  pending : t.pending = s.pending
  dropped : droppedFrames t.incidents = droppedFrames s.incidents

theorem SerialKept.trans {s t u : State} (h : SerialKept s t) (k : SerialKept t u) : SerialKept s u :=
  ⟨k.partialFrame.trans h.partialFrame, k.pending.trans h.pending, k.dropped.trans h.dropped⟩

/-- The phases before S_URX leave the serial side alone. -/
theorem Effect.serialKept {i : Instr} {s t : State} {p : BitVec 3} (h : RingOk s) (he : Effect i s t)
    (hp : i.requiredPhase = some p) (hlt : p.toNat < 4) : SerialKept s t := by
  cases i with
  | rbPush | rbPop | dmxPacket | faFeed | sfbStage | sfbTake | reset => cases hp
  | sUrx | sUsbtx =>
    cases hp
    contradiction
  | sWdt =>
    obtain ⟨-, -, rfl⟩ := he
    exact ⟨rfl, rfl, rfl⟩
  | sPoll events =>
    obtain ⟨-, -, -, u, hdeliver, rfl⟩ := he
    obtain ⟨hsame, -, hinc⟩ := poll_delivers h hdeliver
    refine ⟨partialFrame_congr hsame.faCount hsame.faStage, pending_congr hsame.sfbReady hsame.sfbFrame, ?_⟩
    rw [setPhase_incidents, hinc, droppedFrames_append, droppedFrames_pollIncidents, List.append_nil]
  | sUtx ready =>
    obtain ⟨-, -, ⟨-, -, b, -, rfl⟩ | ⟨-, rfl⟩⟩ := he <;> exact ⟨rfl, rfl, rfl⟩
  | sFlow =>
    obtain ⟨-, -, ⟨-, rfl⟩ | ⟨-, rfl⟩⟩ := he <;> exact ⟨rfl, rfl, rfl⟩

/-- What is pending after S_USBTX: nothing where the endpoint is ready (44_scheduler R147). -/
def unsent (inReady : Bool) (pending : Option Frame) : Option Frame := if inReady then none else pending

theorem unsent_eq_some_iff {inReady : Bool} {pending : Option Frame} {f : Frame} :
    unsent inReady pending = some f ↔ inReady = false ∧ pending = some f := by
  cases inReady <;> simp [unsent]

theorem unsent_none (inReady : Bool) : unsent inReady none = none := by
  cases inReady <;> rfl

/-- From `s` to `t` the byte `rx` was received, if any, and the endpoint was offered the pending frame: the byte joined the partial
frame, or it completed a frame, which took the place of the pending one. -/
inductive SerialStep (rx : Option Byte) (inReady : Bool) (s t : State) : Prop where
  | joins (hpart : t.partialFrame = s.partialFrame ++ rx.toList) (hpend : t.pending = unsent inReady s.pending)
      (hdrop : droppedFrames t.incidents = droppedFrames s.incidents)
  | completes {b : Byte} {f : Frame} (hrx : rx = some b) (hbytes : f.bytes = s.partialFrame ++ [b])
      (hpart : t.partialFrame = []) (hpend : t.pending = unsent inReady (some f))
      (hdrop : droppedFrames t.incidents = droppedFrames s.incidents ++ s.pending.toList)

theorem SerialStep.of_kept {rx : Option Byte} {inReady : Bool} {s t u : State} (h : SerialKept s t)
    (k : SerialStep rx inReady t u) : SerialStep rx inReady s u := by
  obtain ⟨hpart, hpend, hdrop⟩ := h
  cases k with
  | joins kpart kpend kdrop => exact .joins (hpart ▸ kpart) (hpend ▸ kpend) (kdrop.trans hdrop)
  | completes hrx hbytes kpart kpend kdrop =>
    exact .completes hrx (hpart ▸ hbytes) kpart kpend (by rw [kdrop, hdrop, hpend])

/-- S_URX receives, and offers the endpoint nothing. -/
theorem sUrx_serialStep {rx : Option Byte} {s t : State} (h : FrameOk s) (he : Effect (.sUrx rx) s t) :
    SerialStep rx false s t := by
  cases rx with
  | none =>
    obtain ⟨-, -, rfl⟩ := he
    exact .joins (List.append_nil _).symm rfl rfl
  | some b =>
    obtain ⟨-, -, c, u, hfeed, rfl⟩ := he
    obtain ⟨-, ⟨hinc, hpend, hpart, -⟩ | ⟨f, hbytes, hinc, hpend, hpart⟩⟩ := feed_cases h hfeed
    · exact .joins hpart hpend (congrArg droppedFrames hinc)
    · refine .completes rfl hbytes hpart hpend ?_
      rw [setPhase_incidents, hinc, droppedFrames_append, droppedFrames_sfbOverwrite]

/-- S_USBTX sends the pending frame where the endpoint is ready. -/
theorem SerialStep.transmit {rx : Option Byte} {inReady : Bool} {s t u : State} (h : SerialStep rx false s t)
    (he : Effect (.sUsbtx inReady) t u) : SerialStep rx inReady s u := by
  have hkept : u.partialFrame = t.partialFrame ∧ u.pending = unsent inReady t.pending ∧
      droppedFrames u.incidents = droppedFrames t.incidents := by
    obtain ⟨-, -, ⟨rfl, -, f, -, rfl⟩ | ⟨rfl | hfree, rfl⟩⟩ := he
    · exact ⟨rfl, rfl, rfl⟩
    · exact ⟨rfl, rfl, rfl⟩
    · refine ⟨rfl, ?_, rfl⟩
      show t.pending = unsent inReady t.pending
      rw [pending_of_not_ready hfree, unsent_none]
  obtain ⟨kpart, kpend, kdrop⟩ := hkept
  cases h with
  | joins hpart hpend hdrop => exact .joins (kpart.trans hpart) (kpend.trans (congrArg _ hpend)) (kdrop.trans hdrop)
  | completes hrx hbytes hpart hpend hdrop =>
    exact .completes hrx hbytes (kpart.trans hpart) (kpend.trans (congrArg _ hpend)) (kdrop.trans hdrop)

/-- An iteration receives in its fifth operation and transmits in its sixth (30_encoding R80). -/
theorem serialStep_of_iteration {d : Draws} {s t : State} (h : Inv s) (hm : s.cfg.mode = .core)
    (hrun : runOps d.ops s = .next t) (href : t.refusals = s.refusals) : SerialStep d.rx d.inReady s t := by
  obtain _ | ⟨hwdt, -, ewdt, _ | ⟨hpoll, -, epoll, _ | ⟨hutx, -, eutx, _ | ⟨hflow, -, eflow, _ | ⟨hurx, -, eurx,
    _ | ⟨-, -, eusbtx, _ | -⟩⟩⟩⟩⟩⟩ := schedulerRun_of_runOps h hm rfl hrun href
  have hkept := (((ewdt.serialKept hwdt.ring rfl (by decide)).trans (epoll.serialKept hpoll.ring rfl (by decide))).trans
    (eutx.serialKept hutx.ring rfl (by decide))).trans (eflow.serialKept hflow.ring rfl (by decide))
  exact .of_kept hkept ((sUrx_serialStep hurx.frame eurx).transmit eusbtx)

/-! ## Runs of iterations -/

theorem runOps_keeps_inv : ∀ {is : List Instr} {s t : State}, Inv s → runOps is s = .next t → Inv t
  | [], _, _, h, hrun => Host.Outcome.next.inj hrun ▸ h
  | _ :: _, _, _, h, hrun => by
    obtain ⟨u, hexec, hrest⟩ := runOps_cons hrun
    exact runOps_keeps_inv (exec_keeps_inv h hexec) hrest

theorem runOps_next (is : List Instr) (s : State) : ∃ t, runOps is s = .next t := by
  induction is generalizing s with
  | nil => exact ⟨s, rfl⟩
  | cons i is ih =>
    obtain ⟨u, hexec⟩ := exec_next i s
    rw [runOps, hexec]
    exact ih u

/-- A run that was refused nowhere can be cut into two such runs. -/
theorem runOps_split {is js : List Instr} {s u : State} (hrun : runOps (is ++ js) s = .next u)
    (href : u.refusals = s.refusals) : ∃ t, runOps is s = .next t ∧ runOps js t = .next u ∧ t.refusals = s.refusals ∧
      u.refusals = t.refusals := by
  obtain ⟨t, ht⟩ := runOps_next is s
  have hrest : runOps js t = .next u := runOps_append ht js ▸ hrun
  have hst : s.refusals = t.refusals := (runOps_recordsGrow ht).refusals.eq_of_length_le
    (href ▸ (runOps_recordsGrow hrest).refusals.length_le)
  exact ⟨t, ht, hrest, hst.symm, href.trans hst⟩

/-- The frames lost between two states are those the new incidents name. -/
theorem droppedFrames_of_grown {s t : State} {ls : List Incident} {lost : List Frame}
    (hinc : t.incidents = s.incidents ++ ls) (hdrop : droppedFrames t.incidents = droppedFrames s.incidents ++ lost) :
    droppedFrames ls = lost :=
  List.append_cancel_left ((droppedFrames_append _ _).symm.trans (hinc ▸ hdrop))

/-! ## The endpoint is ready in every iteration -/

/-- An iteration that starts with no frame pending loses none, and with the endpoint ready it leaves none pending. -/
theorem SerialStep.ready_keeps {rx : Option Byte} {s t : State} (h : SerialStep rx true s t) (hs : s.pending = none) :
    t.pending = none ∧ droppedFrames t.incidents = droppedFrames s.incidents := by
  cases h with
  | joins _ hpend hdrop => exact ⟨hpend, hdrop⟩
  | completes _ _ _ hpend hdrop => exact ⟨hpend, by rw [hdrop, hs]; exact List.append_nil _⟩

/-- The draws of an iteration in which the endpoint is ready. -/
def readyDraws (d : List UsbEvent × Bool × Option Byte) : Draws := ⟨d.1, d.2.1, d.2.2, true⟩

theorem readyDraws_ops (draws : List (List UsbEvent × Bool × Option Byte)) :
    (draws.map readyDraws).flatMap Draws.ops = draws.flatMap fun d => iterOps d.1 d.2.1 d.2.2 true :=
  List.flatMap_map ..

theorem ready_iterations_keep : ∀ {draws : List Draws} {s t : State}, Inv s → s.cfg.mode = .core → s.pending = none →
    (∀ d ∈ draws, d.inReady = true) → runOps (draws.flatMap Draws.ops) s = .next t → t.refusals = s.refusals →
    t.pending = none ∧ droppedFrames t.incidents = droppedFrames s.incidents
  | [], _, _, _, _, hs, _, hrun, _ => Host.Outcome.next.inj hrun ▸ ⟨hs, rfl⟩
  | d :: draws, s, t, h, hm, hs, hready, hrun, href => by
    rw [List.flatMap_cons] at hrun
    obtain ⟨u, hfirst, hrest, hsu, hut⟩ := runOps_split hrun href
    have hstep := serialStep_of_iteration h hm hfirst hsu
    rw [hready d List.mem_cons_self] at hstep
    obtain ⟨hu, hdrop⟩ := hstep.ready_keeps hs
    obtain ⟨ht, hdrop'⟩ := ready_iterations_keep (runOps_keeps_inv h hfirst) ((runOps_recordsGrow hfirst).cfg ▸ hm) hu
      (fun e he => hready e (List.mem_cons_of_mem d he)) hrest hut
    exact ⟨ht, hdrop'.trans hdrop⟩

/-! ## Since when a frame is pending -/

/-- After the iterations `draws` from `s` to `t`, the frame `f` has been pending, with the endpoint not ready, since it was completed
in the first iteration of `since`, or since before the run; the partial frame of `t` holds the bytes received after that. -/
def PendingSince (draws : List Draws) (s t : State) (f : Frame) : Prop :=
  ∃ before since m, draws = before ++ since ∧ runOps (before.flatMap Draws.ops) s = .next m ∧
    (∀ d ∈ since, d.inReady = false) ∧
    ((before = [] ∧ s.pending = some f ∧ t.partialFrame = s.partialFrame ++ receivedIn since) ∨
      ∃ d rest b, since = d :: rest ∧ d.rx = some b ∧ f.bytes = m.partialFrame ++ [b] ∧ t.partialFrame = receivedIn rest)

theorem receivedIn_snoc (draws : List Draws) (d : Draws) : receivedIn (draws ++ [d]) = receivedIn draws ++ d.rx.toList := by
  simp [receivedIn]

theorem PendingSince.start {s : State} {f : Frame} (h : s.pending = some f) : PendingSince [] s s f :=
  ⟨[], [], s, rfl, rfl, List.forall_mem_nil _, .inl ⟨rfl, h, (List.append_nil _).symm⟩⟩

/-- The frame goes on being pending through an iteration whose byte, if any, joins the partial frame. -/
theorem PendingSince.goes_on {draws : List Draws} {d : Draws} {s t u : State} {f : Frame} (h : PendingSince draws s t f)
    (hbusy : d.inReady = false) (hpart : u.partialFrame = t.partialFrame ++ d.rx.toList) :
    PendingSince (draws ++ [d]) s u f := by
  obtain ⟨before, since, m, rfl, hrun, hsince, hwhen⟩ := h
  refine ⟨before, since ++ [d], m, List.append_assoc .., hrun,
    List.forall_mem_append.mpr ⟨hsince, List.forall_mem_singleton.mpr hbusy⟩, ?_⟩
  obtain ⟨hbefore, hs, ht⟩ | ⟨e, rest, b, rfl, hrx, hbytes, ht⟩ := hwhen
  · exact .inl ⟨hbefore, hs, by rw [hpart, ht, receivedIn_snoc, List.append_assoc]⟩
  · exact .inr ⟨e, rest ++ [d], b, rfl, hrx, hbytes, by rw [hpart, ht, receivedIn_snoc]⟩

/-- A frame is pending since the iteration that completed it. -/
theorem PendingSince.of_completed {draws : List Draws} {d : Draws} {s t u : State} {f : Frame} {b : Byte}
    (hrun : runOps (draws.flatMap Draws.ops) s = .next t) (hbusy : d.inReady = false) (hrx : d.rx = some b)
    (hbytes : f.bytes = t.partialFrame ++ [b]) (hpart : u.partialFrame = []) : PendingSince (draws ++ [d]) s u f :=
  ⟨draws, [d], t, rfl, hrun, List.forall_mem_singleton.mpr hbusy, .inr ⟨d, [], b, rfl, hrx, hbytes, hpart⟩⟩

/-- Whatever frame is pending after a run of iterations has been pending since one of them, or since before the run. -/
theorem pendingSince_of_runOps {draws : List Draws} {s : State} (h : Inv s) (hm : s.cfg.mode = .core) :
    ∀ {t : State} {f : Frame}, runOps (draws.flatMap Draws.ops) s = .next t → t.refusals = s.refusals →
      t.pending = some f → PendingSince draws s t f := by
  induction draws using List.reverseRecOn with
  | nil =>
    intro t f hrun _ ht
    obtain rfl := Host.Outcome.next.inj hrun
    exact .start ht
  | append_singleton draws d ih =>
    intro u f hrun href hu
    rw [List.flatMap_append, List.flatMap_singleton] at hrun
    obtain ⟨t, hfirst, hlast, hst, htu⟩ := runOps_split hrun href
    cases serialStep_of_iteration (runOps_keeps_inv h hfirst) ((runOps_recordsGrow hfirst).cfg ▸ hm) hlast htu with
    | joins hpart hpend _ =>
      obtain ⟨hbusy, ht⟩ := unsent_eq_some_iff.mp (hpend.symm.trans hu)
      exact (ih hfirst hst ht).goes_on hbusy hpart
    | completes hrx hbytes hpart hpend _ =>
      obtain ⟨hbusy, hf⟩ := unsent_eq_some_iff.mp (hpend.symm.trans hu)
      obtain rfl := Option.some.inj hf
      exact .of_completed hfirst hbusy hrx hbytes hpart

/-- An iteration loses a frame by completing the next one: it receives the byte after three. -/
theorem SerialStep.lost {rx : Option Byte} {inReady : Bool} {s t : State} {ls : List Incident} {f : Frame}
    (h : SerialStep rx inReady s t) (hinc : t.incidents = s.incidents ++ ls) (hf : f ∈ droppedFrames ls) :
    s.pending = some f ∧ droppedFrames ls = [f] ∧ rx.isSome = true ∧ s.partialFrame.length = 3 := by
  cases h with
  | joins _ _ hdrop =>
    rw [droppedFrames_of_grown hinc (hdrop.trans (List.append_nil _).symm)] at hf
    cases hf
  | completes hrx hbytes _ _ hdrop =>
    have hls := droppedFrames_of_grown hinc hdrop
    have hs : s.pending = some f := Option.mem_toList.mp (hls ▸ hf)
    have hlen := congrArg List.length hbytes
    exact ⟨hs, by rw [hls, hs]; rfl, by rw [hrx]; rfl, by simpa [Frame.bytes] using hlen.symm⟩

/-! ## The statements -/

/-- Settles O53: both states stop where the stream ends, and before that take steps to states that no output tells apart. -/
theorem unobservableStateIrrelevant : Obligations.UnobservableStateIrrelevant := by
  intro s s' hs hs' h
  by_cases hstream : s.stream = []
  · have hstop := step_of_idle hs.notFaulted hstream
    have hstop' := step_of_idle hs'.notFaulted (h.stream ▸ hstream)
    exact ⟨fun t ht => (nomatch hstop.symm.trans ht), fun r hr => hstop'.trans (hstop.symm.trans hr)⟩
  · obtain ⟨u, u', hu, hu', hobs⟩ := alike_step h hs hs' hstream
    refine ⟨fun t ht => ?_, fun r hr => nomatch hu.symm.trans hr⟩
    obtain rfl := Host.Outcome.next.inj (hu.symm.trans ht)
    exact ⟨u', hu', hobs⟩

/-- Settles O58: the iteration completes a frame over the pending one, which has been pending since it was completed. -/
theorem frameLostOnlyWhileEndpointBusy : Obligations.FrameLostOnlyWhileEndpointBusy := by
  intro draws last s t u f ls h hm _ hrun hlast href hinc hf
  obtain ⟨t', hrun', hlast', hst, htu⟩ := runOps_split ((runOps_append hrun last.ops).trans hlast) href
  obtain rfl := Host.Outcome.next.inj (hrun.symm.trans hrun')
  have hstep := serialStep_of_iteration (runOps_keeps_inv h hrun) ((runOps_recordsGrow hrun).cfg ▸ hm) hlast htu
  obtain ⟨hpend, hls, hrx, hthree⟩ := hstep.lost hinc hf
  obtain ⟨before, since, m, hdraws, hbefore, hbusy, hwhen⟩ := pendingSince_of_runOps h hm hrun hst hpend
  refine ⟨hls, hrx, before, since, m, hdraws, hbefore, hbusy, ?_⟩
  obtain ⟨hnil, hs, hpart⟩ | ⟨d, rest, b, hsince, hd, hbytes, hpart⟩ := hwhen
  · exact .inl ⟨hnil, hs, hpart ▸ hthree⟩
  · exact .inr ⟨d, rest, b, hsince, hd, hbytes, hpart ▸ hthree⟩

/-- Settles O48: each iteration leaves no frame pending for the next one to overwrite. -/
theorem framesKeptWhileEndpointReady : Obligations.FramesKeptWhileEndpointReady := by
  intro draws s t h hm _ hfree hrun href
  rw [← readyDraws_ops] at hrun
  obtain ⟨hpend, hdrop⟩ := ready_iterations_keep h hm (pending_of_not_ready hfree)
    (List.forall_mem_map.mpr fun _ _ => rfl) hrun href
  obtain ⟨ls, hls⟩ := (runOps_recordsGrow hrun).incidents
  refine ⟨ls, hls.symm, droppedFrames_of_grown hls.symm (hdrop.trans (List.append_nil _).symm), ?_⟩
  rw [← (runOps_keeps_inv h hrun).frame.pending_isSome, hpend]
  rfl

end Sys2Proof.Machine
